-- ==== Sys2Proof/Word.lean ====
section
/-! DEFINITION. The plain data types of DMC-AU: the 8-bit cell, the 16-bit command word and the register as the
ordered byte sequence that the spec makes it (00_scope.md R5, R61). Everything that computes on them stands in
`Sys2Proof/Decode.lean` and `Sys2Proof/Machine/`. -/

namespace Sys2Proof

/-- A Byte: 8 ordered bits, index 0 least significant (00_scope.md R5, 40_byte_primitives.md R90). -/
abbrev Byte := BitVec 8

/-- A command word, bits 15 (most significant) to 0 (30_encoding.md R61). -/
abbrev Word := BitVec 16

/-- The content of a register: its bytes, `byte[0]` (the most significant) first (00_scope.md R5, 10_state.md R11).
How many bytes it has is its width, which the invariant `State.WF` of `Sys2Proof/Safety.lean` fixes. -/
abbrev Register := List Byte

end Sys2Proof
end

