-- ==== Sys2Proof/Syntax.lean ====
section
/-! DEFINITION. The syntax of DMC-AU: register names, the small operand types, one constructor of `Instr` for every
row of spec/opcode_table.json (30_encoding.md R63), and the framed command the host presents (R60). The register class
that R73 demands of an operand is in its type, so an operand of a wrong class cannot be written. -/

namespace Sys2Proof

/-- The single-width registers S0 to S3 (10_state.md R11). -/
inductive SReg where
  | s0 | s1 | s2 | s3
  deriving DecidableEq, Repr

/-- The double-width registers D0 and D1 (10_state.md R12). -/
inductive DReg where
  | d0 | d1
  deriving DecidableEq, Repr

/-- A register of either class (10_state.md R14). -/
inductive Reg where
  | single (r : SReg)
  | double (r : DReg)
  deriving DecidableEq, Repr

/-- The fill of SHR (30_encoding.md R64): a zero, a one, or the register's own sign bit. -/
inductive ShrFill where
  | zero | one | sign
  deriving DecidableEq, Repr

/-- The control register that GETS selects (30_encoding.md R69). -/
inductive Selector where
  | status | cause | cnt | mfmt | fcmd
  deriving DecidableEq, Repr

/-- One constructor per row of spec/opcode_table.json, in the table's order. -/
inductive Instr where
  /-- SET Rd, #lit (41_register_ops.md R111): `lit` is the payload, most significant byte first. -/
  | set (rd : Reg) (lit : List Byte)
  /-- GET Rd (R112). -/
  | get (rd : Reg)
  /-- COPY Rd, Rs (R113). -/
  | copy (rd rs : Reg)
  /-- GETH Sd, Ds (R114). -/
  | geth (rd : SReg) (rs : DReg)
  /-- GETL Sd, Ds (R115). -/
  | getl (rd : SReg) (rs : DReg)
  /-- PUTH Dd, Ss (R116). -/
  | puth (rd : DReg) (rs : SReg)
  /-- PUTL Dd, Ss (R117). -/
  | putl (rd : DReg) (rs : SReg)
  /-- ADD Rd, Rs (R118). -/
  | add (rd rs : Reg)
  /-- SUB Rd, Rs (R119). -/
  | sub (rd rs : Reg)
  /-- ADDH Dd, Rs and ADDH Dd, Rs, trunc (R120). -/
  | addh (rd : DReg) (rs : Reg) (trunc : Bool)
  /-- SUBH Dd, Rs and SUBH Dd, Rs, trunc (R121). -/
  | subh (rd : DReg) (rs : Reg) (trunc : Bool)
  /-- SHL Rd, #amt, fill (R122). -/
  | shl (rd : Reg) (fill : Bool) (amt : BitVec 6)
  /-- SHR Rd, #amt, fill (R123). -/
  | shr (rd : Reg) (fill : ShrFill) (amt : BitVec 6)
  /-- NEG Rd (R124). -/
  | neg (rd : Reg)
  /-- NOT Rd (R125). -/
  | not (rd : Reg)
  /-- BTST Rd, #byte, #bit (R126). -/
  | btst (rd : Reg) (bi k : BitVec 4)
  /-- BSET Rd, #byte, #bit (R127). -/
  | bset (rd : Reg) (bi k : BitVec 4)
  /-- BCLR Rd, #byte, #bit (R128). -/
  | bclr (rd : Reg) (bi k : BitVec 4)
  /-- MULC Dd, Sa, Sb (42_multiply.md R152). -/
  | mulc (rd : DReg) (rs rt : SReg)
  /-- MULB Dd, Sa, Sb (R153). -/
  | mulb (rd : DReg) (rs rt : SReg)
  /-- MULF Dd, Sa, Sb (R154). -/
  | mulf (rd : DReg) (rs rt : SReg)
  /-- DIV Sq, Sr, Dn, Sm (43_divide.md R180): quotient `rd`, dividend `rs`, divider `rt`, remainder `rem` (field `fn`). -/
  | div (rd : SReg) (rs : DReg) (rt : SReg) (rem : SReg)
  /-- SETFMT #bitsUsed, #digitWidth, #hiddenOne (44_mantissa.md R201). -/
  | setfmt (h : Bool) (bu : BitVec 6) (dw : BitVec 4)
  /-- NORM Sd (R202). -/
  | norm (rd : SReg)
  /-- UNHIDE Sd (R203). -/
  | unhide (rd : SReg)
  /-- HIDE Sd (R204). -/
  | hide (rd : SReg)
  /-- GETS name (45_system.md R215). -/
  | gets (sel : Selector)
  deriving DecidableEq, Repr

/-- One framed command on the CMD port: a 16-bit word and a payload of zero or more bytes (20_memory.md R41,
30_encoding.md R60). -/
structure Command where
  word : Word
  payload : List Byte
  deriving DecidableEq, Repr

end Sys2Proof
end

