-- ==== Sys2Proof/Config.lean ====
section
/-! DEFINITION. What an implementation of DMC-AU fixes: the parameters of 00_scope.md R4, each a closed type of its
legal values, the shape of a TRACE step record (10_state.md R24), and the one parameter the spec leaves OPEN
(`TRACE_SER`) as a constant with no body. -/

namespace Sys2Proof

/-- Parameter `W`, the bytes of a single-width register: even, 2 to 8 (00_scope.md R4). The other values, which
93_implementation_defined.md I1 and 42_multiply.md R156 tell a model to refuse, cannot be written. -/
inductive Width where
  | w2 | w4 | w6 | w8
  deriving DecidableEq, Repr

/-- The number `W`. -/
def Width.bytes : Width → Nat
  | .w2 => 2
  | .w4 => 4
  | .w6 => 6
  | .w8 => 8

/-- `N = 8·W` (00_scope.md R4). -/
def Width.bits (w : Width) : Nat := 8 * w.bytes

/-- `width(r)` in bytes: W for a single-width register, 2W for a double-width one (10_state.md R14). -/
def Width.ofReg (w : Width) : Reg → Nat
  | .single _ => w.bytes
  | .double _ => 2 * w.bytes

/-- Parameter `EXT` (00_scope.md R4, 40_byte_primitives.md R100). -/
inductive Ext where
  | sign | zero
  deriving DecidableEq, Repr

/-- Parameter `BSAR_VARIANT` (00_scope.md R4, 40_byte_primitives.md R95). -/
inductive BsarVariant where
  | zeroInsert | replicate6 | sign
  deriving DecidableEq, Repr

/-- The parameters of one DMC-AU, fixed for the life of the hardware (00_scope.md R4, 10_state.md R26). `NS = 4` and
`ND = 2` are fixed by the spec and are the types `SReg` and `DReg`. -/
structure Params where
  width : Width
  ext : Ext
  bsar : BsarVariant
  divFixup : Bool
  deriving DecidableEq, Repr

/-- The default of every parameter (00_scope.md R4). -/
def Params.default : Params :=
  { width := .w2, ext := .sign, bsar := .zeroInsert, divFixup := true }

/-- Field `alg` of a step record (10_state.md R24). -/
inductive Alg where
  | mulc | mulb | mulf | div
  deriving DecidableEq, Repr

/-- Field `kind` of a step record (10_state.md R24). -/
inductive StepKind where
  | iter | trial | correction | fixup
  deriving DecidableEq, Repr

/-- Field `action` of a step record: what was applied to the high half (10_state.md R24). -/
inductive StepAction where
  | none | add | sub | add2
  deriving DecidableEq, Repr

/-- A step record (10_state.md R24). The N-bit and 2N-bit vectors are held as register contents, most significant byte
first: they are the source's operand snapshots. A field a step does not have is `none`. -/
structure StepRecord where
  alg : Alg
  kind : StepKind
  idx : Nat
  action : StepAction
  operand : Option Register := Option.none
  before : Option Register := Option.none
  fill : Option Bool := Option.none
  prev : Option Bool := Option.none
  cur : Option Bool := Option.none
  corrIn : Option Bool := Option.none
  code : Option (BitVec 2) := Option.none
  corrOut : Option Bool := Option.none
  preadd : Option Bool := Option.none
  qbit : Option Bool := Option.none
  ext : Option Bool := Option.none
  after : Register
  deriving DecidableEq, Repr

/-- Parameter `TRACE_SER`, OPEN in the spec (00_scope.md R4, 92_eei_decisions.md D8): the bytes of a step record on a
physical trace port. No body, so no proof can rest on a serialisation; no step reads it (assumption log 4). -/
opaque Config.traceSer : StepRecord → List Byte

end Sys2Proof
end

