-- ==== Sys2Proof/WellFormed.lean ====
section
/-! DEFINITION. Which instruction terms are commands of a DMC-AU of width `w` (30_encoding.md R60, R73). The types of
`Instr` already rule out reserved specifiers, reserved field values and operands of a wrong class; two conditions of
60_exceptions.md R227 are left for a check: the length of the SET payload and the two destinations of DIV. -/

namespace Sys2Proof

/-- The instruction can be encoded for width `w`: SET carries exactly `width(rd)` payload bytes (30_encoding.md R60,
60_exceptions.md R227 item 6) and DIV names two different destinations (R227 item 5). -/
def Instr.wellFormed (w : Width) : Instr → Bool
  | .set rd lit => lit.length == w.ofReg rd
  | .get _ => true
  | .copy _ _ => true
  | .geth _ _ => true
  | .getl _ _ => true
  | .puth _ _ => true
  | .putl _ _ => true
  | .add _ _ => true
  | .sub _ _ => true
  | .addh _ _ _ => true
  | .subh _ _ _ => true
  | .shl _ _ _ => true
  | .shr _ _ _ => true
  | .neg _ => true
  | .not _ => true
  | .btst _ _ _ => true
  | .bset _ _ _ => true
  | .bclr _ _ _ => true
  | .mulc _ _ _ => true
  | .mulb _ _ _ => true
  | .mulf _ _ _ => true
  | .div rd _ _ rem => rd != rem
  | .setfmt _ _ _ => true
  | .norm _ => true
  | .unhide _ => true
  | .hide _ => true
  | .gets _ => true

end Sys2Proof
end

