-- ==== Sys2Proof/Decode.lean ====
section
/-! DEFINITION. The decoder and the encoder of DMC-AU, both written from the formats of 30_encoding.md R61 and the opcode
map R63. `decode` is total on any framed command and names the condition of 60_exceptions.md R227 that fails. -/

namespace Sys2Proof

/-- Why a framed command is not a command of DMC-AU: the conditions of 60_exceptions.md R227. The machine reports all of
them as `IllegalCommand`; which one failed, and the order in which this decoder looks, cannot be observed (R234). -/
inductive DecodeError where
  /-- Opcode 0 or 26 to 31 (30_encoding.md R71). -/
  | reservedOpcode
  /-- A bit the format shows as 0 is 1 (R72). -/
  | reservedBits
  /-- `fn = 3` of opcode 19 (R72). -/
  | reservedFunction
  /-- `fm ≥ 2` of SHL or `fm = 3` of SHR (R72). -/
  | reservedFill
  /-- `sel ≥ 5` of GETS (R72). -/
  | reservedSelector
  /-- Register specifier 6 or 7 (R62, R72). -/
  | reservedSpecifier
  /-- A register of the wrong class for its position (R73). -/
  | wrongClass
  /-- DIV whose remainder destination is its quotient destination (R73). -/
  | sameDestination
  /-- A payload of the wrong length, or any payload on a command other than SET (R60). -/
  | payloadLength
  deriving DecidableEq, Repr

/-- The field of `len` bits of a command word whose lowest bit is bit `lo` (30_encoding.md R61). -/
def fieldOf (w : Word) (lo len : Nat) : BitVec len := w.extractLsb' lo len

/-! ### Operand fields -/

/-- A register specifier (30_encoding.md R62). -/
def decodeReg (v : BitVec 3) : Except DecodeError Reg :=
  match v.toNat with
  | 0 => .ok (.single .s0)
  | 1 => .ok (.single .s1)
  | 2 => .ok (.single .s2)
  | 3 => .ok (.single .s3)
  | 4 => .ok (.double .d0)
  | 5 => .ok (.double .d1)
  | _ => .error .reservedSpecifier

/-- A specifier that must name a single-width register (30_encoding.md R73). -/
def decodeSingle (v : BitVec 3) : Except DecodeError SReg :=
  match decodeReg v with
  | .ok (.single r) => .ok r
  | .ok (.double _) => .error .wrongClass
  | .error e => .error e

/-- A specifier that must name a double-width register (30_encoding.md R73). -/
def decodeDouble (v : BitVec 3) : Except DecodeError DReg :=
  match decodeReg v with
  | .ok (.double r) => .ok r
  | .ok (.single _) => .error .wrongClass
  | .error e => .error e

/-- The 2-bit remainder destination of DIV, the number of S0 to S3 (30_encoding.md R67). -/
def decodeRem (v : BitVec 2) : SReg :=
  match v.toNat with
  | 0 => .s0
  | 1 => .s1
  | 2 => .s2
  | _ => .s3

/-- The fill mode of SHL (30_encoding.md R64). -/
def decodeShlFill (v : BitVec 2) : Except DecodeError Bool :=
  match v.toNat with
  | 0 => .ok false
  | 1 => .ok true
  | _ => .error .reservedFill

/-- The fill mode of SHR (30_encoding.md R64). -/
def decodeShrFill (v : BitVec 2) : Except DecodeError ShrFill :=
  match v.toNat with
  | 0 => .ok .zero
  | 1 => .ok .one
  | 2 => .ok .sign
  | _ => .error .reservedFill

/-- The selector of GETS (30_encoding.md R69). -/
def decodeSelector (v : BitVec 3) : Except DecodeError Selector :=
  match v.toNat with
  | 0 => .ok .status
  | 1 => .ok .cause
  | 2 => .ok .cnt
  | 3 => .ok .mfmt
  | 4 => .ok .fcmd
  | _ => .error .reservedSelector

/-- Bits that must be 0 (30_encoding.md R72). -/
def requireZero {n : Nat} (v : BitVec n) : Except DecodeError Unit :=
  if v = 0 then .ok () else .error .reservedBits

/-- A payload that must have `len` bytes (30_encoding.md R60). -/
def requirePayload (payload : List Byte) (len : Nat) : Except DecodeError Unit :=
  if payload.length = len then .ok () else .error .payloadLength

/-! ### The formats of 30_encoding.md R61 -/

/-- Format Z1: `rd`, then eight zero bits. -/
def decodeZ1 (w : Word) : Except DecodeError Reg := do
  requireZero (fieldOf w 0 8)
  decodeReg (fieldOf w 8 3)

/-- Format Z1 with a single-width `rd` (NORM, UNHIDE, HIDE; R73). -/
def decodeZ1Single (w : Word) : Except DecodeError SReg := do
  requireZero (fieldOf w 0 8)
  decodeSingle (fieldOf w 8 3)

/-- Format R2 with registers of either class. -/
def decodeR2 (w : Word) (make : Reg → Reg → Instr) : Except DecodeError Instr := do
  requireZero (fieldOf w 0 5)
  let rd ← decodeReg (fieldOf w 8 3)
  let rs ← decodeReg (fieldOf w 5 3)
  .ok (make rd rs)

/-- Format R2 with a single-width `rd` and a double-width `rs` (GETH, GETL; R73). -/
def decodeR2Get (w : Word) (make : SReg → DReg → Instr) : Except DecodeError Instr := do
  requireZero (fieldOf w 0 5)
  let rd ← decodeSingle (fieldOf w 8 3)
  let rs ← decodeDouble (fieldOf w 5 3)
  .ok (make rd rs)

/-- Format R2 with a double-width `rd` and a single-width `rs` (PUTH, PUTL; R73). -/
def decodeR2Put (w : Word) (make : DReg → SReg → Instr) : Except DecodeError Instr := do
  requireZero (fieldOf w 0 5)
  let rd ← decodeDouble (fieldOf w 8 3)
  let rs ← decodeSingle (fieldOf w 5 3)
  .ok (make rd rs)

/-- Format RH: double-width `rd`, `rs` of either class, `t` in bit 0, bits 4 to 1 zero (R61, R73). -/
def decodeRH (w : Word) (make : DReg → Reg → Bool → Instr) : Except DecodeError Instr := do
  requireZero (fieldOf w 1 4)
  let rd ← decodeDouble (fieldOf w 8 3)
  let rs ← decodeReg (fieldOf w 5 3)
  .ok (make rd rs (fieldOf w 0 1 == 1#1))

/-- Format SH of SHL (R61, R64). -/
def decodeShl (w : Word) : Except DecodeError Instr := do
  let rd ← decodeReg (fieldOf w 8 3)
  let fill ← decodeShlFill (fieldOf w 6 2)
  .ok (.shl rd fill (fieldOf w 0 6))

/-- Format SH of SHR (R61, R64). -/
def decodeShr (w : Word) : Except DecodeError Instr := do
  let rd ← decodeReg (fieldOf w 8 3)
  let fill ← decodeShrFill (fieldOf w 6 2)
  .ok (.shr rd fill (fieldOf w 0 6))

/-- Format BI (R61, R65). -/
def decodeBI (w : Word) (make : Reg → BitVec 4 → BitVec 4 → Instr) : Except DecodeError Instr := do
  let rd ← decodeReg (fieldOf w 8 3)
  .ok (make rd (fieldOf w 4 4) (fieldOf w 0 4))

/-- Format R3 of opcode 19 (R61, R66): `fn` selects the algorithm. -/
def decodeMul (w : Word) : Except DecodeError Instr := do
  let rd ← decodeDouble (fieldOf w 8 3)
  let rs ← decodeSingle (fieldOf w 5 3)
  let rt ← decodeSingle (fieldOf w 2 3)
  match (fieldOf w 0 2).toNat with
  | 0 => .ok (.mulc rd rs rt)
  | 1 => .ok (.mulb rd rs rt)
  | 2 => .ok (.mulf rd rs rt)
  | _ => .error .reservedFunction

/-- Format R3 of opcode 20 (R61, R67, R73). -/
def decodeDiv (w : Word) : Except DecodeError Instr := do
  let rd ← decodeSingle (fieldOf w 8 3)
  let rs ← decodeDouble (fieldOf w 5 3)
  let rt ← decodeSingle (fieldOf w 2 3)
  let rem := decodeRem (fieldOf w 0 2)
  if rd = rem then .error .sameDestination else .ok (.div rd rs rt rem)

/-- Format FM (R61, R68). -/
def decodeFM (w : Word) : Instr :=
  .setfmt (fieldOf w 10 1 == 1#1) (fieldOf w 4 6) (fieldOf w 0 4)

/-- Format GS (R61, R69). -/
def decodeGS (w : Word) : Except DecodeError Instr := do
  requireZero (fieldOf w 3 8)
  let sel ← decodeSelector (fieldOf w 0 3)
  .ok (.gets sel)

/-- Every command other than SET (opcode map R63), the payload aside. -/
def decodePlain (w : Word) : Except DecodeError Instr :=
  match (fieldOf w 11 5).toNat with
  | 2 => (decodeZ1 w).map .get
  | 3 => decodeR2 w .copy
  | 4 => decodeR2Get w .geth
  | 5 => decodeR2Get w .getl
  | 6 => decodeR2Put w .puth
  | 7 => decodeR2Put w .putl
  | 8 => decodeR2 w .add
  | 9 => decodeR2 w .sub
  | 10 => decodeRH w .addh
  | 11 => decodeRH w .subh
  | 12 => decodeShl w
  | 13 => decodeShr w
  | 14 => (decodeZ1 w).map .neg
  | 15 => (decodeZ1 w).map .not
  | 16 => decodeBI w .btst
  | 17 => decodeBI w .bset
  | 18 => decodeBI w .bclr
  | 19 => decodeMul w
  | 20 => decodeDiv w
  | 21 => .ok (decodeFM w)
  | 22 => (decodeZ1Single w).map .norm
  | 23 => (decodeZ1Single w).map .unhide
  | 24 => (decodeZ1Single w).map .hide
  | 25 => decodeGS w
  | _ => .error .reservedOpcode

/-- The decoder: a framed command of a DMC-AU of width `wd` (30_encoding.md R60 to R73). SET (opcode 1) takes exactly
`width(rd)` payload bytes, every other command none. -/
def decode (wd : Width) (c : Command) : Except DecodeError Instr :=
  if (fieldOf c.word 11 5).toNat = 1 then do
    let rd ← decodeZ1 c.word
    requirePayload c.payload (wd.ofReg rd)
    .ok (.set rd c.payload)
  else do
    let i ← decodePlain c.word
    requirePayload c.payload 0
    .ok i

/-! ### The encoder -/

/-- The number of a single-width register (30_encoding.md R62, R67). -/
def SReg.number : SReg → Nat
  | .s0 => 0
  | .s1 => 1
  | .s2 => 2
  | .s3 => 3

/-- The specifier of a double-width register (30_encoding.md R62). -/
def DReg.number : DReg → Nat
  | .d0 => 4
  | .d1 => 5

/-- The 3-bit register specifier (30_encoding.md R62). -/
def Reg.spec : Reg → BitVec 3
  | .single r => BitVec.ofNat 3 r.number
  | .double r => BitVec.ofNat 3 r.number

/-- The 2-bit field `fm` of SHR (30_encoding.md R64). -/
def ShrFill.field : ShrFill → BitVec 2
  | .zero => 0#2
  | .one => 1#2
  | .sign => 2#2

/-- The 3-bit field `sel` of GETS (30_encoding.md R69). -/
def Selector.field : Selector → BitVec 3
  | .status => 0#3
  | .cause => 1#3
  | .cnt => 2#3
  | .mfmt => 3#3
  | .fcmd => 4#3

/-- Format Z1 (30_encoding.md R61). -/
def encZ1 (op : BitVec 5) (rd : Reg) : Word := op ++ rd.spec ++ 0#8

/-- Format R2 (30_encoding.md R61). -/
def encR2 (op : BitVec 5) (rd rs : Reg) : Word := op ++ rd.spec ++ rs.spec ++ 0#5

/-- Format RH (30_encoding.md R61). -/
def encRH (op : BitVec 5) (rd rs : Reg) (t : Bool) : Word := op ++ rd.spec ++ rs.spec ++ 0#4 ++ BitVec.ofBool t

/-- Format R3 (30_encoding.md R61). -/
def encR3 (op : BitVec 5) (rd rs rt : Reg) (fn : BitVec 2) : Word := op ++ rd.spec ++ rs.spec ++ rt.spec ++ fn

/-- Format SH (30_encoding.md R61). -/
def encSH (op : BitVec 5) (rd : Reg) (fm : BitVec 2) (amt : BitVec 6) : Word := op ++ rd.spec ++ fm ++ amt

/-- Format BI (30_encoding.md R61). -/
def encBI (op : BitVec 5) (rd : Reg) (bi k : BitVec 4) : Word := op ++ rd.spec ++ bi ++ k

/-- Format FM (30_encoding.md R61, R68). -/
def encFM (op : BitVec 5) (h : Bool) (bu : BitVec 6) (dw : BitVec 4) : Word := op ++ BitVec.ofBool h ++ bu ++ dw

/-- Format GS (30_encoding.md R61, R69). -/
def encGS (op : BitVec 5) (sel : BitVec 3) : Word := op ++ 0#8 ++ sel

/-- The command word of an instruction (30_encoding.md R63). -/
def encodeWord : Instr → Word
  | .set rd _ => encZ1 1#5 rd
  | .get rd => encZ1 2#5 rd
  | .copy rd rs => encR2 3#5 rd rs
  | .geth rd rs => encR2 4#5 (.single rd) (.double rs)
  | .getl rd rs => encR2 5#5 (.single rd) (.double rs)
  | .puth rd rs => encR2 6#5 (.double rd) (.single rs)
  | .putl rd rs => encR2 7#5 (.double rd) (.single rs)
  | .add rd rs => encR2 8#5 rd rs
  | .sub rd rs => encR2 9#5 rd rs
  | .addh rd rs t => encRH 10#5 (.double rd) rs t
  | .subh rd rs t => encRH 11#5 (.double rd) rs t
  | .shl rd fill amt => encSH 12#5 rd (0#1 ++ BitVec.ofBool fill) amt
  | .shr rd fill amt => encSH 13#5 rd fill.field amt
  | .neg rd => encZ1 14#5 rd
  | .not rd => encZ1 15#5 rd
  | .btst rd bi k => encBI 16#5 rd bi k
  | .bset rd bi k => encBI 17#5 rd bi k
  | .bclr rd bi k => encBI 18#5 rd bi k
  | .mulc rd rs rt => encR3 19#5 (.double rd) (.single rs) (.single rt) 0#2
  | .mulb rd rs rt => encR3 19#5 (.double rd) (.single rs) (.single rt) 1#2
  | .mulf rd rs rt => encR3 19#5 (.double rd) (.single rs) (.single rt) 2#2
  | .div rd rs rt rem => encR3 20#5 (.single rd) (.double rs) (.single rt) (BitVec.ofNat 2 rem.number)
  | .setfmt h bu dw => encFM 21#5 h bu dw
  | .norm rd => encZ1 22#5 (.single rd)
  | .unhide rd => encZ1 23#5 (.single rd)
  | .hide rd => encZ1 24#5 (.single rd)
  | .gets sel => encGS 25#5 sel.field

/-- The payload of an instruction: the literal of SET, nothing for any other (30_encoding.md R60, R70). -/
def encodePayload : Instr → List Byte
  | .set _ lit => lit
  | .get _ => []
  | .copy _ _ => []
  | .geth _ _ => []
  | .getl _ _ => []
  | .puth _ _ => []
  | .putl _ _ => []
  | .add _ _ => []
  | .sub _ _ => []
  | .addh _ _ _ => []
  | .subh _ _ _ => []
  | .shl _ _ _ => []
  | .shr _ _ _ => []
  | .neg _ => []
  | .not _ => []
  | .btst _ _ _ => []
  | .bset _ _ _ => []
  | .bclr _ _ _ => []
  | .mulc _ _ _ => []
  | .mulb _ _ _ => []
  | .mulf _ _ _ => []
  | .div _ _ _ _ => []
  | .setfmt _ _ _ => []
  | .norm _ => []
  | .unhide _ => []
  | .hide _ => []
  | .gets _ => []

/-- The framed command of an instruction (30_encoding.md R60). -/
def encode (i : Instr) : Command := { word := encodeWord i, payload := encodePayload i }

/-! ### A program written as one byte string (30_encoding.md R77) -/

/-- How many payload bytes the command that begins with this word has: told from the opcode and, for SET, from `rd`
(30_encoding.md R60). A SET with a reserved specifier names no register, so no length: 0. -/
def payloadBytes (wd : Width) (w : Word) : Nat :=
  if (fieldOf w 11 5).toNat = 1 then
    match decodeReg (fieldOf w 8 3) with
    | .ok rd => wd.ofReg rd
    | .error _ => 0
  else 0

/-- The bytes a command contributes to a listing: its word, most significant byte first, then its payload (R77). -/
def Command.listing (c : Command) : List Byte := fieldOf c.word 8 8 :: fieldOf c.word 0 8 :: c.payload

/-- The first command of a listing and what follows it; nothing where the listing ends inside a command (R60, R77). -/
def cutCommand (wd : Width) : List Byte → Option (Command × List Byte)
  | hi :: lo :: rest =>
    let w : Word := hi ++ lo
    let len := payloadBytes wd w
    if len ≤ rest.length then some ({ word := w, payload := rest.take len }, rest.drop len) else none
  | _ => none

/-- The commands of a listing, at most `fuel` of them (R77). -/
def cutListing (wd : Width) : (fuel : Nat) → List Byte → Option (List Command)
  | _, [] => some []
  | 0, _ :: _ => none
  | fuel + 1, b :: bs =>
    match cutCommand wd (b :: bs) with
    | none => none
    | some (c, rest) => (cutListing wd fuel rest).map (c :: ·)

/-! ### The opcode table's numbering -/

/-- The framed command whose bits are `w`, numbered as spec/opcode_table.json numbers them: the command word is bits 15 to
0, payload byte `j` is bits `16 + 8j + 7` to `16 + 8j`; bits from `nbits` up are 0, and the host frames the command with as
many payload bytes as its word asks for (R60). -/
def tableCommand (wd : Width) (nbits w : Nat) : Command :=
  let v := w % 2 ^ nbits
  let word : Word := BitVec.ofNat 16 v
  { word := word, payload := (List.range (payloadBytes wd word)).map fun j => BitVec.ofNat 8 (v / 2 ^ (16 + 8 * j)) }

/-- The instruction the decoder reads from the bits `w` of a table row, on the default width. -/
def decodeTableWord (nbits w : Nat) : Option Instr :=
  match decode Params.default.width (tableCommand Params.default.width nbits w) with
  | .ok i => some i
  | .error _ => none

end Sys2Proof
end

