-- ==== Sys2Proof/Machine/State.lean ====
section
/-! DEFINITION. The state of DMC-AU (10_state.md R10) as plain data, the events of the host, the causes of a fault, the
outcome reasons of the host's interface, and the state after reset (10_state.md R27). -/

namespace Sys2Proof.Machine

open Sys2Proof

/-- What the host does at a command boundary (20_memory.md R52): it presents one framed command, or asserts `rst`. -/
inductive HostEvent where
  | command (c : Command)
  | reset
  deriving DecidableEq, Repr

/-- The faults of DMC-AU (60_exceptions.md R226). A fault is no outcome of the host's interface: the machine enters its
fault state, which is a next state (`takeFault` of `Ops.lean`). -/
inductive Cause where
  | illegalCommand
  | widthMismatch
  | highOverflow
  | operandRange
  | divZero
  | divInvalid
  | internalCheck
  deriving DecidableEq, Repr

/-- The reasons a step can stop with an `Outcome.fault`. There is none: every command of DMC-AU has a defined result or
a defined fault state (93_implementation_defined.md, introduction), and with no command waiting the block is idle
(60_exceptions.md R245), so this type is empty (assumption log 3). -/
inductive Fault where
  deriving DecidableEq, Repr

/-- The reasons a step can be refused. -/
inductive Refusal where
  /-- Raised by `exec` for an instruction without a meaning, by its mnemonic; safe: nothing can be concluded about the
  instruction. No arm raises it: every row of the opcode table has its meaning. -/
  | notModelled (mnemonic : String)
  deriving DecidableEq, Repr

/-- The state. Registers, flag, control registers and logs are those of 10_state.md R10. `params` are the parameters of
00_scope.md R4, which are no architectural state (R26): no step changes them (assumption log 1). `pending` and `index` are
the model's bookkeeping of what the host presents (10_state.md R15, 20_memory.md R52; assumption log 2). -/
structure State where
  /-- The implementation parameters (00_scope.md R4). -/
  params : Params
  /-- S0 to S3 (10_state.md R11). -/
  s0 : Register
  s1 : Register
  s2 : Register
  s3 : Register
  /-- D0 and D1 (10_state.md R12). -/
  d0 : Register
  d1 : Register
  /-- The carry flag `C`, STATUS bit 0 (10_state.md R16). -/
  c : Bool
  /-- The fault bit `F`, STATUS bit 1 (10_state.md R17). -/
  f : Bool
  /-- `CAUSE` (10_state.md R18). -/
  cause : Byte
  /-- `CNT` (10_state.md R19). -/
  cnt : Byte
  /-- `MFMT` (10_state.md R20). -/
  mfmt : Word
  /-- `FCMD` (10_state.md R21). -/
  fcmd : Word
  /-- The data-out log `DOUT` (10_state.md R23), oldest byte first. -/
  dout : List Byte
  /-- The trace log `TRACE` (10_state.md R24), oldest record first. -/
  trace : List StepRecord
  /-- What the host presents next, the next event first (20_memory.md R41, R52). -/
  pending : List HostEvent
  /-- How many commands the block has taken: the program index of 10_state.md R15. -/
  index : Nat
  deriving DecidableEq, Repr

/-- The reset state of a DMC-AU with the given parameters (10_state.md R27): all registers zero, `MFMT` = F1, nothing
presented yet. -/
def State.resetWith (p : Params) : State :=
  { params := p
    s0 := List.replicate p.width.bytes 0#8
    s1 := List.replicate p.width.bytes 0#8
    s2 := List.replicate p.width.bytes 0#8
    s3 := List.replicate p.width.bytes 0#8
    d0 := List.replicate (2 * p.width.bytes) 0#8
    d1 := List.replicate (2 * p.width.bytes) 0#8
    c := false
    f := false
    cause := 0x00#8
    cnt := 0x00#8
    mfmt := 0x00C4#16
    fcmd := 0x0000#16
    dout := []
    trace := []
    pending := []
    index := 0 }

/-- The machine right after reset, with the default parameters (10_state.md R27, 00_scope.md R4). -/
def State.reset : State := State.resetWith Params.default

end Sys2Proof.Machine
end

