-- ==== Sys2Proof/Machine/Bytes.lean ====
section
/-! DEFINITION. The value functions of 00_scope.md R6 and the byte slice primitives of 40_byte_primitives.md, from which
every register command is built. All of them are pure functions. -/

namespace Sys2Proof.Machine

open Sys2Proof

/-! ### Values (00_scope.md R5, R6) -/

/-- `unsigned`: the sum of `byte[i] · 256^(w-1-i)` (00_scope.md R6). -/
def unsigned : Register → Nat
  | [] => 0
  | b :: bs => b.toNat * 256 ^ bs.length + unsigned bs

/-- `msb`, the sign bit: bit 7 of `byte[0]` (00_scope.md R6). -/
def msb : Register → Bool
  | [] => false
  | b :: _ => b.getLsbD 7

/-- `signed`: the unsigned value, less `2^n` where the sign bit is 1 (00_scope.md R6). -/
def signed (v : Register) : Int :=
  if msb v then (unsigned v : Int) - 2 ^ (8 * v.length) else (unsigned v : Int)

/-- The register of `w` bytes that holds `v mod 256^w`, most significant byte first (00_scope.md R5). -/
def toBytes : (w v : Nat) → Register
  | 0, _ => []
  | w + 1, v => BitVec.ofNat 8 (v / 256 ^ w) :: toBytes w v

/-- The content of a register as one bit vector of `n` bits (00_scope.md R5). -/
def toVec (n : Nat) (v : Register) : BitVec n := BitVec.ofNat n (unsigned v)

/-! ### Arithmetic slices (R91, R92) -/

/-- `badd` (R91): carry out and sum of two bytes and a carry. -/
def badd (a b : Byte) (cin : Bool) : Bool × Byte :=
  let t := a.toNat + b.toNat + cin.toNat
  (t / 256 == 1, BitVec.ofNat 8 (t % 256))

/-- `bsub` (R92): borrow out and difference; 1 means a borrow is taken. -/
def bsub (a b : Byte) (bin : Bool) : Bool × Byte :=
  let t : Int := (a.toNat : Int) - b.toNat - bin.toNat
  (decide (t < 0), BitVec.ofInt 8 (t % 256))

/-! ### Shift slices (R93 to R95) -/

/-- `bshl` (R93): one bit left; the bit that leaves is bit 7. -/
def bshl (v : Byte) (fill : Bool) : Bool × Byte :=
  (v.getLsbD 7, v.extractLsb' 0 7 ++ BitVec.ofBool fill)

/-- `bshr` (R94): one bit right; the bit that leaves is bit 0. -/
def bshr (v : Byte) (fill : Bool) : Bool × Byte :=
  (v.getLsbD 0, BitVec.ofBool fill ++ v.extractLsb' 1 7)

/-- `bsar` (R95), the byte arithmetic shift in the reading that `BSAR_VARIANT` selects. No command uses it. -/
def bsar (variant : BsarVariant) (v : Byte) : Bool × Byte :=
  let second :=
    match variant with
    | .zeroInsert => false
    | .replicate6 => v.getLsbD 6
    | .sign => v.getLsbD 7
  (v.getLsbD 0, BitVec.ofBool (v.getLsbD 7) ++ BitVec.ofBool second ++ v.extractLsb' 1 6)

/-! ### Bit and nibble access, complement (R96 to R98) -/

/-- `bget` (R96): bit `k` of a byte; an index above 7 raises `OperandRange`. -/
def bget (v : Byte) (k : Nat) : Except Cause Bool :=
  if k > 7 then .error .operandRange else .ok (v.getLsbD k)

/-- `bput` (R96): a byte with bit `k` replaced by `b`; an index above 7 raises `OperandRange`. -/
def bput (v : Byte) (k : Nat) (b : Bool) : Except Cause Byte :=
  if k > 7 then .error .operandRange
  else .ok (if b then v ||| (1#8 <<< k) else v &&& ~~~(1#8 <<< k))

/-- `bnib` (R97): the upper or the lower four bits. No command uses it. -/
def bnib (v : Byte) (hi : Bool) : BitVec 4 :=
  if hi then v.extractLsb' 4 4 else v.extractLsb' 0 4

/-- `bnot` (R98). -/
def bnot (v : Byte) : Byte := ~~~v

/-! ### The chains -/

/-- `extend` (R100): bytes prepended at the most significant end, `0xFF` for a negative operand under `EXT = sign`, else
`0x00`. -/
def extend (ext : Ext) (x : Register) (w : Nat) : Register :=
  let pad : Byte :=
    match ext with
    | .sign => if msb x then 0xFF#8 else 0x00#8
    | .zero => 0x00#8
  List.replicate (w - x.length) pad ++ x

/-- The carry chain over two byte sequences of one length, least significant byte first, from carry 0 (R99). -/
def carryChain (op : Byte → Byte → Bool → Bool × Byte) : Register → Register → Bool × Register
  | a :: as, b :: bs =>
    let low := carryChain op as bs
    let top := op a b low.1
    (top.1, top.2 :: low.2)
  | _, _ => (false, [])

/-- `performBinOp` (R99): both operands extended to the longer length, then the carry chain. -/
def performBinOp (ext : Ext) (op : Byte → Byte → Bool → Bool × Byte) (a b : Register) : Bool × Register :=
  let w := max a.length b.length
  carryChain op (extend ext a w) (extend ext b w)

/-- One whole-register left shift (41_register_ops.md R122): the chain of `bshl`, least significant byte first; answers the
bit that left at the top and the new content. -/
def shiftLeft1 (fill : Bool) : Register → Bool × Register
  | [] => (fill, [])
  | b :: bs =>
    let low := shiftLeft1 fill bs
    let top := bshl b low.1
    (top.1, top.2 :: low.2)

/-- One whole-register right shift (41_register_ops.md R123): the chain of `bshr`, most significant byte first; answers the
bit that left at the bottom and the new content. -/
def shiftRight1 (fill : Bool) : Register → Bool × Register
  | [] => (fill, [])
  | b :: bs =>
    let top := bshr b fill
    let low := shiftRight1 top.1 bs
    (low.1, top.2 :: low.2)

end Sys2Proof.Machine
end

