-- ==== Sys2Proof/Machine/Ops.lean ====
section
/-! DEFINITION. The shared operations on the state: reading and writing registers, the logs, the control registers, taking
a command from the host, entering the fault state, leaving it by reset, and the common execution template of a command
(41_register_ops.md R110). -/

namespace Sys2Proof.Machine

open Sys2Proof

/-! ### Registers (10_state.md R11, R12, R14) -/

/-- `width(r)` in bytes (10_state.md R14). -/
def State.widthOf (s : State) (r : Reg) : Nat := s.params.width.ofReg r

/-- The number N of bits of a single-width register (00_scope.md R4). -/
def State.nBits (s : State) : Nat := s.params.width.bits

/-- The content of a single-width register. -/
def State.single (s : State) : SReg → Register
  | .s0 => s.s0
  | .s1 => s.s1
  | .s2 => s.s2
  | .s3 => s.s3

/-- The content of a double-width register. -/
def State.double (s : State) : DReg → Register
  | .d0 => s.d0
  | .d1 => s.d1

/-- `x[r]` (00_scope.md R7). -/
def State.reg (s : State) : Reg → Register
  | .single r => s.single r
  | .double r => s.double r

/-- Writing a single-width register. -/
def State.setSingle (s : State) (r : SReg) (v : Register) : State :=
  match r with
  | .s0 => { s with s0 := v }
  | .s1 => { s with s1 := v }
  | .s2 => { s with s2 := v }
  | .s3 => { s with s3 := v }

/-- Writing a double-width register. -/
def State.setDouble (s : State) (r : DReg) (v : Register) : State :=
  match r with
  | .d0 => { s with d0 := v }
  | .d1 => { s with d1 := v }

/-- `x[r] <- v` (00_scope.md R7). -/
def State.setReg (s : State) (r : Reg) (v : Register) : State :=
  match r with
  | .single r => s.setSingle r v
  | .double r => s.setDouble r v

/-! ### Logs and control registers -/

/-- `DOUT ++ bytes` (10_state.md R23). -/
def State.emit (s : State) (bytes : List Byte) : State := { s with dout := s.dout ++ bytes }

/-- `TRACE ++ records` (10_state.md R24). -/
def State.record (s : State) (recs : List StepRecord) : State := { s with trace := s.trace ++ recs }

/-- `CNT <- v` (10_state.md R19). -/
def State.setCnt (s : State) (v : Nat) : State := { s with cnt := BitVec.ofNat 8 v }

/-- `MFMT <- (00000, h, bu, dw)` (44_mantissa.md R201). -/
def State.setMfmt (s : State) (h : Bool) (bu : BitVec 6) (dw : BitVec 4) : State :=
  { s with mfmt := 0#5 ++ BitVec.ofBool h ++ bu ++ dw }

/-- `STATUS`: bit 0 is C, bit 1 is F, the other bits read as 0 (10_state.md R17). -/
def State.status (s : State) : Byte := 0#6 ++ BitVec.ofBool s.f ++ BitVec.ofBool s.c

/-- `MFMT.hiddenOne`, bit 10 (10_state.md R20). -/
def State.hiddenOne (s : State) : Bool := s.mfmt.getLsbD 10

/-- `MFMT.bitsUsed`, bits 9:4 (10_state.md R20). -/
def State.bitsUsed (s : State) : Nat := (s.mfmt.extractLsb' 4 6).toNat

/-- `MFMT.digitWidth`, bits 3:0 (10_state.md R20). -/
def State.digitWidth (s : State) : Nat := (s.mfmt.extractLsb' 0 4).toNat

/-- A 16-bit control register as it crosses a port, most significant byte first (20_memory.md R42). -/
def wordBytes (w : Word) : List Byte := [w.extractLsb' 8 8, w.extractLsb' 0 8]

/-- The bytes of the control register that a selector of GETS names (45_system.md R215); they are also what the
control-register ports show the host between commands (20_memory.md R41). -/
def State.control (s : State) : Selector → List Byte
  | .status => [s.status]
  | .cause => [s.cause]
  | .cnt => [s.cnt]
  | .mfmt => wordBytes s.mfmt
  | .fcmd => wordBytes s.fcmd

/-- The bytes of the TRACE port under the OPEN parameter `TRACE_SER` (20_memory.md R41, 00_scope.md R4). -/
def State.tracePort (s : State) : List Byte := s.trace.flatMap Config.traceSer

/-! ### Faults and reset -/

/-- The code that `CAUSE` takes (60_exceptions.md R226). -/
def Cause.code : Cause → Byte
  | .illegalCommand => 1#8
  | .widthMismatch => 2#8
  | .highOverflow => 3#8
  | .operandRange => 4#8
  | .divZero => 5#8
  | .divInvalid => 6#8
  | .internalCheck => 7#8

/-- Fault entry (60_exceptions.md R235): F, CAUSE and FCMD, nothing else. The state given is that before the command, so
every write of the command is discarded. -/
def takeFault (x : Cause) (w : Word) (s : State) : State :=
  { s with f := true, cause := x.code, fcmd := w }

/-- Reset (70_reset_and_hazards.md R260, R261): the only way out of the fault state (60_exceptions.md R237). Every piece of
architectural state takes its value of 10_state.md R27; the parameters stay, and so does the host's own list. -/
def applyReset (s : State) : State :=
  { State.resetWith s.params with pending := s.pending, index := s.index }

/-- What the host presents next, and the state in which it has been taken; the program index advances by one per command
(10_state.md R15) and not for `rst`, which is no command. -/
def fetch (s : State) : Option (HostEvent × State) :=
  match s.pending with
  | [] => none
  | .reset :: rest => some (.reset, { s with pending := rest })
  | .command c :: rest => some (.command c, { s with pending := rest, index := s.index + 1 })

/-- The host presents one more event, before all it has waiting (20_memory.md R52). -/
def present (e : HostEvent) (s : State) : State := { s with pending := e :: s.pending }

/-! ### The execution template -/

/-- The template of a command other than GETS, whose word is `w` and whose rule gives `result` (41_register_ops.md R110):
in the fault state it is ignored (60_exceptions.md R236); otherwise it completes, or it enters the fault state from the
state before it (R235). -/
def runCommand (w : Word) (s : State) (result : Except Cause State) : Host.Outcome State Fault Refusal :=
  if s.f then .next s
  else
    match result with
    | .ok t => .next t
    | .error x => .next (takeFault x w s)

/-- A command that the decoder refuses: `IllegalCommand`, or nothing in the fault state (60_exceptions.md R227, R236). -/
def rejectCommand (w : Word) (s : State) : Host.Outcome State Fault Refusal :=
  runCommand w s (.error .illegalCommand)

end Sys2Proof.Machine
end

