-- ==== Sys2Proof/Machine/Flags.lean ====
section
/-! DEFINITION. The flag `C` (10_state.md R16): writing it, the commands that write it, and the multi-bit shifts whose last
bit out it holds (41_register_ops.md R122, R123). -/

namespace Sys2Proof.Machine

open Sys2Proof

/-- `C <- b` (10_state.md R16). -/
def State.setCarry (s : State) (b : Bool) : State := { s with c := b }

/-- The commands that write `C` when they complete (10_state.md R16): ADD, SUB, ADDH, SUBH, SHL and SHR with a non-zero
amount, BTST, and UNHIDE and HIDE under a hidden-one format. -/
def Instr.writesCarry (s : State) : Instr → Bool
  | .set _ _ => false
  | .get _ => false
  | .copy _ _ => false
  | .geth _ _ => false
  | .getl _ _ => false
  | .puth _ _ => false
  | .putl _ _ => false
  | .add _ _ => true
  | .sub _ _ => true
  | .addh _ _ _ => true
  | .subh _ _ _ => true
  | .shl _ _ amt => amt != 0#6
  | .shr _ _ amt => amt != 0#6
  | .neg _ => false
  | .not _ => false
  | .btst _ _ _ => true
  | .bset _ _ _ => false
  | .bclr _ _ _ => false
  | .mulc _ _ _ => false
  | .mulb _ _ _ => false
  | .mulf _ _ _ => false
  | .div _ _ _ _ => false
  | .setfmt _ _ _ => false
  | .norm _ => false
  | .unhide _ => s.hiddenOne
  | .hide _ => s.hiddenOne
  | .gets _ => false

/-- SHL's repetition (41_register_ops.md R122): `amt` one-bit left shifts of register content `v`, `c` being the flag
before them; answers the flag and the content after them. -/
def shiftLeftBy (fill : Bool) : (amt : Nat) → (c : Bool) → (v : Register) → Bool × Register
  | 0, c, v => (c, v)
  | amt + 1, _, v =>
    let r := shiftLeft1 fill v
    shiftLeftBy fill amt r.1 r.2

/-- The bit that SHR shifts in: the sign is sampled before each one-bit shift (41_register_ops.md R123). -/
def shrFillBit (fill : ShrFill) (v : Register) : Bool :=
  match fill with
  | .zero => false
  | .one => true
  | .sign => msb v

/-- SHR's repetition (41_register_ops.md R123). -/
def shiftRightBy (fill : ShrFill) : (amt : Nat) → (c : Bool) → (v : Register) → Bool × Register
  | 0, c, v => (c, v)
  | amt + 1, _, v =>
    let r := shiftRight1 (shrFillBit fill v) v
    shiftRightBy fill amt r.1 r.2

end Sys2Proof.Machine
end

