-- ==== Sys2Proof/Machine/Operands.lean ====
section
/-! DEFINITION. The operand forms: the halves of a double-width register (10_state.md R12), the width rules of COPY, ADD and
SUB (60_exceptions.md R228), the operand of ADDH and SUBH (41_register_ops.md R120), the bit that BTST, BSET and BCLR name
(R126), and the operands of multiplication, division and the mantissa commands. -/

namespace Sys2Proof.Machine

open Sys2Proof

/-! ### Halves -/

/-- `DnH`: bytes 0 to W-1 (10_state.md R12). -/
def State.high (s : State) (r : DReg) : Register := (s.double r).take s.params.width.bytes

/-- `DnL`: bytes W to 2W-1 (10_state.md R12). -/
def State.low (s : State) (r : DReg) : Register := (s.double r).drop s.params.width.bytes

/-- A write through the high half view; the low half stays (10_state.md R12). -/
def State.setHigh (s : State) (r : DReg) (v : Register) : State := s.setDouble r (v ++ s.low r)

/-- A write through the low half view; the high half stays (10_state.md R12). -/
def State.setLow (s : State) (r : DReg) (v : Register) : State := s.setDouble r (s.high r ++ v)

/-! ### Width rules (60_exceptions.md R228) -/

/-- COPY needs two registers of one width (41_register_ops.md R113). -/
def requireSameWidth (s : State) (rd rs : Reg) : Except Cause Unit :=
  if s.widthOf rd = s.widthOf rs then .ok () else .error .widthMismatch

/-- ADD and SUB need a source no wider than the destination (41_register_ops.md R118, R119). -/
def requireNotWider (s : State) (rd rs : Reg) : Except Cause Unit :=
  if s.widthOf rs > s.widthOf rd then .error .widthMismatch else .ok ()

/-! ### The operand of ADDH and SUBH -/

/-- A single-width register as it is; of a double-width one the low half, unless its high half is non-zero and `trunc` was
not given (41_register_ops.md R120, 60_exceptions.md R229). -/
def highOperand (s : State) (rs : Reg) (trunc : Bool) : Except Cause Register :=
  match rs with
  | .single r => .ok (s.single r)
  | .double r =>
    if unsigned (s.high r) ≠ 0 ∧ trunc = false then .error .highOverflow else .ok (s.low r)

/-! ### Bits of a register -/

/-- The byte index of BTST, BSET and BCLR, which must be below the register's width (41_register_ops.md R126). -/
def requireByte (s : State) (rd : Reg) (bi : Nat) : Except Cause Unit :=
  if bi ≥ s.widthOf rd then .error .operandRange else .ok ()

/-- `x[r].byte[i]`, `byte[0]` the most significant (00_scope.md R5). -/
def byteAt (v : Register) (i : Nat) : Byte := v.getD i 0#8

/-- `x[rd].byte[bi] <- bput(x[rd].byte[bi], k, b)` with both index checks (41_register_ops.md R127, R128). -/
def putBit (s : State) (rd : Reg) (bi k : Nat) (b : Bool) : Except Cause State := do
  requireByte s rd bi
  let r ← bput (byteAt (s.reg rd) bi) k b
  .ok (s.setReg rd ((s.reg rd).set bi r))

/-! ### Operands of the long operations -/

/-- A single-width operand as an N-bit vector, read in full before anything is written (42_multiply.md R150). -/
def State.operand (s : State) (r : SReg) : BitVec (8 * s.params.width.bytes) := toVec _ (s.single r)

/-- A double-width operand as a 2N-bit vector (43_divide.md R180). -/
def State.operand2 (s : State) (r : DReg) :
    BitVec (8 * s.params.width.bytes + 8 * s.params.width.bytes) := toVec _ (s.double r)

/-! ### Mantissa (44_mantissa.md R200) -/

/-- The format's digit count, `ceil(bitsUsed / digitWidth)` (44_mantissa.md R200). -/
def digitCount (bu dw : Nat) : Nat := (bu + dw - 1) / dw

/-- The most significant digit, bits N-1 to N-dw, is zero (44_mantissa.md R200). -/
def topDigitZero (n dw : Nat) (v : Register) : Bool := unsigned v / 2 ^ (n - dw) == 0

end Sys2Proof.Machine
end

