-- ==== Sys2Proof/Machine/Arith.lean ====
section
/-! DEFINITION. Add, subtract, negate, complement: ADD, SUB, ADDH, SUBH, NEG, NOT (41_register_ops.md R118 to R121, R124,
R125). -/

namespace Sys2Proof.Machine

open Sys2Proof

/-- ADD and SUB (R118, R119): the carry chain of `op` over the whole registers. -/
def addSub (op : Byte → Byte → Bool → Bool × Byte) (rd rs : Reg) (s : State) : Except Cause State := do
  requireNotWider s rd rs
  let r := performBinOp s.params.ext op (s.reg rd) (s.reg rs)
  .ok ((s.setReg rd r.2).setCarry r.1)

/-- ADDH and SUBH (R120, R121): the carry chain of `op` over the high half, whose carry goes to `C` only. -/
def addSubHigh (op : Byte → Byte → Bool → Bool × Byte) (rd : DReg) (rs : Reg) (trunc : Bool) (s : State) :
    Except Cause State := do
  let o ← highOperand s rs trunc
  let r := performBinOp s.params.ext op (s.high rd) o
  .ok ((s.setHigh rd r.2).setCarry r.1)

/-- ADD (R118). -/
def execAdd (rd rs : Reg) (s : State) : Host.Outcome State Fault Refusal :=
  runCommand (encodeWord (.add rd rs)) s (addSub badd rd rs s)

/-- SUB (R119): `C` is the borrow. -/
def execSub (rd rs : Reg) (s : State) : Host.Outcome State Fault Refusal :=
  runCommand (encodeWord (.sub rd rs)) s (addSub bsub rd rs s)

/-- ADDH (R120). -/
def execAddh (rd : DReg) (rs : Reg) (trunc : Bool) (s : State) : Host.Outcome State Fault Refusal :=
  runCommand (encodeWord (.addh rd rs trunc)) s (addSubHigh badd rd rs trunc s)

/-- SUBH (R121). -/
def execSubh (rd : DReg) (rs : Reg) (trunc : Bool) (s : State) : Host.Outcome State Fault Refusal :=
  runCommand (encodeWord (.subh rd rs trunc)) s (addSubHigh bsub rd rs trunc s)

/-- NEG (R124): bitwise NOT, then plus 1; the carry is discarded. -/
def execNeg (rd : Reg) (s : State) : Host.Outcome State Fault Refusal :=
  runCommand (encodeWord (.neg rd)) s
    (.ok (s.setReg rd
      (performBinOp s.params.ext badd ((s.reg rd).map bnot) (toBytes (s.widthOf rd) 1)).2))

/-- NOT (R125). -/
def execNot (rd : Reg) (s : State) : Host.Outcome State Fault Refusal :=
  runCommand (encodeWord (.not rd)) s (.ok (s.setReg rd ((s.reg rd).map bnot)))

end Sys2Proof.Machine
end

