-- ==== Sys2Proof/Machine/Work.lean ====
section
/-! DEFINITION. The transient double-width working register of multiplication and division (10_state.md R25, 42_multiply.md
R150, R151), its snapshots for TRACE, and the loop that all four algorithms run. `w` is the number of bytes of a
single-width register, `n = 8·w` its bits. -/

namespace Sys2Proof.Machine

open Sys2Proof

/-- The working register `(H, L)`, high half and low half (42_multiply.md R150). -/
structure Work (n : Nat) where
  H : BitVec n
  L : BitVec n
  deriving DecidableEq, Repr

/-- The 2n-bit vector `(H, L)`. -/
def Work.vec {n : Nat} (k : Work n) : BitVec (n + n) := k.H ++ k.L

/-- A snapshot of a 2n-bit vector as register content (10_state.md R24). -/
def snap2 {w : Nat} (v : BitVec (8 * w + 8 * w)) : Register := toBytes (2 * w) v.toNat

/-- A snapshot of an n-bit vector as register content (10_state.md R24). -/
def snap1 {w : Nat} (v : BitVec (8 * w)) : Register := toBytes w v.toNat

/-- `shr1(fill)` (42_multiply.md R151): the working register one bit right, `fill` entering at the top. -/
def Work.shr1 {n : Nat} (fill : Bool) (k : Work n) : Work n :=
  let v := BitVec.cons fill k.vec
  { H := v.extractLsb' (n + 1) n, L := v.extractLsb' 1 n }

/-- A bounded loop of `steps` steps from index `i`, one TRACE record per step (42_multiply.md R157, 43_divide.md R190). -/
def runSteps {σ : Type} (step : Nat → σ → σ × StepRecord) : (steps i : Nat) → σ → σ × List StepRecord
  | 0, _, k => (k, [])
  | steps + 1, i, k =>
    let r := step i k
    let q := runSteps step steps (i + 1) r.1
    (q.1, r.2 :: q.2)

end Sys2Proof.Machine
end

