-- ==== Sys2Proof/Machine/Divide.lean ====
section
/-! DEFINITION. Division: DIV (43_divide.md R180 to R187). -/

namespace Sys2Proof.Machine

open Sys2Proof

/-- The cursor of the division (43_divide.md R181): `h` is the exact signed integer held in the extension bit and the high
half, `L` the low half. -/
structure Cursor (n : Nat) where
  h : Int
  L : BitVec n
  deriving DecidableEq, Repr

/-- The sign bit of an exact integer; the sign of zero is 0 (00_scope.md R6, 43_divide.md R181). -/
def signOf (x : Int) : Bool := decide (x < 0)

/-- The cursor as a TRACE record shows it: `h mod 2^N`, then `L` (R182). -/
def Cursor.snap {w : Nat} (k : Cursor (8 * w)) : Register :=
  snap2 ({ H := BitVec.ofInt (8 * w) k.h, L := k.L } : Work (8 * w)).vec

/-- The seed of the cursor: the dividend, or the dividend plus the sign-extended divider where their signs differ (R181). -/
def divSeed {n : Nat} (A : BitVec (n + n)) (D : BitVec n) : Cursor n :=
  let cur := if A.msb != D.msb then A + D.signExtend (n + n) else A
  { h := (cur.extractLsb' n n).toInt, L := cur.extractLsb' 0 n }

/-- A one-bit left shift of the whole cursor (R182, R184). -/
def Cursor.shift {n : Nat} (k : Cursor n) : Cursor n :=
  { h := 2 * k.h + k.L.msb.toNat, L := k.L <<< 1 }

/-- Subtracting (`sub`) or adding the divider at the high half (R182, R184, R185). -/
def Cursor.apply {n : Nat} (sub : Bool) (d : Int) (k : Cursor n) : Cursor n :=
  { k with h := if sub then k.h - d else k.h + d }

/-- Writing a quotient bit into the vacated bit 0 of the low half (R182, R184). -/
def Cursor.putBit {n : Nat} (q : Bool) (k : Cursor n) : Cursor n :=
  { k with L := k.L ||| (BitVec.ofBool q).setWidth n }

/-- The action a record names for a subtraction or an addition of the divider. -/
def divAction (sub : Bool) : StepAction := if sub then .sub else .add

/-- The trial step with its validity check (R182, R183). -/
def divTrial {w : Nat} (A : BitVec (8 * w + 8 * w)) (D : BitVec (8 * w)) :
    Except Cause (Cursor (8 * w) × StepRecord) :=
  let sa := A.msb
  let sd := D.msb
  let applied := ((divSeed A D).shift).apply (sa == sd) D.toInt
  let e := signOf applied.h
  if e = sa then .error .divInvalid
  else
    let q := e == sd
    let next := applied.putBit q
    .ok (next,
      { alg := .div, kind := .trial, idx := 0, preadd := some (sa != sd), action := divAction (sa == sd)
        operand := some (snap1 D), qbit := some q, ext := some e, after := next.snap })

/-- One iteration of the loop (R184). -/
def divStep {w : Nat} (D : BitVec (8 * w)) (i : Nat) (k : Cursor (8 * w)) : Cursor (8 * w) × StepRecord :=
  let sub := signOf k.h == D.msb
  let applied := k.shift.apply sub D.toInt
  let e := signOf applied.h
  let q := e == D.msb
  let next := applied.putBit q
  (next,
    { alg := .div, kind := .iter, idx := i, action := divAction sub, operand := some (snap1 D)
      qbit := some q, ext := some e, after := next.snap })

/-- The restoring correction (R185). -/
def divCorrect {w : Nat} (sa : Bool) (D : BitVec (8 * w)) (k : Cursor (8 * w)) : Cursor (8 * w) × List StepRecord :=
  if signOf k.h ≠ sa then
    let sub := signOf k.h == D.msb
    let next := k.apply sub D.toInt
    (next,
      [{ alg := .div, kind := .correction, idx := 8 * w, action := divAction sub, operand := some (snap1 D)
         after := next.snap }])
  else (k, [])

/-- Quotient and remainder as exact integers, and whether the fix-up stage has changed them (R186). -/
structure QuoRem where
  q : Int
  r : Int
  fired : Bool
  deriving DecidableEq, Repr

/-- The first repair of the fix-up stage: a non-zero remainder whose sign is not the dividend's (R186). -/
def fixupSign (a d : Int) (v : QuoRem) : QuoRem :=
  if v.r ≠ 0 ∧ signOf v.r ≠ signOf a then
    if signOf v.r = signOf d then { q := v.q + 1, r := v.r - d, fired := true }
    else { q := v.q - 1, r := v.r + d, fired := true }
  else v

/-- The second repair of the fix-up stage: a remainder of the divider's magnitude (R186). -/
def fixupWhole (d : Int) (v : QuoRem) : QuoRem :=
  if v.r = d then { q := v.q + 1, r := 0, fired := true }
  else if v.r = -d then { q := v.q - 1, r := 0, fired := true }
  else v

/-- The fix-up stage with its internal check, for quotients of `n` bits (R186). -/
def divFixup (n : Nat) (a d : Int) (v : QuoRem) : Except Cause QuoRem :=
  let u := fixupWhole d (fixupSign a d v)
  if u.q < -(2 ^ (n - 1)) ∨ u.q > 2 ^ (n - 1) - 1 then .error .internalCheck else .ok u

/-- The record of a fix-up that changed the result (R186). -/
def fixupRecord {w : Nat} (D : BitVec (8 * w)) (u : QuoRem) : List StepRecord :=
  if u.fired then
    [{ alg := .div, kind := .fixup, idx := 8 * w + 1, action := .none, operand := some (snap1 D)
       after := snap2 ({ H := BitVec.ofInt (8 * w) u.r, L := BitVec.ofInt (8 * w) u.q } : Work (8 * w)).vec }]
  else []

/-- DIV on the dividend `A` and the divider `D`: quotient, remainder and records, or the fault (R180 to R186). -/
def divRun {w : Nat} (fixup : Bool) (A : BitVec (8 * w + 8 * w)) (D : BitVec (8 * w)) :
    Except Cause (QuoRem × List StepRecord) :=
  if D.toInt = 0 then .error .divZero
  else do
    let trial ← divTrial A D
    let loop := runSteps (divStep D) (8 * w - 1) 1 trial.1
    let last := divCorrect A.msb D loop.1
    let recs := trial.2 :: loop.2 ++ last.2
    let v : QuoRem := { q := last.1.L.toInt, r := last.1.h, fired := false }
    if fixup then
      let u ← divFixup (8 * w) A.toInt D.toInt v
      .ok (u, recs ++ fixupRecord D u)
    else .ok (v, recs)

/-- Write-back (R187): quotient and remainder as N-bit two's complement, and the records become visible. -/
def finishDiv (s : State) (rd rem : SReg) (u : QuoRem × List StepRecord) : State :=
  ((s.setSingle rd (snap1 (BitVec.ofInt (8 * s.params.width.bytes) u.1.q))).setSingle rem
    (snap1 (BitVec.ofInt (8 * s.params.width.bytes) u.1.r))).record u.2

/-- DIV (R180). Equal destinations are no command (60_exceptions.md R227 item 5). -/
def execDiv (rd : SReg) (rs : DReg) (rt rem : SReg) (s : State) : Host.Outcome State Fault Refusal :=
  runCommand (encodeWord (.div rd rs rt rem)) s
    (if rd = rem then .error .illegalCommand
     else (divRun s.params.divFixup (s.operand2 rs) (s.operand rt)).map (finishDiv s rd rem))

end Sys2Proof.Machine
end

