-- ==== Sys2Proof/Machine/Mantissa.lean ====
section
/-! DEFINITION. The mantissa commands: SETFMT, NORM, UNHIDE, HIDE (44_mantissa.md R200 to R204). -/

namespace Sys2Proof.Machine

open Sys2Proof

/-- SETFMT (R201): a format outside `1 ≤ dw ≤ bu ≤ N` raises `OperandRange`. -/
def execSetfmt (h : Bool) (bu : BitVec 6) (dw : BitVec 4) (s : State) : Host.Outcome State Fault Refusal :=
  runCommand (encodeWord (.setfmt h bu dw)) s
    (if 1 ≤ dw.toNat ∧ dw.toNat ≤ bu.toNat ∧ bu.toNat ≤ s.nBits then .ok (s.setMfmt h bu dw)
     else .error .operandRange)

/-- The loop of NORM (R202), `left` digit shifts being allowed still: the count and the content. -/
def normLoop (n dw : Nat) : (left cnt : Nat) → (v : Register) → Nat × Register
  | 0, cnt, v => (cnt, v)
  | left + 1, cnt, v =>
    if topDigitZero n dw v then normLoop n dw left (cnt + 1) (shiftLeftBy false dw false v).2 else (cnt, v)

/-- NORM (R202). -/
def execNorm (rd : SReg) (s : State) : Host.Outcome State Fault Refusal :=
  let r := normLoop s.nBits s.digitWidth (digitCount s.bitsUsed s.digitWidth) 0 (s.single rd)
  runCommand (encodeWord (.norm rd)) s (.ok ((s.setSingle rd r.2).setCnt r.1))

/-- UNHIDE (R203): under a hidden-one format the leading 1 enters at the top. -/
def execUnhide (rd : SReg) (s : State) : Host.Outcome State Fault Refusal :=
  let r := shiftRight1 true (s.single rd)
  runCommand (encodeWord (.unhide rd)) s
    (.ok (if s.hiddenOne then (s.setSingle rd r.2).setCarry r.1 else s))

/-- HIDE (R204): under a hidden-one format the leading bit leaves. -/
def execHide (rd : SReg) (s : State) : Host.Outcome State Fault Refusal :=
  let r := shiftLeft1 false (s.single rd)
  runCommand (encodeWord (.hide rd)) s
    (.ok (if s.hiddenOne then (s.setSingle rd r.2).setCarry r.1 else s))

end Sys2Proof.Machine
end

