-- ==== Sys2Proof/Machine/Move.lean ====
section
/-! DEFINITION. Moving data: SET, GET, COPY, GETH, GETL, PUTH, PUTL (41_register_ops.md R111 to R117). -/

namespace Sys2Proof.Machine

open Sys2Proof

/-- SET (R111). A payload of another length than `width(rd)` is no command (60_exceptions.md R227 item 6). -/
def execSet (rd : Reg) (lit : List Byte) (s : State) : Host.Outcome State Fault Refusal :=
  runCommand (encodeWord (.set rd lit)) s
    (if lit.length = s.widthOf rd then .ok (s.setReg rd lit) else .error .illegalCommand)

/-- GET (R112): the bytes of the register, `byte[0]` first. -/
def execGet (rd : Reg) (s : State) : Host.Outcome State Fault Refusal :=
  runCommand (encodeWord (.get rd)) s (.ok (s.emit (s.reg rd)))

/-- COPY (R113). -/
def execCopy (rd rs : Reg) (s : State) : Host.Outcome State Fault Refusal :=
  runCommand (encodeWord (.copy rd rs)) s do
    requireSameWidth s rd rs
    .ok (s.setReg rd (s.reg rs))

/-- GETH (R114). -/
def execGeth (rd : SReg) (rs : DReg) (s : State) : Host.Outcome State Fault Refusal :=
  runCommand (encodeWord (.geth rd rs)) s (.ok (s.setSingle rd (s.high rs)))

/-- GETL (R115). -/
def execGetl (rd : SReg) (rs : DReg) (s : State) : Host.Outcome State Fault Refusal :=
  runCommand (encodeWord (.getl rd rs)) s (.ok (s.setSingle rd (s.low rs)))

/-- PUTH (R116). -/
def execPuth (rd : DReg) (rs : SReg) (s : State) : Host.Outcome State Fault Refusal :=
  runCommand (encodeWord (.puth rd rs)) s (.ok (s.setHigh rd (s.single rs)))

/-- PUTL (R117). -/
def execPutl (rd : DReg) (rs : SReg) (s : State) : Host.Outcome State Fault Refusal :=
  runCommand (encodeWord (.putl rd rs)) s (.ok (s.setLow rd (s.single rs)))

end Sys2Proof.Machine
end

