-- ==== Sys2Proof/Machine/Multiply.lean ====
section
/-! DEFINITION. Multiplication: MULC, MULB, MULF (42_multiply.md R150 to R154). -/

namespace Sys2Proof.Machine

open Sys2Proof

/-! ### MULC: shift/add with correction (R152) -/

/-- One iteration of MULC. -/
def mulcStep {w : Nat} (a : BitVec (8 * w)) (i : Nat) (k : Work (8 * w)) : Work (8 * w) × StepRecord :=
  let adds := k.L.getLsbD 0
  let before : Work (8 * w) := { k with H := if adds then k.H + a else k.H }
  let fill := if adds then a.msb else k.H.msb
  let next := before.shr1 fill
  (next,
    { alg := .mulc, kind := .iter, idx := i
      action := if adds then .add else .none
      operand := if adds then some (snap1 a) else none
      before := some (snap2 before.vec), fill := some fill, after := snap2 next.vec })

/-- The correction for a negative multiplier: the two's complement of the multiplicand added into the high half. -/
def mulcCorrect {w : Nat} (a b : BitVec (8 * w)) (k : Work (8 * w)) : Work (8 * w) × List StepRecord :=
  if b.msb then
    let next : Work (8 * w) := { k with H := k.H + -a }
    (next,
      [{ alg := .mulc, kind := .correction, idx := 8 * w + 1, action := .add
         operand := some (snap1 (-a)), after := snap2 next.vec }])
  else (k, [])

/-- MULC on the operands `a` and `b`: the final working register and the records (R152). -/
def mulcRun {w : Nat} (a b : BitVec (8 * w)) : Work (8 * w) × List StepRecord :=
  let loop := runSteps (mulcStep a) (8 * w) 1 { H := 0, L := b }
  let last := mulcCorrect a b loop.1
  (last.1, loop.2 ++ last.2)

/-! ### MULB: Booth radix 2 (R153) -/

/-- The loop state of MULB: the working register and the previous multiplier bit. -/
structure BoothState (n : Nat) where
  work : Work n
  prev : Bool
  deriving DecidableEq, Repr

/-- One iteration of MULB; the fill is the sign of the exact sum. -/
def mulbStep {w : Nat} (a : BitVec (8 * w)) (i : Nat) (k : BoothState (8 * w)) : BoothState (8 * w) × StepRecord :=
  let cur := k.work.L.getLsbD 0
  let t : Int :=
    if !k.prev && cur then k.work.H.toInt - a.toInt
    else if k.prev && !cur then k.work.H.toInt + a.toInt
    else k.work.H.toInt
  let before : Work (8 * w) := { k.work with H := BitVec.ofInt (8 * w) t }
  let fill := decide (t < 0)
  let next := before.shr1 fill
  ({ work := next, prev := cur },
    { alg := .mulb, kind := .iter, idx := i
      action := if !k.prev && cur then .sub else if k.prev && !cur then .add else .none
      operand := if k.prev != cur then some (snap1 a) else none
      before := some (snap2 before.vec), fill := some fill, prev := some k.prev, cur := some cur
      after := snap2 next.vec })

/-- MULB on the operands `a` and `b` (R153). -/
def mulbRun {w : Nat} (a b : BitVec (8 * w)) : Work (8 * w) × List StepRecord :=
  let loop := runSteps (mulbStep a) (8 * w) 1 { work := { H := 0, L := b }, prev := false }
  (loop.1.work, loop.2)

/-! ### MULF: Booth radix 4 (R154) -/

/-- The loop state of MULF: the working register and the correction bit. -/
structure FastState (n : Nat) where
  work : Work n
  corr : Bool
  deriving DecidableEq, Repr

/-- The correction bit that follows a code (R154). -/
def fastCorr (code : Nat) (cin : Bool) : Bool := code == 3 || (code == 0 && cin)

/-- The multiple of the multiplicand that a code adds (R154). -/
def fastDigit (code : Nat) : Int :=
  match code with
  | 0 => 0
  | 1 => 1
  | 2 => 2
  | _ => -1

/-- The action that a code names (R154). -/
def fastAction (code : Nat) : StepAction :=
  match code with
  | 0 => .none
  | 1 => .add
  | 2 => .add2
  | _ => .sub

/-- One iteration of MULF: the exact sum, then a 2-bit arithmetic right shift of it with the low half. -/
def mulfStep {w : Nat} (a : BitVec (8 * w)) (i : Nat) (k : FastState (8 * w)) : FastState (8 * w) × StepRecord :=
  let code := ((k.work.L.extractLsb' 0 2).toNat + k.corr.toNat) % 4
  let cout := fastCorr code k.corr
  let t : Int := k.work.H.toInt + fastDigit code * a.toInt
  let p : BitVec (8 * w + 8 * w) := BitVec.ofInt _ ((t * 2 ^ (8 * w) + k.work.L.toNat) / 4)
  let next : Work (8 * w) := { H := p.extractLsb' (8 * w) (8 * w), L := p.extractLsb' 0 (8 * w) }
  ({ work := next, corr := cout },
    { alg := .mulf, kind := .iter, idx := i, action := fastAction code
      operand := if code = 0 then none else some (snap1 a)
      corrIn := some k.corr, code := some (BitVec.ofNat 2 code), corrOut := some cout
      after := snap2 next.vec })

/-- The step after the loop: the digit that the sign extension of the multiplier would give (R154). -/
def mulfCorrect {w : Nat} (a b : BitVec (8 * w)) (k : FastState (8 * w)) : Work (8 * w) × List StepRecord :=
  let code := (3 * b.msb.toNat + k.corr.toNat) % 4
  if code = 1 then
    let next : Work (8 * w) := { k.work with H := k.work.H + a }
    (next,
      [{ alg := .mulf, kind := .correction, idx := 8 * w / 2 + 1, corrIn := some k.corr, code := some 1#2
         corrOut := some false, action := .add, operand := some (snap1 a), after := snap2 next.vec }])
  else if code = 3 then
    let next : Work (8 * w) := { k.work with H := k.work.H - a }
    (next,
      [{ alg := .mulf, kind := .correction, idx := 8 * w / 2 + 1, corrIn := some k.corr, code := some 3#2
         corrOut := some true, action := .sub, operand := some (snap1 a), after := snap2 next.vec }])
  else (k.work, [])

/-- MULF on the operands `a` and `b` (R154). -/
def mulfRun {w : Nat} (a b : BitVec (8 * w)) : Work (8 * w) × List StepRecord :=
  let loop := runSteps (mulfStep a) (8 * w / 2) 1 { work := { H := 0, L := b }, corr := false }
  let last := mulfCorrect a b loop.1
  (last.1, loop.2 ++ last.2)

/-! ### The commands (R150) -/

/-- `x[rd] <- (H, L)`, and the records become visible (R150). -/
def finishMul (s : State) (rd : DReg) (r : Work (8 * s.params.width.bytes) × List StepRecord) : State :=
  (s.setDouble rd (snap2 r.1.vec)).record r.2

/-- MULC (R152). -/
def execMulc (rd : DReg) (rs rt : SReg) (s : State) : Host.Outcome State Fault Refusal :=
  runCommand (encodeWord (.mulc rd rs rt)) s (.ok (finishMul s rd (mulcRun (s.operand rs) (s.operand rt))))

/-- MULB (R153). -/
def execMulb (rd : DReg) (rs rt : SReg) (s : State) : Host.Outcome State Fault Refusal :=
  runCommand (encodeWord (.mulb rd rs rt)) s (.ok (finishMul s rd (mulbRun (s.operand rs) (s.operand rt))))

/-- MULF (R154). -/
def execMulf (rd : DReg) (rs rt : SReg) (s : State) : Host.Outcome State Fault Refusal :=
  runCommand (encodeWord (.mulf rd rs rt)) s (.ok (finishMul s rd (mulfRun (s.operand rs) (s.operand rt))))

end Sys2Proof.Machine
end

