-- ==== Sys2Proof/Machine/Shift.lean ====
section
/-! DEFINITION. Shifts and bit access: SHL, SHR, BTST, BSET, BCLR (41_register_ops.md R122, R123, R126 to R128). -/

namespace Sys2Proof.Machine

open Sys2Proof

/-- SHL (R122). -/
def execShl (rd : Reg) (fill : Bool) (amt : BitVec 6) (s : State) : Host.Outcome State Fault Refusal :=
  let r := shiftLeftBy fill amt.toNat s.c (s.reg rd)
  runCommand (encodeWord (.shl rd fill amt)) s (.ok ((s.setReg rd r.2).setCarry r.1))

/-- SHR (R123). -/
def execShr (rd : Reg) (fill : ShrFill) (amt : BitVec 6) (s : State) : Host.Outcome State Fault Refusal :=
  let r := shiftRightBy fill amt.toNat s.c (s.reg rd)
  runCommand (encodeWord (.shr rd fill amt)) s (.ok ((s.setReg rd r.2).setCarry r.1))

/-- BTST (R126): the bit goes to `C`. -/
def execBtst (rd : Reg) (bi k : BitVec 4) (s : State) : Host.Outcome State Fault Refusal :=
  runCommand (encodeWord (.btst rd bi k)) s do
    requireByte s rd bi.toNat
    let b ← bget (byteAt (s.reg rd) bi.toNat) k.toNat
    .ok (s.setCarry b)

/-- BSET (R127). -/
def execBset (rd : Reg) (bi k : BitVec 4) (s : State) : Host.Outcome State Fault Refusal :=
  runCommand (encodeWord (.bset rd bi k)) s (putBit s rd bi.toNat k.toNat true)

/-- BCLR (R128). -/
def execBclr (rd : Reg) (bi k : BitVec 4) (s : State) : Host.Outcome State Fault Refusal :=
  runCommand (encodeWord (.bclr rd bi k)) s (putBit s rd bi.toNat k.toNat false)

end Sys2Proof.Machine
end

