-- ==== Sys2Proof/Machine/System.lean ====
section
/-! DEFINITION. Reading the control registers: GETS (45_system.md R215). -/

namespace Sys2Proof.Machine

open Sys2Proof

/-- GETS (R215): the only command that executes in the fault state too (60_exceptions.md R236). -/
def execGets (sel : Selector) (s : State) : Host.Outcome State Fault Refusal := .next (s.emit (s.control sel))

end Sys2Proof.Machine
end

