-- ==== Sys2Proof/Machine/Dispatch.lean ====
section
/-! DEFINITION. The dispatch: one arm per constructor of `Instr`, in the order of spec/opcode_table.json. -/

namespace Sys2Proof.Machine

open Sys2Proof

def exec (i : Instr) (s : State) : Host.Outcome State Fault Refusal :=
  match i with
  | .set rd lit => Sys2Proof.Machine.execSet rd lit s
  | .get rd => Sys2Proof.Machine.execGet rd s
  | .copy rd rs => Sys2Proof.Machine.execCopy rd rs s
  | .geth rd rs => Sys2Proof.Machine.execGeth rd rs s
  | .getl rd rs => Sys2Proof.Machine.execGetl rd rs s
  | .puth rd rs => Sys2Proof.Machine.execPuth rd rs s
  | .putl rd rs => Sys2Proof.Machine.execPutl rd rs s
  | .add rd rs => Sys2Proof.Machine.execAdd rd rs s
  | .sub rd rs => Sys2Proof.Machine.execSub rd rs s
  | .addh rd rs trunc => Sys2Proof.Machine.execAddh rd rs trunc s
  | .subh rd rs trunc => Sys2Proof.Machine.execSubh rd rs trunc s
  | .shl rd fill amt => Sys2Proof.Machine.execShl rd fill amt s
  | .shr rd fill amt => Sys2Proof.Machine.execShr rd fill amt s
  | .neg rd => Sys2Proof.Machine.execNeg rd s
  | .not rd => Sys2Proof.Machine.execNot rd s
  | .btst rd bi k => Sys2Proof.Machine.execBtst rd bi k s
  | .bset rd bi k => Sys2Proof.Machine.execBset rd bi k s
  | .bclr rd bi k => Sys2Proof.Machine.execBclr rd bi k s
  | .mulc rd rs rt => Sys2Proof.Machine.execMulc rd rs rt s
  | .mulb rd rs rt => Sys2Proof.Machine.execMulb rd rs rt s
  | .mulf rd rs rt => Sys2Proof.Machine.execMulf rd rs rt s
  | .div rd rs rt rem => Sys2Proof.Machine.execDiv rd rs rt rem s
  | .setfmt h bu dw => Sys2Proof.Machine.execSetfmt h bu dw s
  | .norm rd => Sys2Proof.Machine.execNorm rd s
  | .unhide rd => Sys2Proof.Machine.execUnhide rd s
  | .hide rd => Sys2Proof.Machine.execHide rd s
  | .gets sel => Sys2Proof.Machine.execGets sel s

end Sys2Proof.Machine
end

