-- ==== Sys2Proof/Machine/Step.lean ====
section
/-! DEFINITION. One step of the machine: what the host presents next is taken and carried out (00_scope.md R8). -/

namespace Sys2Proof.Machine

open Sys2Proof

/-- One command, taken from the port: decoded and executed, or rejected (41_register_ops.md R110). -/
def stepCommand (c : Command) (s : State) : Host.Outcome State Fault Refusal :=
  match decode s.params.width c with
  | .ok i => exec i s
  | .error _ => rejectCommand c.word s

/-- One step (00_scope.md R8, 20_memory.md R52). With nothing presented the block is idle and holds its state
(60_exceptions.md R245). -/
def step (s : State) : Host.Outcome State Fault Refusal :=
  match fetch s with
  | none => .next s
  | some (.reset, s') => .next (applyReset s')
  | some (.command c, s') => stepCommand c s'

/-- `s` with the host presenting, next, the command whose bits are `w` in the opcode table's numbering (assumption log 2:
a program comes to run because the host presents it). -/
def State.withFetchWord (s : State) (nbits w : Nat) : State :=
  present (.command (tableCommand s.params.width nbits w)) s

end Sys2Proof.Machine
end

