-- ==== Sys2Proof/Safety.lean ====
section
/-! DEFINITION. What claims about DMC-AU are stated in: the invariant that every command boundary satisfies, the tables of
the spec about whole commands (which registers, faults and logs a command can touch), and the closed forms of the rules. -/

namespace Sys2Proof.Machine

open Sys2Proof

/-! ### The invariant of a command boundary -/

/-- Every register has its width: W bytes for S0 to S3, 2W for D0 and D1 (10_state.md R11 to R13). -/
abbrev State.RegsSized (s : State) : Prop :=
  s.s0.length = s.params.width.bytes ∧ s.s1.length = s.params.width.bytes ∧
  s.s2.length = s.params.width.bytes ∧ s.s3.length = s.params.width.bytes ∧
  s.d0.length = 2 * s.params.width.bytes ∧ s.d1.length = 2 * s.params.width.bytes

/-- `MFMT` holds a legal format and its bits 15:11 are 0 (10_state.md R20). -/
abbrev State.FormatLegal (s : State) : Prop :=
  s.mfmt.extractLsb' 11 5 = 0#5 ∧ 1 ≤ s.digitWidth ∧ s.digitWidth ≤ s.bitsUsed ∧ s.bitsUsed ≤ s.nBits

/-- `CNT` is in its range 0 to 63 (10_state.md R19). -/
abbrev State.CountInRange (s : State) : Prop := s.cnt.toNat ≤ 63

/-- `CAUSE` and `FCMD` are 0 while `F = 0`, and `CAUSE` is one of the codes 1 to 7 while `F = 1` (10_state.md R18, R21). -/
abbrev State.FaultRecord (s : State) : Prop :=
  (s.f = false → s.cause = 0#8 ∧ s.fcmd = 0#16) ∧ (s.f = true → 1 ≤ s.cause.toNat ∧ s.cause.toNat ≤ 7)

/-- The invariant that every step keeps. -/
abbrev State.WF (s : State) : Prop := s.RegsSized ∧ s.FormatLegal ∧ s.CountInRange ∧ s.FaultRecord

/-- A step record has exactly the fields that 10_state.md R24 gives its algorithm and kind, each of its width. -/
def StepRecord.shaped (w : Width) (r : StepRecord) : Bool :=
  let isMul := r.alg == .mulc || r.alg == .mulb || r.alg == .mulf
  let shifts := (r.alg == .mulc || r.alg == .mulb) && r.kind == .iter
  let booth := r.alg == .mulb && r.kind == .iter
  let fast := r.alg == .mulf
  let divides := r.alg == .div && (r.kind == .trial || r.kind == .iter)
  (r.after.length == 2 * w.bytes) &&
  (r.operand.isSome == !(isMul && r.action == .none)) && r.operand.all (fun v => v.length == w.bytes) &&
  (r.before.isSome == shifts) && r.before.all (fun v => v.length == 2 * w.bytes) &&
  (r.fill.isSome == shifts) && (r.prev.isSome == booth) && (r.cur.isSome == booth) &&
  (r.corrIn.isSome == fast) && (r.code.isSome == fast) && (r.corrOut.isSome == fast) &&
  (r.preadd.isSome == (r.alg == .div && r.kind == .trial)) &&
  (r.qbit.isSome == divides) && (r.ext.isSome == divides)

/-- Every record of `TRACE` has the shape of 10_state.md R24. -/
abbrev State.TraceShaped (s : State) : Prop := ∀ r ∈ s.trace, StepRecord.shaped s.params.width r = true

/-! ### Tables about whole commands -/

/-- The registers a command names as destinations (70_reset_and_hazards.md R266). -/
def Instr.dests : Instr → List Reg
  | .set rd _ => [rd]
  | .get _ => []
  | .copy rd _ => [rd]
  | .geth rd _ => [.single rd]
  | .getl rd _ => [.single rd]
  | .puth rd _ => [.double rd]
  | .putl rd _ => [.double rd]
  | .add rd _ => [rd]
  | .sub rd _ => [rd]
  | .addh rd _ _ => [.double rd]
  | .subh rd _ _ => [.double rd]
  | .shl rd _ _ => [rd]
  | .shr rd _ _ => [rd]
  | .neg rd => [rd]
  | .not rd => [rd]
  | .btst _ _ _ => []
  | .bset rd _ _ => [rd]
  | .bclr rd _ _ => [rd]
  | .mulc rd _ _ => [.double rd]
  | .mulb rd _ _ => [.double rd]
  | .mulf rd _ _ => [.double rd]
  | .div rd _ _ rem => [.single rd, .single rem]
  | .setfmt _ _ _ => []
  | .norm rd => [.single rd]
  | .unhide rd => [.single rd]
  | .hide rd => [.single rd]
  | .gets _ => []

/-- The faults a command that decodes can raise, IllegalCommand aside (60_exceptions.md R234, the table). -/
def Instr.mayRaise : Instr → List Cause
  | .set _ _ => []
  | .get _ => []
  | .copy _ _ => [.widthMismatch]
  | .geth _ _ => []
  | .getl _ _ => []
  | .puth _ _ => []
  | .putl _ _ => []
  | .add _ _ => [.widthMismatch]
  | .sub _ _ => [.widthMismatch]
  | .addh _ _ _ => [.highOverflow]
  | .subh _ _ _ => [.highOverflow]
  | .shl _ _ _ => []
  | .shr _ _ _ => []
  | .neg _ => []
  | .not _ => []
  | .btst _ _ _ => [.operandRange]
  | .bset _ _ _ => [.operandRange]
  | .bclr _ _ _ => [.operandRange]
  | .mulc _ _ _ => []
  | .mulb _ _ _ => []
  | .mulf _ _ _ => []
  | .div _ _ _ _ => [.divZero, .divInvalid, .internalCheck]
  | .setfmt _ _ _ => [.operandRange]
  | .norm _ => []
  | .unhide _ => []
  | .hide _ => []
  | .gets _ => []

/-- GET and GETS, the commands that append to `DOUT` (10_state.md R23). -/
def Instr.emits : Instr → Bool
  | .get _ => true
  | .gets _ => true
  | _ => false

/-- MULC, MULB, MULF and DIV, the commands that append to `TRACE` (10_state.md R24). -/
def Instr.traces : Instr → Bool
  | .mulc _ _ _ => true
  | .mulb _ _ _ => true
  | .mulf _ _ _ => true
  | .div _ _ _ _ => true
  | _ => false

/-- NORM, the command that writes `CNT` (10_state.md R19). -/
def Instr.counts : Instr → Bool
  | .norm _ => true
  | _ => false

/-- SETFMT, the command that writes `MFMT` (10_state.md R20). -/
def Instr.setsFormat : Instr → Bool
  | .setfmt _ _ _ => true
  | _ => false

/-- A state after the host's next event has been taken off its list (10_state.md R15): `n` commands more are counted. -/
def State.taken (s : State) (rest : List HostEvent) (n : Nat) : State :=
  { s with pending := rest, index := s.index + n }

/-- The same hardware state with another `BSAR_VARIANT` (40_byte_primitives.md R95). -/
def State.withBsar (v : BsarVariant) (s : State) : State := { s with params := { s.params with bsar := v } }

/-! ### The opcode map as data (30_encoding.md R63, R73) -/

/-- What a register field of a format must name (30_encoding.md R62, R73); `unused` where the format has no such field. -/
inductive RegClass where
  | unused | either | single | double
  deriving DecidableEq, Repr

/-- The further constraints of the opcode map: `fm ≠ 11` of SHR, `sel ≤ 4` of GETS, `fn ≠ rd` of DIV (R63, R67). -/
inductive Further where
  | nothing | fmNot3 | selAtMost4 | fnNotRd
  deriving DecidableEq, Repr

/-- One row of the opcode map. -/
structure MapRow where
  matchBits : Word
  mask : Word
  rd : RegClass
  rs : RegClass
  rt : RegClass
  further : Further
  payload : Bool
  deriving DecidableEq, Repr

/-- The opcode map, rows in the order of R63: `match`, `mask`, the classes of R73, what else the row asks for, and whether
a payload of `width(rd)` bytes follows. -/
def opcodeMap : List MapRow :=
  [⟨0x0800#16, 0xF8FF#16, .either, .unused, .unused, .nothing, true⟩,
   ⟨0x1000#16, 0xF8FF#16, .either, .unused, .unused, .nothing, false⟩,
   ⟨0x1800#16, 0xF81F#16, .either, .either, .unused, .nothing, false⟩,
   ⟨0x2000#16, 0xF81F#16, .single, .double, .unused, .nothing, false⟩,
   ⟨0x2800#16, 0xF81F#16, .single, .double, .unused, .nothing, false⟩,
   ⟨0x3000#16, 0xF81F#16, .double, .single, .unused, .nothing, false⟩,
   ⟨0x3800#16, 0xF81F#16, .double, .single, .unused, .nothing, false⟩,
   ⟨0x4000#16, 0xF81F#16, .either, .either, .unused, .nothing, false⟩,
   ⟨0x4800#16, 0xF81F#16, .either, .either, .unused, .nothing, false⟩,
   ⟨0x5000#16, 0xF81E#16, .double, .either, .unused, .nothing, false⟩,
   ⟨0x5800#16, 0xF81E#16, .double, .either, .unused, .nothing, false⟩,
   ⟨0x6000#16, 0xF880#16, .either, .unused, .unused, .nothing, false⟩,
   ⟨0x6800#16, 0xF800#16, .either, .unused, .unused, .fmNot3, false⟩,
   ⟨0x7000#16, 0xF8FF#16, .either, .unused, .unused, .nothing, false⟩] ++
  [⟨0x7800#16, 0xF8FF#16, .either, .unused, .unused, .nothing, false⟩,
   ⟨0x8000#16, 0xF800#16, .either, .unused, .unused, .nothing, false⟩,
   ⟨0x8800#16, 0xF800#16, .either, .unused, .unused, .nothing, false⟩,
   ⟨0x9000#16, 0xF800#16, .either, .unused, .unused, .nothing, false⟩,
   ⟨0x9800#16, 0xF803#16, .double, .single, .single, .nothing, false⟩,
   ⟨0x9801#16, 0xF803#16, .double, .single, .single, .nothing, false⟩,
   ⟨0x9802#16, 0xF803#16, .double, .single, .single, .nothing, false⟩,
   ⟨0xA000#16, 0xF800#16, .single, .double, .single, .fnNotRd, false⟩,
   ⟨0xA800#16, 0xF800#16, .unused, .unused, .unused, .nothing, false⟩,
   ⟨0xB000#16, 0xF8FF#16, .single, .unused, .unused, .nothing, false⟩,
   ⟨0xB800#16, 0xF8FF#16, .single, .unused, .unused, .nothing, false⟩,
   ⟨0xC000#16, 0xF8FF#16, .single, .unused, .unused, .nothing, false⟩,
   ⟨0xC800#16, 0xFFF8#16, .unused, .unused, .unused, .selAtMost4, false⟩]

/-- The row of an instruction in `opcodeMap`. -/
def Instr.rowIndex : Instr → Nat
  | .set _ _ => 0
  | .get _ => 1
  | .copy _ _ => 2
  | .geth _ _ => 3
  | .getl _ _ => 4
  | .puth _ _ => 5
  | .putl _ _ => 6
  | .add _ _ => 7
  | .sub _ _ => 8
  | .addh _ _ _ => 9
  | .subh _ _ _ => 10
  | .shl _ _ _ => 11
  | .shr _ _ _ => 12
  | .neg _ => 13
  | .not _ => 14
  | .btst _ _ _ => 15
  | .bset _ _ _ => 16
  | .bclr _ _ _ => 17
  | .mulc _ _ _ => 18
  | .mulb _ _ _ => 19
  | .mulf _ _ _ => 20
  | .div _ _ _ _ => 21
  | .setfmt _ _ _ => 22
  | .norm _ => 23
  | .unhide _ => 24
  | .hide _ => 25
  | .gets _ => 26

/-- A specifier is of a class: 0 to 3 single-width, 4 and 5 double-width, 6 and 7 neither (30_encoding.md R62). -/
def RegClass.admits : RegClass → Nat → Bool
  | .unused, _ => true
  | .either, v => decide (v < 6)
  | .single, v => decide (v < 4)
  | .double, v => decide (4 ≤ v ∧ v < 6)

/-- The further constraint of a row, on the bits of a word. -/
def Further.holds (w : Nat) : Further → Bool
  | .nothing => true
  | .fmNot3 => w / 2 ^ 6 % 4 != 3
  | .selAtMost4 => decide (w % 8 ≤ 4)
  | .fnNotRd => w % 4 != w / 2 ^ 8 % 8

/-- How many payload bytes a row asks for: `width(rd)` for SET, none for any other (30_encoding.md R60). -/
def MapRow.payloadLength (wd : Width) (r : MapRow) (w : Nat) : Nat :=
  if r.payload then (if w / 2 ^ 8 % 8 < 4 then wd.bytes else 2 * wd.bytes) else 0

/-- A framed command is the row's command (30_encoding.md R63, R73, R60). -/
def MapRow.accepts (wd : Width) (c : Command) (r : MapRow) : Bool :=
  (c.word &&& r.mask == r.matchBits) && r.rd.admits (c.word.toNat / 2 ^ 8 % 8) &&
  r.rs.admits (c.word.toNat / 2 ^ 5 % 8) && r.rt.admits (c.word.toNat / 2 ^ 2 % 8) &&
  r.further.holds c.word.toNat && (c.payload.length == r.payloadLength wd c.word.toNat)

/-- A framed command is well formed: some row of the opcode map accepts it; otherwise it is malformed in one of the six ways
of 60_exceptions.md R227. -/
def isCommand (wd : Width) (c : Command) : Bool := opcodeMap.any (MapRow.accepts wd c)

/-! ### Closed forms -/

/-- A field of `n` bits placed at bit `lo` of a command word (30_encoding.md R61). -/
def placed {n : Nat} (v : BitVec n) (lo : Nat) : Word := v.setWidth 16 <<< lo

/-- The number n of bits of a register: `8 · width(r)`. -/
def State.bitsOf (s : State) (r : Reg) : Nat := 8 * s.widthOf r

/-- `unsigned(x[r])` (00_scope.md R6). -/
def State.value (s : State) (r : Reg) : Nat := unsigned (s.reg r)

/-- An integer reduced mod `2^(8w)` as register content of `w` bytes. -/
def intBytes (w : Nat) (v : Int) : Register := toBytes w (v % 2 ^ (8 * w)).toNat

/-- `unsigned(ext_n(v))` with `n = 8w` (00_scope.md R6): the value of `v` as an operand of `w` bytes. -/
def extValue (ext : Ext) (v : Register) (w : Nat) : Nat :=
  match ext with
  | .sign => (signed v % 2 ^ (8 * w)).toNat
  | .zero => unsigned v

/-- The bit of the whole register that byte `bi`, bit `k` of a register of `w` bytes is (41_register_ops.md R126). -/
def bitIndex (w bi k : Nat) : Nat := 8 * (w - 1 - bi) + k

/-- The commands DIV accepts in its trial step, in closed form (43_divide.md R183), with `K = 2^(N-1)`. -/
abbrev divAccepts (K a d : Int) : Prop :=
  (0 ≤ a ∧ 0 < d ∧ a < d * K) ∨ (0 ≤ a ∧ d < 0 ∧ a < -d * (K + 1)) ∨
  (a < 0 ∧ d < 0 ∧ a ≥ -(-d * K)) ∨ (a < 0 ∧ 0 < d ∧ a ≥ -(d * (K + 1)))

/-- The accepted operands whose true quotient is `+K` or `-K - 1` (43_divide.md R183, R186). -/
abbrev quotientOutside (K a d : Int) : Prop :=
  (d < 0 ∧ a = d * K) ∨ (0 < d ∧ a = -(d * (K + 1)))

end Sys2Proof.Machine
end

