-- ==== Sys2Proof/Certificates/Slice0/Obligations.lean ====
section
/-! DEFINITION. The statements about DMC-AU, for the provers. `W` below is the number of bytes of a single-width register
and `N = 8·W`; they are the state's own, so every statement holds at every width. Each next state is written out from the
state before, so that all it does not name is unchanged. -/

open Sys2Proof Sys2Proof.Machine

/-! ### Encoding -/

/-- 30_encoding.md sections 2 and 3: decoding the encoding of a well-formed instruction gives it back, with every operand
at every value its field admits. -/
def Obligations.DecodeOfEncodeIsTheInstruction : Prop :=
  ∀ (wd : Width) (i : Instr), i.wellFormed wd = true → decode wd (encode i) = .ok i

/-- 30_encoding.md sections 2 to 4: no bit of a command that decodes is dropped; its word and payload are those of the
instruction it decodes to, which is well formed. -/
def Obligations.EncodeOfDecodeIsTheCommand : Prop :=
  ∀ (wd : Width) (c : Command) (i : Instr), decode wd c = .ok i → encode i = c ∧ i.wellFormed wd = true

/-- 30_encoding.md R63, R73: a framed command decodes exactly where a row of the opcode map accepts it (match, mask, the
classes and further constraints, the payload), and it decodes to that row's instruction. -/
def Obligations.DecoderAcceptsExactlyTheOpcodeMap : Prop :=
  ∀ (wd : Width) (c : Command),
    ((∃ i, decode wd c = .ok i) ↔ isCommand wd c = true) ∧
    (∀ i, decode wd c = .ok i → (opcodeMap[Instr.rowIndex i]?).map (MapRow.accepts wd c) = some true)

/-- 30_encoding.md, 41_register_ops.md, 42_multiply.md, 43_divide.md: words written out in the spec decode to the
instructions they stand for. -/
def Obligations.SpecWordsDecode : Prop :=
  decode .w2 ⟨0x0800#16, [0x00#8, 0x58#8]⟩ = .ok (.set (.single .s0) [0x00#8, 0x58#8]) ∧
  decode .w2 ⟨0x4420#16, []⟩ = .ok (.add (.double .d0) (.single .s1)) ∧
  decode .w2 ⟨0x54A1#16, []⟩ = .ok (.addh .d0 (.double .d1) true) ∧
  decode .w2 ⟨0x6894#16, []⟩ = .ok (.shr (.single .s0) .sign 20#6) ∧
  decode .w2 ⟨0x8013#16, []⟩ = .ok (.btst (.single .s0) 1#4 3#4) ∧
  decode .w2 ⟨0x9C06#16, []⟩ = .ok (.mulf .d0 .s0 .s1) ∧
  decode .w2 ⟨0xA287#16, []⟩ = .ok (.div .s2 .d0 .s1 .s3) ∧
  decode .w2 ⟨0xACB1#16, []⟩ = .ok (.setfmt true 11#6 1#4) ∧
  decode .w2 ⟨0xC803#16, []⟩ = .ok (.gets .mfmt)

/-! ### Steps, reset, the invariant -/

/-- 00_scope.md section 4 (R8), 41_register_ops.md section 1 (R110): a command that the host presents and that decodes is
executed; around it the step only takes the command off the host's list and counts it (10_state.md R15). The list and the
count are the model's (assumption log 2). -/
def Obligations.StepRunsTheDecodedCommand : Prop :=
  ∀ (s : State) (c : Command) (rest : List HostEvent) (i : Instr),
    s.pending = .command c :: rest → decode s.params.width c = .ok i → step s = exec i (s.taken rest 1)

/-- 60_exceptions.md R227: with `F = 0`, a command that no row of the opcode map accepts raises `IllegalCommand` and records
its word as received; one that a row accepts is executed, never rejected. -/
def Obligations.MalformedCommandRaisesIllegalCommand : Prop :=
  ∀ (s : State) (c : Command) (rest : List HostEvent), s.pending = .command c :: rest → s.f = false →
    (isCommand s.params.width c = false → step s = .next (takeFault .illegalCommand c.word (s.taken rest 1))) ∧
    (isCommand s.params.width c = true → ∃ i, step s = exec i (s.taken rest 1) ∧
      exec i (s.taken rest 1) ≠ .next (takeFault .illegalCommand c.word (s.taken rest 1)))

/-- 70_reset_and_hazards.md R260, R261: `rst` gives the reset state, in the fault state too; what stays is what the reset
table does not name, the parameters (assumption log 1) and the host's own list and count (log 2). -/
def Obligations.StepTakesReset : Prop :=
  ∀ (s : State) (rest : List HostEvent), s.pending = .reset :: rest →
    step s = .next { State.resetWith s.params with pending := rest, index := s.index }

/-- 10_state.md R27: every piece of state after reset. -/
def Obligations.ResetValues : Prop :=
  ∀ (p : Params) (r : Reg),
    (State.resetWith p).reg r = List.replicate (p.width.ofReg r) 0x00#8 ∧
    (State.resetWith p).c = false ∧ (State.resetWith p).f = false ∧ (State.resetWith p).status = 0x00#8 ∧
    (State.resetWith p).cause = 0x00#8 ∧ (State.resetWith p).cnt = 0x00#8 ∧ (State.resetWith p).mfmt = 0x00C4#16 ∧
    (State.resetWith p).fcmd = 0x0000#16 ∧ (State.resetWith p).dout = [] ∧ (State.resetWith p).trace = [] ∧
    State.reset = State.resetWith Params.default

/-- 10_state.md sections 2 and 5: the invariant and the shape of TRACE hold after reset, at every parameter value. -/
def Obligations.InvariantHoldsAtReset : Prop :=
  ∀ p : Params, (State.resetWith p).WF ∧ (State.resetWith p).TraceShaped

/-- 10_state.md sections 2 and 5: every step keeps the invariant: registers of their width, MFMT a legal format, CNT at most
63, and CAUSE and FCMD zero exactly as F says. -/
def Obligations.EveryStepKeepsTheInvariant : Prop :=
  ∀ s t : State, s.WF → step s = .next t → t.WF

/-- 10_state.md section 7 (R24): every step keeps every TRACE record in its shape, the fields of its algorithm and kind,
each of its width. -/
def Obligations.EveryStepKeepsTheTraceShape : Prop :=
  ∀ s t : State, s.TraceShaped → step s = .next t → t.TraceShaped

/-- 10_state.md section 8 (R26) and section 3 (R15): no step changes a parameter, the host's events are taken in order, one
a step, and the index counts the commands among them whatever each command does; with nothing presented the block holds
its state (20_memory.md R52, 60_exceptions.md R245). Parameters, list and index in the state are the model's (assumption
logs 1 to 3). -/
def Obligations.StepTakesOneEventInOrder : Prop :=
  (∀ s t : State, step s = .next t →
    t.params = s.params ∧ t.pending = s.pending.tail ∧
    t.index = s.index + (match s.pending with | .command _ :: _ => 1 | _ => 0)) ∧
  (∀ s : State, s.pending = [] → step s = .next s)

/-- 93_implementation_defined.md, introduction: every command has a defined result or a defined fault state, so every
instruction, in every state, and every step answers a next state (assumption log 3). -/
def Obligations.EveryCommandAnswersANextState : Prop :=
  (∀ (i : Instr) (s : State), ∃ t, exec i s = .next t) ∧ (∀ s : State, ∃ t, step s = .next t)

/-! ### Faults -/

/-- 60_exceptions.md R236: in the fault state a well-formed GETS appends to DOUT and changes nothing else; every other
command, well formed or not, is consumed and changes nothing at all. -/
def Obligations.FaultStateIgnoresAllButGets : Prop :=
  ∀ (s : State) (c : Command) (rest : List HostEvent), s.pending = .command c :: rest → s.f = true →
    (∀ sel, decode s.params.width c = .ok (.gets sel) →
      step s = .next ((s.taken rest 1).emit (s.control sel))) ∧
    ((∀ sel, decode s.params.width c ≠ .ok (.gets sel)) → step s = .next (s.taken rest 1))

/-- 60_exceptions.md R237: only reset clears F; no command does, whatever it is. Reset also clears every register. -/
def Obligations.OnlyResetLeavesTheFaultState : Prop :=
  ∀ s t : State, s.f = true → step s = .next t → t.f = false →
    (∃ rest, s.pending = .reset :: rest) ∧
    ∀ r : Reg, t.reg r = List.replicate (s.widthOf r) 0x00#8

/-- 60_exceptions.md R235: a command that raises a fault leaves every register, C, CNT, MFMT and both logs as before it; F,
CAUSE and FCMD take the fault, its code (R226) and the command's word, as received where it does not decode. -/
def Obligations.FaultEntryIsPrecise : Prop :=
  (∀ (s t : State) (c : Command) (rest : List HostEvent), s.pending = .command c :: rest → s.f = false →
    step s = .next t → t.f = true →
    ∃ x : Cause, t = { s.taken rest 1 with f := true, cause := x.code, fcmd := c.word }) ∧
  (∀ (i : Instr) (s t : State), s.f = false → exec i s = .next t → t.f = true →
    ∃ x : Cause, t = { s with f := true, cause := x.code, fcmd := encodeWord i }) ∧
  (∀ (x : Cause), x.code = (match x with
    | .illegalCommand => 1#8 | .widthMismatch => 2#8 | .highOverflow => 3#8 | .operandRange => 4#8
    | .divZero => 5#8 | .divInvalid => 6#8 | .internalCheck => 7#8))

/-- 60_exceptions.md section 3 (the table of R234) and R227 items 5 and 6: a well-formed instruction raises only the faults
its row lists, and an ill-formed term (a SET literal of the wrong length, a DIV with one destination) raises
`IllegalCommand`. -/
def Obligations.CommandRaisesOnlyItsOwnFaults : Prop :=
  ∀ (i : Instr) (s : State), s.f = false →
    (i.wellFormed s.params.width = true → ∀ (x : Cause), exec i s = .next (takeFault x (encodeWord i) s) →
      x ∈ Instr.mayRaise i) ∧
    (i.wellFormed s.params.width = false → exec i s = .next (takeFault .illegalCommand (encodeWord i) s))

/-! ### Frames -/

/-- 70_reset_and_hazards.md section 3 (R266): a command changes the registers it names as destinations and no others. Holds
for every instruction and every form. -/
def Obligations.OnlyNamedDestinationsChange : Prop :=
  ∀ (i : Instr) (s t : State), exec i s = .next t → ∀ r : Reg, r ∉ Instr.dests i → t.reg r = s.reg r

/-- 10_state.md section 4 (R16): C is left unchanged by every command other than ADD, SUB, ADDH, SUBH, SHL and SHR with a
non-zero amount, BTST, and UNHIDE and HIDE under a hidden-one format; STATUS shows it in bit 0. -/
def Obligations.CarryChangesOnlyWhereListed : Prop :=
  (∀ (i : Instr) (s t : State), exec i s = .next t → Instr.writesCarry s i = false → t.c = s.c) ∧
  (∀ s : State, s.status = BitVec.ofNat 8 (2 * s.f.toNat + s.c.toNat))

/-- 10_state.md section 5 (R18 to R21): CNT is written by NORM only, MFMT by SETFMT only, CAUSE and FCMD only by a command
that raises a fault. -/
def Obligations.ControlRegistersChangeOnlyWhereListed : Prop :=
  ∀ (i : Instr) (s t : State), exec i s = .next t →
    (Instr.counts i = false → t.cnt = s.cnt) ∧ (Instr.setsFormat i = false → t.mfmt = s.mfmt) ∧
    (t.f = s.f → t.cause = s.cause ∧ t.fcmd = s.fcmd)

/-- 10_state.md section 7 (R23, R24): commands only append to the logs; only GET and GETS append to DOUT, only MULC, MULB,
MULF and DIV to TRACE, and only when they complete without a fault. -/
def Obligations.LogsOnlyGrow : Prop :=
  ∀ (i : Instr) (s t : State), exec i s = .next t →
    (∃ new, t.dout = s.dout ++ new) ∧ (∃ new, t.trace = s.trace ++ new) ∧
    (Instr.emits i = false → t.dout = s.dout) ∧ (Instr.traces i = false → t.trace = s.trace) ∧
    (t.f = true → t.trace = s.trace)

/-- 10_state.md section 4 (R16), 40_byte_primitives.md section 5 (R99): no command reads C as an input. With another value
of C every command other than GETS STATUS does the same to all else, and a command that writes C and completes writes the
same value. -/
def Obligations.CarryIsNoInput : Prop :=
  ∀ (i : Instr) (s : State) (b : Bool), i ≠ .gets .status →
    ∃ t u, exec i s = .next t ∧ exec i (s.setCarry b) = .next u ∧ u.setCarry t.c = t ∧
      (Instr.writesCarry s i = true → s.f = false → t.f = false → u.c = t.c)

/-- 60_exceptions.md section 7 (R244), 10_state.md section 7: no command reads TRACE. Whatever the log holds, a command
appends the same records and does the same to all else. -/
def Obligations.TraceIsNeverRead : Prop :=
  ∀ (i : Instr) (s : State) (log : List StepRecord),
    ∃ t u new, exec i s = .next t ∧ exec i { s with trace := log } = .next u ∧
      t.trace = s.trace ++ new ∧ u = { t with trace := log ++ new }

/-- 40_byte_primitives.md section 3 (R95): `BSAR_VARIANT` changes no command result. -/
def Obligations.BsarVariantChangesNoCommand : Prop :=
  ∀ (i : Instr) (s : State) (v : BsarVariant),
    ∃ t, exec i s = .next t ∧ exec i (s.withBsar v) = .next (t.withBsar v)

/-! ### Moving data -/

/-- 41_register_ops.md R111: SET. -/
def Obligations.SetLoadsItsPayload : Prop :=
  ∀ (s : State) (rd : Reg) (lit : List Byte), s.f = false →
    encodeWord (.set rd lit) = 0x0800#16 ||| placed rd.spec 8 ∧
    (lit.length = s.widthOf rd → exec (.set rd lit) s = .next (s.setReg rd lit)) ∧
    (lit.length ≠ s.widthOf rd →
      exec (.set rd lit) s = .next (takeFault .illegalCommand (encodeWord (.set rd lit)) s))

/-- 41_register_ops.md R112: GET appends the bytes of the register, which are its value in bytes, most significant first. -/
def Obligations.GetEmitsTheRegister : Prop :=
  ∀ (s : State) (rd : Reg), s.RegsSized → s.f = false →
    encodeWord (.get rd) = 0x1000#16 ||| placed rd.spec 8 ∧
    exec (.get rd) s = .next (s.emit (toBytes (s.widthOf rd) (s.value rd)))

/-- 41_register_ops.md R113: COPY. -/
def Obligations.CopyMovesEqualWidths : Prop :=
  ∀ (s : State) (rd rs : Reg), s.f = false →
    encodeWord (.copy rd rs) = 0x1800#16 ||| placed rd.spec 8 ||| placed rs.spec 5 ∧
    (s.widthOf rd = s.widthOf rs → exec (.copy rd rs) s = .next (s.setReg rd (s.reg rs))) ∧
    (s.widthOf rd ≠ s.widthOf rs →
      exec (.copy rd rs) s = .next (takeFault .widthMismatch (encodeWord (.copy rd rs)) s))

/-- 41_register_ops.md R114, R115: GETH and GETL take bits 2N-1 to N and bits N-1 to 0 by value. -/
def Obligations.HalvesAreReadByValue : Prop :=
  ∀ (s : State) (rd : SReg) (rs : DReg), s.RegsSized → s.f = false →
    encodeWord (.geth rd rs) = 0x2000#16 ||| placed (Reg.single rd).spec 8 ||| placed (Reg.double rs).spec 5 ∧
    encodeWord (.getl rd rs) = 0x2800#16 ||| placed (Reg.single rd).spec 8 ||| placed (Reg.double rs).spec 5 ∧
    exec (.geth rd rs) s =
      .next (s.setSingle rd (toBytes s.params.width.bytes (s.value (.double rs) / 2 ^ s.nBits))) ∧
    exec (.getl rd rs) s =
      .next (s.setSingle rd (toBytes s.params.width.bytes (s.value (.double rs) % 2 ^ s.nBits)))

/-- 41_register_ops.md R116, R117: PUTH and PUTL replace one half and leave the other. -/
def Obligations.HalvesAreWrittenInPlace : Prop :=
  ∀ (s : State) (rd : DReg) (rs : SReg), s.RegsSized → s.f = false →
    encodeWord (.puth rd rs) = 0x3000#16 ||| placed (Reg.double rd).spec 8 ||| placed (Reg.single rs).spec 5 ∧
    encodeWord (.putl rd rs) = 0x3800#16 ||| placed (Reg.double rd).spec 8 ||| placed (Reg.single rs).spec 5 ∧
    exec (.puth rd rs) s = .next (s.setDouble rd (toBytes (2 * s.params.width.bytes)
      (s.value (.single rs) * 2 ^ s.nBits + s.value (.double rd) % 2 ^ s.nBits))) ∧
    exec (.putl rd rs) s = .next (s.setDouble rd (toBytes (2 * s.params.width.bytes)
      (s.value (.double rd) / 2 ^ s.nBits * 2 ^ s.nBits + s.value (.single rs))))

/-! ### Add and subtract -/

/-- 41_register_ops.md R118: ADD in closed form. -/
def Obligations.AddComputesSumAndCarry : Prop :=
  ∀ (s : State) (rd rs : Reg), s.RegsSized → s.f = false →
    let w := s.widthOf rd
    let n := s.bitsOf rd
    let a := s.value rd
    let b := extValue s.params.ext (s.reg rs) w
    encodeWord (.add rd rs) = 0x4000#16 ||| placed rd.spec 8 ||| placed rs.spec 5 ∧
    (w < s.widthOf rs → exec (.add rd rs) s = .next (takeFault .widthMismatch (encodeWord (.add rd rs)) s)) ∧
    (s.widthOf rs ≤ w → exec (.add rd rs) s =
      .next ((s.setReg rd (toBytes w ((a + b) % 2 ^ n))).setCarry (decide (2 ^ n ≤ a + b))))

/-- 41_register_ops.md R119: SUB in closed form; C is the borrow. -/
def Obligations.SubComputesDifferenceAndBorrow : Prop :=
  ∀ (s : State) (rd rs : Reg), s.RegsSized → s.f = false →
    let w := s.widthOf rd
    let n := s.bitsOf rd
    let a := s.value rd
    let b := extValue s.params.ext (s.reg rs) w
    encodeWord (.sub rd rs) = 0x4800#16 ||| placed rd.spec 8 ||| placed rs.spec 5 ∧
    (w < s.widthOf rs → exec (.sub rd rs) s = .next (takeFault .widthMismatch (encodeWord (.sub rd rs)) s)) ∧
    (s.widthOf rs ≤ w → exec (.sub rd rs) s =
      .next ((s.setReg rd (toBytes w ((a + 2 ^ n - b) % 2 ^ n))).setCarry (decide (a < b))))

/-- 41_register_ops.md R120, 60_exceptions.md R229: ADDH in closed form; a double-width operand with a non-zero high half
faults unless `trunc` is given, and then only its low half is used. -/
def Obligations.AddhAddsIntoTheHighHalf : Prop :=
  ∀ (s : State) (rd : DReg) (rs : Reg) (trunc : Bool), s.RegsSized → s.f = false →
    let m := 2 ^ s.nBits
    let h := s.value (.double rd) / m
    let l := s.value (.double rd) % m
    let o := s.value rs % m
    encodeWord (.addh rd rs trunc) =
      0x5000#16 ||| placed (Reg.double rd).spec 8 ||| placed rs.spec 5 ||| placed (BitVec.ofBool trunc) 0 ∧
    (m ≤ s.value rs ∧ trunc = false →
      exec (.addh rd rs trunc) s = .next (takeFault .highOverflow (encodeWord (.addh rd rs trunc)) s)) ∧
    (¬ (m ≤ s.value rs ∧ trunc = false) → exec (.addh rd rs trunc) s =
      .next ((s.setDouble rd (toBytes (2 * s.params.width.bytes) ((h + o) % m * m + l))).setCarry (decide (m ≤ h + o))))

/-- 41_register_ops.md R121, 60_exceptions.md R229: SUBH in closed form; C is the borrow. -/
def Obligations.SubhSubtractsFromTheHighHalf : Prop :=
  ∀ (s : State) (rd : DReg) (rs : Reg) (trunc : Bool), s.RegsSized → s.f = false →
    let m := 2 ^ s.nBits
    let h := s.value (.double rd) / m
    let l := s.value (.double rd) % m
    let o := s.value rs % m
    encodeWord (.subh rd rs trunc) =
      0x5800#16 ||| placed (Reg.double rd).spec 8 ||| placed rs.spec 5 ||| placed (BitVec.ofBool trunc) 0 ∧
    (m ≤ s.value rs ∧ trunc = false →
      exec (.subh rd rs trunc) s = .next (takeFault .highOverflow (encodeWord (.subh rd rs trunc)) s)) ∧
    (¬ (m ≤ s.value rs ∧ trunc = false) → exec (.subh rd rs trunc) s =
      .next ((s.setDouble rd (toBytes (2 * s.params.width.bytes) ((h + m - o) % m * m + l))).setCarry (decide (h < o))))

/-- 41_register_ops.md R124: NEG in closed form; C is unchanged. -/
def Obligations.NegComputesTheTwosComplement : Prop :=
  ∀ (s : State) (rd : Reg), s.RegsSized → s.f = false →
    encodeWord (.neg rd) = 0x7000#16 ||| placed rd.spec 8 ∧
    exec (.neg rd) s =
      .next (s.setReg rd (toBytes (s.widthOf rd) ((2 ^ s.bitsOf rd - s.value rd) % 2 ^ s.bitsOf rd)))

/-- 41_register_ops.md R125: NOT in closed form; C is unchanged. -/
def Obligations.NotComputesTheComplement : Prop :=
  ∀ (s : State) (rd : Reg), s.RegsSized → s.f = false →
    encodeWord (.not rd) = 0x7800#16 ||| placed rd.spec 8 ∧
    exec (.not rd) s = .next (s.setReg rd (toBytes (s.widthOf rd) (2 ^ s.bitsOf rd - 1 - s.value rd)))

/-! ### Shifts and bits -/

/-- 41_register_ops.md R122: SHL in closed form, C included, for every amount 0 to 63. -/
def Obligations.ShlShiftsAndReportsTheLastBit : Prop :=
  ∀ (s : State) (rd : Reg) (fill : Bool) (amt : BitVec 6), s.RegsSized → s.f = false →
    let w := s.widthOf rd
    let n := s.bitsOf rd
    let v := s.value rd
    let k := amt.toNat
    encodeWord (.shl rd fill amt) =
      0x6000#16 ||| placed rd.spec 8 ||| placed (BitVec.ofBool fill) 6 ||| placed amt 0 ∧
    exec (.shl rd fill amt) s =
      .next ((s.setReg rd (toBytes w ((v * 2 ^ k + (if fill then 2 ^ k - 1 else 0)) % 2 ^ n))).setCarry
        (if k = 0 then s.c else if k ≤ n then v.testBit (n - k) else fill))

/-- 41_register_ops.md R123: SHR in closed form, C included, for every fill and every amount 0 to 63. -/
def Obligations.ShrShiftsAndReportsTheLastBit : Prop :=
  ∀ (s : State) (rd : Reg) (fill : ShrFill) (amt : BitVec 6), s.RegsSized → s.f = false →
    let w := s.widthOf rd
    let n := s.bitsOf rd
    let v := s.value rd
    let k := amt.toNat
    encodeWord (.shr rd fill amt) =
      0x6800#16 ||| placed rd.spec 8 ||| placed fill.field 6 ||| placed amt 0 ∧
    exec (.shr rd fill amt) s =
      .next ((s.setReg rd (match fill with
          | .sign => intBytes w (signed (s.reg rd) / 2 ^ k)
          | .zero => toBytes w (v / 2 ^ k)
          | .one => toBytes w (v / 2 ^ k + (2 ^ n - 2 ^ (n - min k n))))).setCarry
        (if k = 0 then s.c else if k ≤ n then v.testBit (k - 1)
          else match fill with | .sign => msb (s.reg rd) | .zero => false | .one => true))

/-- 41_register_ops.md R126: BTST copies the bit into C; an index out of range raises `OperandRange`. -/
def Obligations.BtstCopiesTheBit : Prop :=
  ∀ (s : State) (rd : Reg) (bi k : BitVec 4), s.RegsSized → s.f = false →
    let w := s.widthOf rd
    encodeWord (.btst rd bi k) = 0x8000#16 ||| placed rd.spec 8 ||| placed bi 4 ||| placed k 0 ∧
    (w ≤ bi.toNat ∨ 7 < k.toNat →
      exec (.btst rd bi k) s = .next (takeFault .operandRange (encodeWord (.btst rd bi k)) s)) ∧
    (bi.toNat < w ∧ k.toNat ≤ 7 →
      exec (.btst rd bi k) s = .next (s.setCarry ((s.value rd).testBit (bitIndex w bi.toNat k.toNat))))

/-- 41_register_ops.md R127: BSET sets the one bit; C and all other bits are unchanged. -/
def Obligations.BsetSetsTheBit : Prop :=
  ∀ (s : State) (rd : Reg) (bi k : BitVec 4), s.RegsSized → s.f = false →
    let w := s.widthOf rd
    let j := bitIndex w bi.toNat k.toNat
    encodeWord (.bset rd bi k) = 0x8800#16 ||| placed rd.spec 8 ||| placed bi 4 ||| placed k 0 ∧
    (w ≤ bi.toNat ∨ 7 < k.toNat →
      exec (.bset rd bi k) s = .next (takeFault .operandRange (encodeWord (.bset rd bi k)) s)) ∧
    (bi.toNat < w ∧ k.toNat ≤ 7 →
      exec (.bset rd bi k) s =
        .next (s.setReg rd (toBytes w (if (s.value rd).testBit j then s.value rd else s.value rd + 2 ^ j))))

/-- 41_register_ops.md R128: BCLR clears the one bit; C and all other bits are unchanged. -/
def Obligations.BclrClearsTheBit : Prop :=
  ∀ (s : State) (rd : Reg) (bi k : BitVec 4), s.RegsSized → s.f = false →
    let w := s.widthOf rd
    let j := bitIndex w bi.toNat k.toNat
    encodeWord (.bclr rd bi k) = 0x9000#16 ||| placed rd.spec 8 ||| placed bi 4 ||| placed k 0 ∧
    (w ≤ bi.toNat ∨ 7 < k.toNat →
      exec (.bclr rd bi k) s = .next (takeFault .operandRange (encodeWord (.bclr rd bi k)) s)) ∧
    (bi.toNat < w ∧ k.toNat ≤ 7 →
      exec (.bclr rd bi k) s =
        .next (s.setReg rd (toBytes w (if (s.value rd).testBit j then s.value rd - 2 ^ j else s.value rd))))

/-! ### Multiplication -/

/-- 42_multiply.md sections 2 and 5 (R152, R155): MULC writes the exact signed product to Dd and appends its records; all
else is unchanged. The closed form is the product law, the spec's own inference (R155, "[derived: from rule R152 and rule
R153]"). -/
def Obligations.MulcWritesTheProduct : Prop :=
  ∀ (s : State) (rd : DReg) (rs rt : SReg), s.RegsSized → s.f = false →
    encodeWord (.mulc rd rs rt) = 0x9800#16 ||| placed (Reg.double rd).spec 8 ||| placed (Reg.single rs).spec 5 |||
      placed (Reg.single rt).spec 2 ∧
    ∃ recs, exec (.mulc rd rs rt) s = .next ((s.setDouble rd
      (intBytes (2 * s.params.width.bytes) (signed (s.single rs) * signed (s.single rt)))).record recs)

/-- 42_multiply.md sections 3 and 5 (R153, R155): MULB writes the exact signed product, with no correction step
(the product law of R155, the spec's own inference). -/
def Obligations.MulbWritesTheProduct : Prop :=
  ∀ (s : State) (rd : DReg) (rs rt : SReg), s.RegsSized → s.f = false →
    encodeWord (.mulb rd rs rt) = 0x9801#16 ||| placed (Reg.double rd).spec 8 ||| placed (Reg.single rs).spec 5 |||
      placed (Reg.single rt).spec 2 ∧
    ∃ recs, exec (.mulb rd rs rt) s = .next ((s.setDouble rd
      (intBytes (2 * s.params.width.bytes) (signed (s.single rs) * signed (s.single rt)))).record recs)

/-- 42_multiply.md sections 4 and 5 (R154, R155): MULF writes the exact signed product (the product law of R155, the
spec's own inference). -/
def Obligations.MulfWritesTheProduct : Prop :=
  ∀ (s : State) (rd : DReg) (rs rt : SReg), s.RegsSized → s.f = false →
    encodeWord (.mulf rd rs rt) = 0x9802#16 ||| placed (Reg.double rd).spec 8 ||| placed (Reg.single rs).spec 5 |||
      placed (Reg.single rt).spec 2 ∧
    ∃ recs, exec (.mulf rd rs rt) s = .next ((s.setDouble rd
      (intBytes (2 * s.params.width.bytes) (signed (s.single rs) * signed (s.single rt)))).record recs)

/-- 42_multiply.md R155: the three multiplications give one and the same Dd, whose signed value is the exact product, raise
no fault and leave C as it was; their TRACE records differ. The product law is the spec's own inference ("[derived: from
rule R152 and rule R153]"). -/
def Obligations.ThreeMultiplicationsAgree : Prop :=
  ∀ (s : State) (rd : DReg) (rs rt : SReg), s.RegsSized → s.f = false →
    ∃ tc tb tf, exec (.mulc rd rs rt) s = .next tc ∧ exec (.mulb rd rs rt) s = .next tb ∧
      exec (.mulf rd rs rt) s = .next tf ∧
      signed (tc.double rd) = signed (s.single rs) * signed (s.single rt) ∧
      tb.double rd = tc.double rd ∧ tf.double rd = tc.double rd ∧
      tc.f = false ∧ tb.f = false ∧ tf.f = false ∧ tc.c = s.c ∧ tb.c = s.c ∧ tf.c = s.c ∧
      tc.trace ≠ tb.trace ∧ tb.trace ≠ tf.trace ∧ tc.trace ≠ tf.trace

/-- 42_multiply.md R157: the numbers, indices and kinds of the records: MULC N and a correction exactly for a negative
multiplier, MULB N, MULF N/2 and perhaps a correction. -/
def Obligations.MultiplicationStepCounts : Prop :=
  ∀ (s : State) (rd : DReg) (rs rt : SReg), s.RegsSized → s.f = false →
    let n := s.nBits
    let iters (k : Nat) : List (Nat × StepKind) := (List.range' 1 k).map fun i => (i, StepKind.iter)
    ∃ tc tb tf rc rb rf, exec (.mulc rd rs rt) s = .next tc ∧ exec (.mulb rd rs rt) s = .next tb ∧
      exec (.mulf rd rs rt) s = .next tf ∧
      tc.trace = s.trace ++ rc ∧ tb.trace = s.trace ++ rb ∧ tf.trace = s.trace ++ rf ∧
      rc.map (fun r => (r.idx, r.kind)) =
        iters n ++ (if signed (s.single rt) < 0 then [(n + 1, StepKind.correction)] else []) ∧
      rb.map (fun r => (r.idx, r.kind)) = iters n ∧
      (rf.map (fun r => (r.idx, r.kind)) = iters (n / 2) ∨
        rf.map (fun r => (r.idx, r.kind)) = iters (n / 2) ++ [(n / 2 + 1, StepKind.correction)])

/-- 42_multiply.md R152 to R154, 10_state.md R24: what the record of each iteration shows of the work done so far. After
step `i` the working register holds the multiplicand times the multiplier bits used, and below it the bits still to be
used: MULC takes the low `i` bits as unsigned, MULB as two's complement, MULF the low `2i` bits less its correction bit.
The closed forms are this model's inference from those rules (assumption log 12). -/
def Obligations.MultiplicationTraceShowsPartialProducts : Prop :=
  ∀ (s : State) (rd : DReg) (rs rt : SReg) (i : Nat), s.RegsSized → s.f = false → 1 ≤ i →
    let n := s.nBits
    let a := signed (s.single rs)
    let b := s.value (.single rt)
    ∃ tc tb tf, exec (.mulc rd rs rt) s = .next tc ∧ exec (.mulb rd rs rt) s = .next tb ∧
      exec (.mulf rd rs rt) s = .next tf ∧
      (i ≤ n → ∃ r, tc.trace[s.trace.length + (i - 1)]? = some r ∧
        signed r.after = a * ((b % 2 ^ i : Nat) : Int) * 2 ^ (n - i) + ((b / 2 ^ i : Nat) : Int)) ∧
      (i ≤ n → ∃ r, tb.trace[s.trace.length + (i - 1)]? = some r ∧
        signed r.after = a * (b : Int).bmod (2 ^ i) * 2 ^ (n - i) + ((b / 2 ^ i : Nat) : Int)) ∧
      (2 * i ≤ n → ∃ r, tf.trace[s.trace.length + (i - 1)]? = some r ∧
        signed r.after = a * (((b % 4 ^ i : Nat) : Int) - (if r.corrOut = some true then 4 ^ i else 0)) * 2 ^ (n - 2 * i) +
          ((b / 4 ^ i : Nat) : Int))

/-- 42_multiply.md section 4 (the derived note of R154): the correction of MULF is never an add; it is a subtraction, and
only for a negative multiplier. -/
def Obligations.MulfNeverAddsAfterTheLoop : Prop :=
  ∀ (s t : State) (rd : DReg) (rs rt : SReg), s.RegsSized → s.f = false → exec (.mulf rd rs rt) s = .next t →
    ∀ r ∈ t.trace.drop s.trace.length, r.kind = .correction → r.action = .sub ∧ signed (s.single rt) < 0

/-! ### Division -/

/-- 43_divide.md sections 1 to 7 (R180 to R188): with the fix-up stage, on operands the validity check accepts and whose
quotient fits, DIV writes the quotient rounded toward zero and its remainder. The closed forms are the spec's own inferences
(R183 "[derived: from rule R182]", R188 "[derived: from rule R185 and rule R186]"). -/
def Obligations.DivWritesTruncatedQuotientAndRemainder : Prop :=
  ∀ (s : State) (rd : SReg) (rs : DReg) (rt rem : SReg), s.RegsSized → s.f = false → rd ≠ rem →
    s.params.divFixup = true →
    let a := signed (s.double rs)
    let d := signed (s.single rt)
    let K : Int := 2 ^ (s.nBits - 1)
    let w := s.params.width.bytes
    d ≠ 0 → divAccepts K a d → ¬ quotientOutside K a d →
    encodeWord (.div rd rs rt rem) = 0xA000#16 ||| placed (Reg.single rd).spec 8 ||| placed (Reg.double rs).spec 5 |||
      placed (Reg.single rt).spec 2 ||| placed (BitVec.ofNat 2 rem.number) 0 ∧
    -K ≤ a.tdiv d ∧ a.tdiv d < K ∧
    ∃ recs, exec (.div rd rs rt rem) s =
      .next (((s.setSingle rd (intBytes w (a.tdiv d))).setSingle rem (intBytes w (a.tmod d))).record recs)

/-- 43_divide.md R188: the result law of every DIV that does not fault: with the fix-up stage `Q·d + R = a`, `|R| < |d|` and
`R` is zero or has the dividend's sign, so Q is the truncated quotient; without it `Q·d + R = a` and `|R| ≤ |d|`. The law is
the spec's own inference ("[derived: from rule R185 and rule R186]"). -/
def Obligations.DivResultLaw : Prop :=
  ∀ (s t : State) (rd : SReg) (rs : DReg) (rt rem : SReg), s.RegsSized → s.f = false → rd ≠ rem →
    exec (.div rd rs rt rem) s = .next t → t.f = false →
    let a := signed (s.double rs)
    let d := signed (s.single rt)
    let q := signed (t.single rd)
    let r := signed (t.single rem)
    q * d + r = a ∧
    (s.params.divFixup = true → q = a.tdiv d ∧ r.natAbs < d.natAbs ∧ (r = 0 ∨ (r < 0 ↔ a < 0))) ∧
    (s.params.divFixup = false → r.natAbs ≤ d.natAbs)

/-- 43_divide.md section 6 (R186), 60_exceptions.md R233: with `DIV_FIXUP = false` DIV completes on every operand pair the
validity check accepts, with an exact quotient and remainder pair (R183 and R188, the spec's own inferences). -/
def Obligations.LiteralDivCompletesWhereAccepted : Prop :=
  ∀ (s : State) (rd : SReg) (rs : DReg) (rt rem : SReg), s.RegsSized → s.f = false → rd ≠ rem →
    s.params.divFixup = false →
    let a := signed (s.double rs)
    let d := signed (s.single rt)
    let w := s.params.width.bytes
    d ≠ 0 → divAccepts (2 ^ (s.nBits - 1)) a d →
    ∃ q r recs, q * d + r = a ∧ r.natAbs ≤ d.natAbs ∧ exec (.div rd rs rt rem) s =
      .next (((s.setSingle rd (intBytes w q)).setSingle rem (intBytes w r)).record recs)

/-- 60_exceptions.md R231: a zero divider is `DivZero`, checked before anything else of the division, so `0 / 0` too. -/
def Obligations.ZeroDividerRaisesDivZero : Prop :=
  ∀ (s : State) (rd : SReg) (rs : DReg) (rt rem : SReg), s.RegsSized → s.f = false → rd ≠ rem →
    s.value (.single rt) = 0 →
    exec (.div rd rs rt rem) s = .next (takeFault .divZero (encodeWord (.div rd rs rt rem)) s) ∧
    Cause.code .divZero = 5#8

/-- 43_divide.md section 3 (the closed form of R183), 60_exceptions.md R232: `DivInvalid` exactly outside the accepted
operands. The closed form is the spec's own inference ("[derived: from rule R182]"). -/
def Obligations.DivInvalidExactlyWhereNotAccepted : Prop :=
  ∀ (s : State) (rd : SReg) (rs : DReg) (rt rem : SReg), s.RegsSized → s.f = false → rd ≠ rem →
    let a := signed (s.double rs)
    let d := signed (s.single rt)
    d ≠ 0 →
    (exec (.div rd rs rt rem) s = .next (takeFault .divInvalid (encodeWord (.div rd rs rt rem)) s) ↔
      ¬ divAccepts (2 ^ (s.nBits - 1)) a d)

/-- 60_exceptions.md R233: `InternalCheck` exactly with the fix-up stage present, for the accepted operands whose quotient is
`+2^(N-1)` or `-2^(N-1) - 1` (the accepted operands in the closed form of R183, the spec's own inference). -/
def Obligations.InternalCheckExactlyOneOutside : Prop :=
  ∀ (s : State) (rd : SReg) (rs : DReg) (rt rem : SReg), s.RegsSized → s.f = false → rd ≠ rem →
    let a := signed (s.double rs)
    let d := signed (s.single rt)
    let K : Int := 2 ^ (s.nBits - 1)
    d ≠ 0 → divAccepts K a d →
    (exec (.div rd rs rt rem) s = .next (takeFault .internalCheck (encodeWord (.div rd rs rt rem)) s) ↔
      s.params.divFixup = true ∧ (a.tdiv d = K ∨ a.tdiv d = -K - 1))

/-- 43_divide.md R190: the records of a DIV: one TRIAL with index 0, N - 1 ITER, at most one CORRECTION with index N, at most
one FIXUP with index N + 1; none where the command faults. -/
def Obligations.DivisionStepCounts : Prop :=
  ∀ (s t : State) (rd : SReg) (rs : DReg) (rt rem : SReg), s.f = false →
    exec (.div rd rs rt rem) s = .next t →
    (t.f = true → t.trace = s.trace) ∧
    (t.f = false → ∃ (recs : List StepRecord) (corrected fixed : Bool), t.trace = s.trace ++ recs ∧
      (fixed = true → s.params.divFixup = true) ∧
      recs.map (fun r => (r.idx, r.kind)) =
        (0, StepKind.trial) :: (List.range' 1 (s.nBits - 1)).map (fun i => (i, StepKind.iter)) ++
          (if corrected then [(s.nBits, StepKind.correction)] else []) ++
          (if fixed then [(s.nBits + 1, StepKind.fixup)] else []))

/-! ### Mantissa and control registers -/

/-- 44_mantissa.md R201: SETFMT writes the low 11 bits of its word to MFMT, and refuses every format outside
`1 ≤ dw ≤ bu ≤ N`. -/
def Obligations.SetfmtWritesALegalFormat : Prop :=
  ∀ (s : State) (h : Bool) (bu : BitVec 6) (dw : BitVec 4), s.f = false →
    encodeWord (.setfmt h bu dw) =
      0xA800#16 ||| placed (BitVec.ofBool h) 10 ||| placed bu 4 ||| placed dw 0 ∧
    (1 ≤ dw.toNat ∧ dw.toNat ≤ bu.toNat ∧ bu.toNat ≤ s.nBits →
      exec (.setfmt h bu dw) s = .next { s with mfmt := encodeWord (.setfmt h bu dw) &&& 0x07FF#16 }) ∧
    (¬ (1 ≤ dw.toNat ∧ dw.toNat ≤ bu.toNat ∧ bu.toNat ≤ s.nBits) →
      exec (.setfmt h bu dw) s = .next (takeFault .operandRange (encodeWord (.setfmt h bu dw)) s))

/-- 44_mantissa.md R202: NORM shifts by the least number of digits, at most the format's digit count, after which the top
digit is non-zero, and leaves that number in CNT. -/
def Obligations.NormShiftsToTheFirstDigit : Prop :=
  ∀ (s : State) (rd : SReg), s.WF → s.f = false →
    let v := s.value (.single rd)
    let dw := s.digitWidth
    let digits := (s.bitsUsed + dw - 1) / dw
    encodeWord (.norm rd) = 0xB000#16 ||| placed (Reg.single rd).spec 8 ∧
    ∃ cnt, cnt ≤ digits ∧ (∀ j < cnt, v * 2 ^ (dw * j) < 2 ^ (s.nBits - dw)) ∧
      (cnt = digits ∨ 2 ^ (s.nBits - dw) ≤ v * 2 ^ (dw * cnt)) ∧ v * 2 ^ (dw * cnt) < 2 ^ s.nBits ∧
      exec (.norm rd) s = .next { s.setSingle rd (toBytes s.params.width.bytes (v * 2 ^ (dw * cnt))) with
        cnt := BitVec.ofNat 8 cnt }

/-- 44_mantissa.md R205: NORM of a normalized mantissa changes nothing and counts 0; NORM of zero changes nothing and counts
the digits; after any NORM the top digit is non-zero or the count is the digit count, and the value is multiplied
exactly. The law is the spec's own inference ("[derived: from rule R202]"). -/
def Obligations.NormIsIdempotent : Prop :=
  ∀ (s : State) (rd : SReg), s.WF → s.f = false →
    let v := s.value (.single rd)
    let dw := s.digitWidth
    let digits := (s.bitsUsed + dw - 1) / dw
    (2 ^ (s.nBits - dw) ≤ v → exec (.norm rd) s = .next { s with cnt := 0#8 }) ∧
    (v = 0 → exec (.norm rd) s = .next { s with cnt := BitVec.ofNat 8 digits }) ∧
    ∃ t, exec (.norm rd) s = .next t ∧
      (2 ^ (s.nBits - dw) ≤ t.value (.single rd) ∨ t.cnt.toNat = digits) ∧
      t.value (.single rd) = v * 2 ^ (dw * t.cnt.toNat)

/-- 44_mantissa.md R203: UNHIDE under a hidden-one format puts the leading 1 on top; otherwise it changes nothing. -/
def Obligations.UnhideRestoresTheLeadingOne : Prop :=
  ∀ (s : State) (rd : SReg), s.RegsSized → s.f = false →
    let v := s.value (.single rd)
    encodeWord (.unhide rd) = 0xB800#16 ||| placed (Reg.single rd).spec 8 ∧
    (s.mfmt.getLsbD 10 = true → exec (.unhide rd) s =
      .next ((s.setSingle rd (toBytes s.params.width.bytes (2 ^ (s.nBits - 1) + v / 2))).setCarry (v.testBit 0))) ∧
    (s.mfmt.getLsbD 10 = false → exec (.unhide rd) s = .next s)

/-- 44_mantissa.md R204: HIDE under a hidden-one format drops the leading bit into C; otherwise it changes nothing. UNHIDE
then HIDE restores the register except for bit 0, which becomes 0. -/
def Obligations.HideDropsTheLeadingBit : Prop :=
  ∀ (s : State) (rd : SReg), s.RegsSized → s.f = false →
    let v := s.value (.single rd)
    encodeWord (.hide rd) = 0xC000#16 ||| placed (Reg.single rd).spec 8 ∧
    (s.mfmt.getLsbD 10 = true → exec (.hide rd) s =
      .next ((s.setSingle rd (toBytes s.params.width.bytes (2 * v % 2 ^ s.nBits))).setCarry (v.testBit (s.nBits - 1)))) ∧
    (s.mfmt.getLsbD 10 = false → exec (.hide rd) s = .next s) ∧
    (s.mfmt.getLsbD 10 = true → ∃ t u, exec (.unhide rd) s = .next t ∧ exec (.hide rd) t = .next u ∧
      u.value (.single rd) = v / 2 * 2)

/-- 45_system.md R215: GETS appends the selected control register and changes nothing else, with `F = 0` and with `F = 1`. -/
def Obligations.GetsAppendsTheControlRegister : Prop :=
  ∀ (s : State) (sel : Selector),
    encodeWord (.gets sel) = 0xC800#16 ||| placed sel.field 0 ∧
    exec (.gets sel) s = .next { s with dout := s.dout ++ (match sel with
      | .status => [BitVec.ofNat 8 (2 * s.f.toNat + s.c.toNat)]
      | .cause => [s.cause]
      | .cnt => [s.cnt]
      | .mfmt => [BitVec.ofNat 8 (s.mfmt.toNat / 256), BitVec.ofNat 8 (s.mfmt.toNat % 256)]
      | .fcmd => [BitVec.ofNat 8 (s.fcmd.toNat / 256), BitVec.ofNat 8 (s.fcmd.toNat % 256)]) }
end

