-- ==== Sys2Proof/Laws/Bytes.lean ====
section
/-! SUPPORT. What the value functions and the byte chains compute, said once each: register content as a number
(00_scope.md R6), the carry chain (40_byte_primitives.md R99), the extension (R100) and the one-bit register shifts
(41_register_ops.md R122, R123). -/

namespace Sys2Proof.Machine

open Sys2Proof

/-! ### Register content as a number -/

theorem pow_256 (w : Nat) : 256 ^ w = 2 ^ (8 * w) := by
  rw [pow_mul]
  norm_num

@[simp] theorem unsigned_nil : unsigned [] = 0 := rfl

@[simp] theorem unsigned_cons (b : Byte) (bs : Register) :
    unsigned (b :: bs) = b.toNat * 256 ^ bs.length + unsigned bs := rfl

theorem unsigned_lt (v : Register) : unsigned v < 256 ^ v.length := by
  induction v with
  | nil => simp
  | cons b bs ih =>
    have hb := b.isLt
    have : b.toNat * 256 ^ bs.length ≤ 255 * 256 ^ bs.length := Nat.mul_le_mul_right _ (by omega)
    simp only [unsigned_cons, List.length_cons, pow_succ]
    omega

theorem unsigned_append (a b : Register) : unsigned (a ++ b) = unsigned a * 256 ^ b.length + unsigned b := by
  induction a with
  | nil => simp
  | cons x xs ih =>
    simp only [List.cons_append, unsigned_cons, ih, List.length_append, pow_add]
    ring

@[simp] theorem length_toBytes (w v : Nat) : (toBytes w v).length = w := by
  induction w with
  | zero => rfl
  | succ w ih => simp [toBytes, ih]

@[simp] theorem unsigned_toBytes (w v : Nat) : unsigned (toBytes w v) = v % 256 ^ w := by
  induction w with
  | zero => simp [toBytes, Nat.mod_one]
  | succ w ih =>
    simp only [toBytes, unsigned_cons, ih, length_toBytes, BitVec.toNat_ofNat]
    rw [pow_succ 256 w, Nat.mod_mul]
    norm_num
    ring

/-- Two contents of one length and one value are one content (10_state.md R13). -/
theorem eq_of_unsigned {a b : Register} (hl : a.length = b.length) (hv : unsigned a = unsigned b) : a = b := by
  induction a generalizing b with
  | nil =>
    cases b with
    | nil => rfl
    | cons _ _ => simp at hl
  | cons x xs ih =>
    cases b with
    | nil => simp at hl
    | cons y ys =>
      simp only [List.length_cons, Nat.add_right_cancel_iff] at hl
      simp only [unsigned_cons, hl] at hv
      have h1 := unsigned_lt xs
      have h2 := unsigned_lt ys
      rw [hl] at h1
      have hp : 0 < 256 ^ ys.length := by positivity
      have hxy : x.toNat = y.toNat := by
        have e1 : (x.toNat * 256 ^ ys.length + unsigned xs) / 256 ^ ys.length = x.toNat := by
          rw [Nat.add_comm, Nat.add_mul_div_right _ _ hp, Nat.div_eq_of_lt h1, Nat.zero_add]
        have e2 : (y.toNat * 256 ^ ys.length + unsigned ys) / 256 ^ ys.length = y.toNat := by
          rw [Nat.add_comm, Nat.add_mul_div_right _ _ hp, Nat.div_eq_of_lt h2, Nat.zero_add]
        rw [← e1, ← e2, hv]
      have hrest : unsigned xs = unsigned ys := by rw [hxy] at hv; omega
      rw [BitVec.eq_of_toNat_eq hxy, ih hl hrest]

/-- A content is its value written in bytes. -/
theorem eq_toBytes {v : Register} {w n : Nat} (hl : v.length = w) (hv : unsigned v = n % 256 ^ w) : v = toBytes w n :=
  eq_of_unsigned (by simp [hl]) (by simp [hv])

theorem toBytes_unsigned (v : Register) : toBytes v.length (unsigned v) = v :=
  (eq_toBytes rfl (Nat.mod_eq_of_lt (unsigned_lt v)).symm).symm

theorem toBytes_mod (w v : Nat) : toBytes w (v % 256 ^ w) = toBytes w v :=
  eq_of_unsigned (by simp) (by simp)

theorem unsigned_take (v : Register) (k : Nat) :
    unsigned (v.take k) = unsigned v / 256 ^ (v.length - k) := by
  conv_rhs => rw [← List.take_append_drop k v, unsigned_append, List.take_append_drop k v]
  have hd := unsigned_lt (v.drop k)
  simp only [List.length_drop] at hd ⊢
  rw [Nat.add_comm, Nat.add_mul_div_right _ _ (by positivity), Nat.div_eq_of_lt hd, Nat.zero_add]

theorem unsigned_drop (v : Register) (k : Nat) : unsigned (v.drop k) = unsigned v % 256 ^ (v.length - k) := by
  conv_rhs => rw [← List.take_append_drop k v, unsigned_append, List.take_append_drop k v]
  have hd := unsigned_lt (v.drop k)
  simp only [List.length_drop] at hd ⊢
  rw [Nat.add_comm, Nat.add_mul_mod_self_right, Nat.mod_eq_of_lt hd]

/-! ### Sign -/

/-- The sign bit is 1 exactly in the upper half of the values (00_scope.md R6). -/
theorem msb_eq (v : Register) (hv : v ≠ []) : msb v = decide (128 * 256 ^ (v.length - 1) ≤ unsigned v) := by
  cases v with
  | nil => exact absurd rfl hv
  | cons b bs =>
    have hb := b.isLt
    have hbs := unsigned_lt bs
    have hp : 0 < 256 ^ bs.length := by positivity
    have hm : b.getLsbD 7 = decide (128 ≤ b.toNat) := by
      have := BitVec.msb_eq_decide b
      simpa [BitVec.msb_eq_getLsbD_last] using this
    simp only [msb, hm, List.length_cons, Nat.add_sub_cancel, unsigned_cons, decide_eq_decide]
    constructor
    · intro h
      have := Nat.mul_le_mul_right (256 ^ bs.length) h
      omega
    · intro h
      by_contra hc
      have : b.toNat * 256 ^ bs.length ≤ 127 * 256 ^ bs.length := Nat.mul_le_mul_right _ (by omega)
      omega

theorem signed_of_msb_false {v : Register} (h : msb v = false) : signed v = unsigned v := by simp [signed, h]

theorem signed_of_msb_true {v : Register} (h : msb v = true) :
    signed v = (unsigned v : Int) - 2 ^ (8 * v.length) := by simp [signed, h]

/-- `signed` and `unsigned` agree mod `2^(8w)`. -/
theorem signed_emod (v : Register) : signed v % 2 ^ (8 * v.length) = unsigned v := by
  have h := unsigned_lt v
  rw [pow_256] at h
  have h' : (unsigned v : Int) < 2 ^ (8 * v.length) := by exact_mod_cast h
  cases hm : msb v with
  | false => rw [signed_of_msb_false hm, Int.emod_eq_of_lt (by positivity) h']
  | true => rw [signed_of_msb_true hm, Int.sub_emod_right, Int.emod_eq_of_lt (by positivity) h']

/-! ### The arithmetic slices and their chain (R91, R92, R99) -/

theorem badd_spec (a b : Byte) (c : Bool) :
    (badd a b c).2.toNat + 256 * (badd a b c).1.toNat = a.toNat + b.toNat + c.toNat := by
  have ha := a.isLt
  have hb := b.isLt
  have hc : c.toNat ≤ 1 := by cases c <;> simp
  have hq : ((a.toNat + b.toNat + c.toNat) / 256 == 1) = decide (256 ≤ a.toNat + b.toNat + c.toNat) := by
    rw [Bool.beq_eq_decide_eq, decide_eq_decide]
    omega
  simp only [badd, BitVec.toNat_ofNat, hq]
  by_cases h : 256 ≤ a.toNat + b.toNat + c.toNat
  · simp [h]
    omega
  · simp [h]
    omega

theorem bsub_spec (a b : Byte) (c : Bool) :
    ((bsub a b c).2.toNat : Int) - 256 * ((bsub a b c).1.toNat : Int) = (a.toNat : Int) - b.toNat - c.toNat := by
  have ha := a.isLt
  have hb := b.isLt
  have hc : c.toNat ≤ 1 := by cases c <;> simp
  simp only [bsub, BitVec.toNat_ofInt]
  by_cases h : (a.toNat : Int) - b.toNat - c.toNat < 0
  · simp [h]
    omega
  · simp [h]
    omega

theorem length_carryChain (op : Byte → Byte → Bool → Bool × Byte) {a b : Register} (h : a.length = b.length) :
    (carryChain op a b).2.length = a.length := by
  induction a generalizing b with
  | nil => simp [carryChain]
  | cons x xs ih =>
    cases b with
    | nil => simp at h
    | cons y ys => simp [carryChain, ih (by simpa using h)]

theorem carryChain_badd {a b : Register} (h : a.length = b.length) :
    unsigned (carryChain badd a b).2 + 256 ^ a.length * (carryChain badd a b).1.toNat = unsigned a + unsigned b := by
  induction a generalizing b with
  | nil =>
    cases b with
    | nil => simp [carryChain]
    | cons _ _ => simp at h
  | cons x xs ih =>
    cases b with
    | nil => simp at h
    | cons y ys =>
      have hl : xs.length = ys.length := by simpa using h
      have e := ih hl
      have t := badd_spec x y (carryChain badd xs ys).1
      simp only [carryChain, unsigned_cons, length_carryChain badd hl, List.length_cons, pow_succ, ← hl]
      calc _ = ((badd x y (carryChain badd xs ys).1).2.toNat + 256 * (badd x y (carryChain badd xs ys).1).1.toNat)
              * 256 ^ xs.length + unsigned (carryChain badd xs ys).2 := by ring
        _ = (x.toNat + y.toNat) * 256 ^ xs.length
              + (unsigned (carryChain badd xs ys).2 + 256 ^ xs.length * (carryChain badd xs ys).1.toNat) := by
            rw [t]; ring
        _ = _ := by rw [e]; ring

theorem carryChain_bsub {a b : Register} (h : a.length = b.length) :
    (unsigned (carryChain bsub a b).2 : Int) - 256 ^ a.length * ((carryChain bsub a b).1.toNat : Int)
      = unsigned a - unsigned b := by
  induction a generalizing b with
  | nil =>
    cases b with
    | nil => simp [carryChain]
    | cons _ _ => simp at h
  | cons x xs ih =>
    cases b with
    | nil => simp at h
    | cons y ys =>
      have hl : xs.length = ys.length := by simpa using h
      have e := ih hl
      have t := bsub_spec x y (carryChain bsub xs ys).1
      simp only [carryChain, unsigned_cons, length_carryChain bsub hl, List.length_cons, pow_succ, ← hl]
      push_cast
      calc _ = (((bsub x y (carryChain bsub xs ys).1).2.toNat : Int)
                - 256 * ((bsub x y (carryChain bsub xs ys).1).1.toNat : Int))
              * 256 ^ xs.length + unsigned (carryChain bsub xs ys).2 := by ring
        _ = ((x.toNat : Int) - y.toNat) * 256 ^ xs.length
              + ((unsigned (carryChain bsub xs ys).2 : Int) - 256 ^ xs.length * ((carryChain bsub xs ys).1.toNat : Int)) := by
            rw [t]; ring
        _ = _ := by rw [e]; ring

/-! ### Extension and `performBinOp` (R99, R100) -/

@[simp] theorem length_extend (ext : Ext) (x : Register) (w : Nat) (h : x.length ≤ w) :
    (extend ext x w).length = w := by
  simp [extend, h]

theorem extend_same (ext : Ext) (x : Register) : extend ext x x.length = x := by simp [extend]

theorem unsigned_replicate_zero (k : Nat) : unsigned (List.replicate k 0#8) = 0 := by
  induction k with
  | zero => rfl
  | succ k ih => simp [List.replicate_succ, ih]

theorem unsigned_replicate_ones (k : Nat) : unsigned (List.replicate k 0xFF#8) = 256 ^ k - 1 := by
  induction k with
  | zero => rfl
  | succ k ih =>
    have hp : 0 < 256 ^ k := by positivity
    simp only [List.replicate_succ, unsigned_cons, List.length_replicate, ih, pow_succ]
    rw [show (0xFF#8).toNat = 255 from rfl]
    omega

/-- The extended operand has the value of its extension as a bit vector: `unsigned(ext_n(v))` (R100, 00_scope.md R6). -/
theorem unsigned_extend (ext : Ext) (x : Register) (w : Nat) (h : x.length ≤ w) :
    unsigned (extend ext x w) = extValue ext x w := by
  have hx := unsigned_lt x
  have hle : 256 ^ x.length ≤ 256 ^ w := Nat.pow_le_pow_right (by norm_num) h
  cases ext with
  | zero => simp [extend, extValue, unsigned_append, unsigned_replicate_zero]
  | sign =>
    have hw : ((2 : Int) ^ (8 * w)) = ((256 ^ w : Nat) : Int) := by rw [pow_256]; push_cast; rfl
    have hl : ((2 : Int) ^ (8 * x.length)) = ((256 ^ x.length : Nat) : Int) := by rw [pow_256]; push_cast; rfl
    cases hm : msb x with
    | false =>
      simp only [extend, hm, extValue, signed_of_msb_false hm, hw]
      rw [← Int.natCast_mod, Int.toNat_natCast, Nat.mod_eq_of_lt (by omega)]
      simp [unsigned_append, unsigned_replicate_zero]
    | true =>
      simp only [extend, hm, if_true, extValue, signed_of_msb_true hm, hw, hl, unsigned_append,
        unsigned_replicate_ones]
      have hsplit : 256 ^ (w - x.length) * 256 ^ x.length = 256 ^ w := by rw [← pow_add]; congr 1; omega
      have e : ((unsigned x : Int) - ((256 ^ x.length : Nat) : Int)) % ((256 ^ w : Nat) : Int)
          = ((256 ^ w - 256 ^ x.length + unsigned x : Nat) : Int) := by
        rw [← Int.add_emod_right, show ((unsigned x : Int) - ((256 ^ x.length : Nat) : Int)) + ((256 ^ w : Nat) : Int)
          = ((256 ^ w - 256 ^ x.length + unsigned x : Nat) : Int) by rw [Nat.cast_add, Nat.cast_sub hle]; ring,
          ← Int.natCast_mod, Nat.mod_eq_of_lt (by omega)]
      rw [e, Int.toNat_natCast, Nat.sub_mul, hsplit, one_mul]

theorem extValue_lt (ext : Ext) (x : Register) (w : Nat) (h : x.length ≤ w) : extValue ext x w < 256 ^ w := by
  rw [← unsigned_extend ext x w h]
  simpa [h] using unsigned_lt (extend ext x w)

theorem extValue_same (ext : Ext) (x : Register) : extValue ext x x.length = unsigned x := by
  rw [← unsigned_extend ext x x.length le_rfl, extend_same]

/-- All that `performBinOp` does with `badd`, the second operand not the longer (R99). -/
theorem performBinOp_badd (ext : Ext) (a b : Register) (h : b.length ≤ a.length) :
    performBinOp ext badd a b =
      (decide (256 ^ a.length ≤ unsigned a + extValue ext b a.length),
        toBytes a.length (unsigned a + extValue ext b a.length)) := by
  have hb := length_extend ext b a.length h
  have e := carryChain_badd (a := a) (b := extend ext b a.length) hb.symm
  have hlen := length_carryChain badd (a := a) (b := extend ext b a.length) hb.symm
  have hv := unsigned_lt (carryChain badd a (extend ext b a.length)).2
  rw [hlen] at hv
  rw [unsigned_extend ext b a.length h] at e
  simp only [performBinOp, max_eq_left h, extend_same]
  have hp : 0 < 256 ^ a.length := by positivity
  refine Prod.ext ?_ (eq_toBytes hlen ?_)
  · cases hc : (carryChain badd a (extend ext b a.length)).1 <;> simp [hc] at e ⊢ <;> omega
  · cases hc : (carryChain badd a (extend ext b a.length)).1 <;> simp [hc] at e
    · rw [← e, Nat.mod_eq_of_lt hv]
    · rw [← e, Nat.add_mod_right, Nat.mod_eq_of_lt hv]

/-- All that `performBinOp` does with `bsub`, the second operand not the longer (R99). -/
theorem performBinOp_bsub (ext : Ext) (a b : Register) (h : b.length ≤ a.length) :
    performBinOp ext bsub a b =
      (decide (unsigned a < extValue ext b a.length),
        toBytes a.length (unsigned a + 256 ^ a.length - extValue ext b a.length)) := by
  have hb := length_extend ext b a.length h
  have e := carryChain_bsub (a := a) (b := extend ext b a.length) hb.symm
  have hlen := length_carryChain bsub (a := a) (b := extend ext b a.length) hb.symm
  have hv := unsigned_lt (carryChain bsub a (extend ext b a.length)).2
  have hx := extValue_lt ext b a.length h
  have ha := unsigned_lt a
  rw [hlen] at hv
  rw [unsigned_extend ext b a.length h] at e
  simp only [performBinOp, max_eq_left h, extend_same]
  have hc256 : ((256 : Int) ^ a.length) = ((256 ^ a.length : Nat) : Int) := by push_cast; rfl
  rw [hc256] at e
  refine Prod.ext ?_ (eq_toBytes hlen ?_)
  · cases hc : (carryChain bsub a (extend ext b a.length)).1 <;> simp [hc] at e ⊢ <;> omega
  · cases hc : (carryChain bsub a (extend ext b a.length)).1 <;> simp [hc] at e
    · have : unsigned a + 256 ^ a.length - extValue ext b a.length
          = unsigned (carryChain bsub a (extend ext b a.length)).2 + 256 ^ a.length := by omega
      rw [this, Nat.add_mod_right, Nat.mod_eq_of_lt hv]
    · have : unsigned a + 256 ^ a.length - extValue ext b a.length
          = unsigned (carryChain bsub a (extend ext b a.length)).2 := by omega
      rw [this, Nat.mod_eq_of_lt hv]

/-! ### The one-bit register shifts (R93, R94 chained) -/

theorem bshl_spec (v : Byte) (f : Bool) :
    (bshl v f).2.toNat + 256 * (bshl v f).1.toNat = 2 * v.toNat + f.toNat := by
  revert v f
  decide +kernel

theorem bshr_spec (v : Byte) (f : Bool) :
    2 * (bshr v f).2.toNat + (bshr v f).1.toNat = v.toNat + 256 * f.toNat := by
  revert v f
  decide +kernel

@[simp] theorem length_shiftLeft1 (f : Bool) (v : Register) : (shiftLeft1 f v).2.length = v.length := by
  induction v with
  | nil => rfl
  | cons b bs ih => simp [shiftLeft1, ih]

@[simp] theorem length_shiftRight1 (f : Bool) (v : Register) : (shiftRight1 f v).2.length = v.length := by
  induction v generalizing f with
  | nil => rfl
  | cons b bs ih => simp [shiftRight1, ih]

/-- All that one register left shift does: twice the value plus the fill, the top bit going out. -/
theorem shiftLeft1_spec (f : Bool) (v : Register) :
    unsigned (shiftLeft1 f v).2 + 256 ^ v.length * (shiftLeft1 f v).1.toNat = 2 * unsigned v + f.toNat := by
  induction v with
  | nil => simp [shiftLeft1]
  | cons b bs ih =>
    have t := bshl_spec b (shiftLeft1 f bs).1
    simp only [shiftLeft1, unsigned_cons, length_shiftLeft1, List.length_cons, pow_succ]
    calc _ = ((bshl b (shiftLeft1 f bs).1).2.toNat + 256 * (bshl b (shiftLeft1 f bs).1).1.toNat) * 256 ^ bs.length
            + unsigned (shiftLeft1 f bs).2 := by ring
      _ = 2 * b.toNat * 256 ^ bs.length
            + (unsigned (shiftLeft1 f bs).2 + 256 ^ bs.length * (shiftLeft1 f bs).1.toNat) := by rw [t]; ring
      _ = _ := by rw [ih]; ring

/-- All that one register right shift does: half the value with the fill on top, the bottom bit going out. -/
theorem shiftRight1_spec (f : Bool) (v : Register) :
    2 * unsigned (shiftRight1 f v).2 + (shiftRight1 f v).1.toNat = unsigned v + 256 ^ v.length * f.toNat := by
  induction v generalizing f with
  | nil => simp [shiftRight1]
  | cons b bs ih =>
    have t := bshr_spec b f
    have e := ih (bshr b f).1
    simp only [shiftRight1, unsigned_cons, length_shiftRight1, List.length_cons, pow_succ]
    calc _ = 2 * (bshr b f).2.toNat * 256 ^ bs.length
            + (2 * unsigned (shiftRight1 (bshr b f).1 bs).2 + (shiftRight1 (bshr b f).1 bs).1.toNat) := by ring
      _ = (2 * (bshr b f).2.toNat + (bshr b f).1.toNat) * 256 ^ bs.length + unsigned bs := by rw [e]; ring
      _ = _ := by rw [t]; ring

theorem bnot_toNat (b : Byte) : (bnot b).toNat = 255 - b.toNat := by simp [bnot]

/-- All that the complement of every byte does (R98). -/
theorem unsigned_map_bnot (v : Register) : unsigned (v.map bnot) = 256 ^ v.length - 1 - unsigned v := by
  induction v with
  | nil => rfl
  | cons b bs ih =>
    have hb := b.isLt
    have hbs := unsigned_lt bs
    have hp : 0 < 256 ^ bs.length := by positivity
    simp only [List.map_cons, unsigned_cons, List.length_map, bnot_toNat, ih, List.length_cons, pow_succ]
    have : (255 - b.toNat) * 256 ^ bs.length = 255 * 256 ^ bs.length - b.toNat * 256 ^ bs.length := Nat.sub_mul _ _ _
    have : b.toNat * 256 ^ bs.length ≤ 255 * 256 ^ bs.length := Nat.mul_le_mul_right _ (by omega)
    omega

end Sys2Proof.Machine
end

