-- ==== Sys2Proof/Laws/State.lean ====
section
/-! SUPPORT. One lemma per field of `State` per update, so that no later proof unfolds a record update. -/

namespace Sys2Proof.Machine

open Sys2Proof

variable (s : State)

/-! ### setSingle -/

@[simp] theorem setSingle_params (r : SReg) (v : Register) : (s.setSingle r v).params = s.params := by cases r <;> rfl
@[simp] theorem setSingle_c (r : SReg) (v : Register) : (s.setSingle r v).c = s.c := by cases r <;> rfl
@[simp] theorem setSingle_f (r : SReg) (v : Register) : (s.setSingle r v).f = s.f := by cases r <;> rfl
@[simp] theorem setSingle_cause (r : SReg) (v : Register) : (s.setSingle r v).cause = s.cause := by cases r <;> rfl
@[simp] theorem setSingle_cnt (r : SReg) (v : Register) : (s.setSingle r v).cnt = s.cnt := by cases r <;> rfl
@[simp] theorem setSingle_mfmt (r : SReg) (v : Register) : (s.setSingle r v).mfmt = s.mfmt := by cases r <;> rfl
@[simp] theorem setSingle_fcmd (r : SReg) (v : Register) : (s.setSingle r v).fcmd = s.fcmd := by cases r <;> rfl
@[simp] theorem setSingle_dout (r : SReg) (v : Register) : (s.setSingle r v).dout = s.dout := by cases r <;> rfl
@[simp] theorem setSingle_trace (r : SReg) (v : Register) : (s.setSingle r v).trace = s.trace := by cases r <;> rfl
@[simp] theorem setSingle_pending (r : SReg) (v : Register) : (s.setSingle r v).pending = s.pending := by cases r <;> rfl
@[simp] theorem setSingle_index (r : SReg) (v : Register) : (s.setSingle r v).index = s.index := by cases r <;> rfl

/-! ### setDouble -/

@[simp] theorem setDouble_params (r : DReg) (v : Register) : (s.setDouble r v).params = s.params := by cases r <;> rfl
@[simp] theorem setDouble_c (r : DReg) (v : Register) : (s.setDouble r v).c = s.c := by cases r <;> rfl
@[simp] theorem setDouble_f (r : DReg) (v : Register) : (s.setDouble r v).f = s.f := by cases r <;> rfl
@[simp] theorem setDouble_cause (r : DReg) (v : Register) : (s.setDouble r v).cause = s.cause := by cases r <;> rfl
@[simp] theorem setDouble_cnt (r : DReg) (v : Register) : (s.setDouble r v).cnt = s.cnt := by cases r <;> rfl
@[simp] theorem setDouble_mfmt (r : DReg) (v : Register) : (s.setDouble r v).mfmt = s.mfmt := by cases r <;> rfl
@[simp] theorem setDouble_fcmd (r : DReg) (v : Register) : (s.setDouble r v).fcmd = s.fcmd := by cases r <;> rfl
@[simp] theorem setDouble_dout (r : DReg) (v : Register) : (s.setDouble r v).dout = s.dout := by cases r <;> rfl
@[simp] theorem setDouble_trace (r : DReg) (v : Register) : (s.setDouble r v).trace = s.trace := by cases r <;> rfl
@[simp] theorem setDouble_pending (r : DReg) (v : Register) : (s.setDouble r v).pending = s.pending := by cases r <;> rfl
@[simp] theorem setDouble_index (r : DReg) (v : Register) : (s.setDouble r v).index = s.index := by cases r <;> rfl

/-! ### setReg -/

@[simp] theorem setReg_params (r : Reg) (v : Register) : (s.setReg r v).params = s.params := by rcases r with r | r <;> cases r <;> rfl
@[simp] theorem setReg_c (r : Reg) (v : Register) : (s.setReg r v).c = s.c := by rcases r with r | r <;> cases r <;> rfl
@[simp] theorem setReg_f (r : Reg) (v : Register) : (s.setReg r v).f = s.f := by rcases r with r | r <;> cases r <;> rfl
@[simp] theorem setReg_cause (r : Reg) (v : Register) : (s.setReg r v).cause = s.cause := by rcases r with r | r <;> cases r <;> rfl
@[simp] theorem setReg_cnt (r : Reg) (v : Register) : (s.setReg r v).cnt = s.cnt := by rcases r with r | r <;> cases r <;> rfl
@[simp] theorem setReg_mfmt (r : Reg) (v : Register) : (s.setReg r v).mfmt = s.mfmt := by rcases r with r | r <;> cases r <;> rfl
@[simp] theorem setReg_fcmd (r : Reg) (v : Register) : (s.setReg r v).fcmd = s.fcmd := by rcases r with r | r <;> cases r <;> rfl
@[simp] theorem setReg_dout (r : Reg) (v : Register) : (s.setReg r v).dout = s.dout := by rcases r with r | r <;> cases r <;> rfl
@[simp] theorem setReg_trace (r : Reg) (v : Register) : (s.setReg r v).trace = s.trace := by rcases r with r | r <;> cases r <;> rfl
@[simp] theorem setReg_pending (r : Reg) (v : Register) : (s.setReg r v).pending = s.pending := by rcases r with r | r <;> cases r <;> rfl
@[simp] theorem setReg_index (r : Reg) (v : Register) : (s.setReg r v).index = s.index := by rcases r with r | r <;> cases r <;> rfl

/-! ### setHigh -/

@[simp] theorem setHigh_params (r : DReg) (v : Register) : (s.setHigh r v).params = s.params := by cases r <;> rfl
@[simp] theorem setHigh_c (r : DReg) (v : Register) : (s.setHigh r v).c = s.c := by cases r <;> rfl
@[simp] theorem setHigh_f (r : DReg) (v : Register) : (s.setHigh r v).f = s.f := by cases r <;> rfl
@[simp] theorem setHigh_cause (r : DReg) (v : Register) : (s.setHigh r v).cause = s.cause := by cases r <;> rfl
@[simp] theorem setHigh_cnt (r : DReg) (v : Register) : (s.setHigh r v).cnt = s.cnt := by cases r <;> rfl
@[simp] theorem setHigh_mfmt (r : DReg) (v : Register) : (s.setHigh r v).mfmt = s.mfmt := by cases r <;> rfl
@[simp] theorem setHigh_fcmd (r : DReg) (v : Register) : (s.setHigh r v).fcmd = s.fcmd := by cases r <;> rfl
@[simp] theorem setHigh_dout (r : DReg) (v : Register) : (s.setHigh r v).dout = s.dout := by cases r <;> rfl
@[simp] theorem setHigh_trace (r : DReg) (v : Register) : (s.setHigh r v).trace = s.trace := by cases r <;> rfl
@[simp] theorem setHigh_pending (r : DReg) (v : Register) : (s.setHigh r v).pending = s.pending := by cases r <;> rfl
@[simp] theorem setHigh_index (r : DReg) (v : Register) : (s.setHigh r v).index = s.index := by cases r <;> rfl

/-! ### setLow -/

@[simp] theorem setLow_params (r : DReg) (v : Register) : (s.setLow r v).params = s.params := by cases r <;> rfl
@[simp] theorem setLow_c (r : DReg) (v : Register) : (s.setLow r v).c = s.c := by cases r <;> rfl
@[simp] theorem setLow_f (r : DReg) (v : Register) : (s.setLow r v).f = s.f := by cases r <;> rfl
@[simp] theorem setLow_cause (r : DReg) (v : Register) : (s.setLow r v).cause = s.cause := by cases r <;> rfl
@[simp] theorem setLow_cnt (r : DReg) (v : Register) : (s.setLow r v).cnt = s.cnt := by cases r <;> rfl
@[simp] theorem setLow_mfmt (r : DReg) (v : Register) : (s.setLow r v).mfmt = s.mfmt := by cases r <;> rfl
@[simp] theorem setLow_fcmd (r : DReg) (v : Register) : (s.setLow r v).fcmd = s.fcmd := by cases r <;> rfl
@[simp] theorem setLow_dout (r : DReg) (v : Register) : (s.setLow r v).dout = s.dout := by cases r <;> rfl
@[simp] theorem setLow_trace (r : DReg) (v : Register) : (s.setLow r v).trace = s.trace := by cases r <;> rfl
@[simp] theorem setLow_pending (r : DReg) (v : Register) : (s.setLow r v).pending = s.pending := by cases r <;> rfl
@[simp] theorem setLow_index (r : DReg) (v : Register) : (s.setLow r v).index = s.index := by cases r <;> rfl

/-! ### setCarry -/

@[simp] theorem setCarry_params (b : Bool) : (s.setCarry b).params = s.params := rfl
@[simp] theorem setCarry_c (b : Bool) : (s.setCarry b).c = b := rfl
@[simp] theorem setCarry_f (b : Bool) : (s.setCarry b).f = s.f := rfl
@[simp] theorem setCarry_cause (b : Bool) : (s.setCarry b).cause = s.cause := rfl
@[simp] theorem setCarry_cnt (b : Bool) : (s.setCarry b).cnt = s.cnt := rfl
@[simp] theorem setCarry_mfmt (b : Bool) : (s.setCarry b).mfmt = s.mfmt := rfl
@[simp] theorem setCarry_fcmd (b : Bool) : (s.setCarry b).fcmd = s.fcmd := rfl
@[simp] theorem setCarry_dout (b : Bool) : (s.setCarry b).dout = s.dout := rfl
@[simp] theorem setCarry_trace (b : Bool) : (s.setCarry b).trace = s.trace := rfl
@[simp] theorem setCarry_pending (b : Bool) : (s.setCarry b).pending = s.pending := rfl
@[simp] theorem setCarry_index (b : Bool) : (s.setCarry b).index = s.index := rfl
@[simp] theorem setCarry_single (b : Bool) (q : SReg) : (s.setCarry b).single q = s.single q := by cases q <;> rfl
@[simp] theorem setCarry_double (b : Bool) (q : DReg) : (s.setCarry b).double q = s.double q := by cases q <;> rfl
@[simp] theorem setCarry_reg (b : Bool) (q : Reg) : (s.setCarry b).reg q = s.reg q := by
  rcases q with q | q <;> cases q <;> rfl

/-! ### emit -/

@[simp] theorem emit_params (bs : List Byte) : (s.emit bs).params = s.params := rfl
@[simp] theorem emit_c (bs : List Byte) : (s.emit bs).c = s.c := rfl
@[simp] theorem emit_f (bs : List Byte) : (s.emit bs).f = s.f := rfl
@[simp] theorem emit_cause (bs : List Byte) : (s.emit bs).cause = s.cause := rfl
@[simp] theorem emit_cnt (bs : List Byte) : (s.emit bs).cnt = s.cnt := rfl
@[simp] theorem emit_mfmt (bs : List Byte) : (s.emit bs).mfmt = s.mfmt := rfl
@[simp] theorem emit_fcmd (bs : List Byte) : (s.emit bs).fcmd = s.fcmd := rfl
@[simp] theorem emit_dout (bs : List Byte) : (s.emit bs).dout = s.dout ++ bs := rfl
@[simp] theorem emit_trace (bs : List Byte) : (s.emit bs).trace = s.trace := rfl
@[simp] theorem emit_pending (bs : List Byte) : (s.emit bs).pending = s.pending := rfl
@[simp] theorem emit_index (bs : List Byte) : (s.emit bs).index = s.index := rfl
@[simp] theorem emit_single (bs : List Byte) (q : SReg) : (s.emit bs).single q = s.single q := by cases q <;> rfl
@[simp] theorem emit_double (bs : List Byte) (q : DReg) : (s.emit bs).double q = s.double q := by cases q <;> rfl
@[simp] theorem emit_reg (bs : List Byte) (q : Reg) : (s.emit bs).reg q = s.reg q := by
  rcases q with q | q <;> cases q <;> rfl

/-! ### record -/

@[simp] theorem record_params (rs : List StepRecord) : (s.record rs).params = s.params := rfl
@[simp] theorem record_c (rs : List StepRecord) : (s.record rs).c = s.c := rfl
@[simp] theorem record_f (rs : List StepRecord) : (s.record rs).f = s.f := rfl
@[simp] theorem record_cause (rs : List StepRecord) : (s.record rs).cause = s.cause := rfl
@[simp] theorem record_cnt (rs : List StepRecord) : (s.record rs).cnt = s.cnt := rfl
@[simp] theorem record_mfmt (rs : List StepRecord) : (s.record rs).mfmt = s.mfmt := rfl
@[simp] theorem record_fcmd (rs : List StepRecord) : (s.record rs).fcmd = s.fcmd := rfl
@[simp] theorem record_dout (rs : List StepRecord) : (s.record rs).dout = s.dout := rfl
@[simp] theorem record_trace (rs : List StepRecord) : (s.record rs).trace = s.trace ++ rs := rfl
@[simp] theorem record_pending (rs : List StepRecord) : (s.record rs).pending = s.pending := rfl
@[simp] theorem record_index (rs : List StepRecord) : (s.record rs).index = s.index := rfl
@[simp] theorem record_single (rs : List StepRecord) (q : SReg) : (s.record rs).single q = s.single q := by cases q <;> rfl
@[simp] theorem record_double (rs : List StepRecord) (q : DReg) : (s.record rs).double q = s.double q := by cases q <;> rfl
@[simp] theorem record_reg (rs : List StepRecord) (q : Reg) : (s.record rs).reg q = s.reg q := by
  rcases q with q | q <;> cases q <;> rfl

/-! ### setCnt -/

@[simp] theorem setCnt_params (n : Nat) : (s.setCnt n).params = s.params := rfl
@[simp] theorem setCnt_c (n : Nat) : (s.setCnt n).c = s.c := rfl
@[simp] theorem setCnt_f (n : Nat) : (s.setCnt n).f = s.f := rfl
@[simp] theorem setCnt_cause (n : Nat) : (s.setCnt n).cause = s.cause := rfl
@[simp] theorem setCnt_cnt (n : Nat) : (s.setCnt n).cnt = BitVec.ofNat 8 n := rfl
@[simp] theorem setCnt_mfmt (n : Nat) : (s.setCnt n).mfmt = s.mfmt := rfl
@[simp] theorem setCnt_fcmd (n : Nat) : (s.setCnt n).fcmd = s.fcmd := rfl
@[simp] theorem setCnt_dout (n : Nat) : (s.setCnt n).dout = s.dout := rfl
@[simp] theorem setCnt_trace (n : Nat) : (s.setCnt n).trace = s.trace := rfl
@[simp] theorem setCnt_pending (n : Nat) : (s.setCnt n).pending = s.pending := rfl
@[simp] theorem setCnt_index (n : Nat) : (s.setCnt n).index = s.index := rfl
@[simp] theorem setCnt_single (n : Nat) (q : SReg) : (s.setCnt n).single q = s.single q := by cases q <;> rfl
@[simp] theorem setCnt_double (n : Nat) (q : DReg) : (s.setCnt n).double q = s.double q := by cases q <;> rfl
@[simp] theorem setCnt_reg (n : Nat) (q : Reg) : (s.setCnt n).reg q = s.reg q := by
  rcases q with q | q <;> cases q <;> rfl

/-! ### setMfmt -/

@[simp] theorem setMfmt_params (h : Bool) (bu : BitVec 6) (dw : BitVec 4) : (s.setMfmt h bu dw).params = s.params := rfl
@[simp] theorem setMfmt_c (h : Bool) (bu : BitVec 6) (dw : BitVec 4) : (s.setMfmt h bu dw).c = s.c := rfl
@[simp] theorem setMfmt_f (h : Bool) (bu : BitVec 6) (dw : BitVec 4) : (s.setMfmt h bu dw).f = s.f := rfl
@[simp] theorem setMfmt_cause (h : Bool) (bu : BitVec 6) (dw : BitVec 4) : (s.setMfmt h bu dw).cause = s.cause := rfl
@[simp] theorem setMfmt_cnt (h : Bool) (bu : BitVec 6) (dw : BitVec 4) : (s.setMfmt h bu dw).cnt = s.cnt := rfl
@[simp] theorem setMfmt_mfmt (h : Bool) (bu : BitVec 6) (dw : BitVec 4) : (s.setMfmt h bu dw).mfmt = 0#5 ++ BitVec.ofBool h ++ bu ++ dw := rfl
@[simp] theorem setMfmt_fcmd (h : Bool) (bu : BitVec 6) (dw : BitVec 4) : (s.setMfmt h bu dw).fcmd = s.fcmd := rfl
@[simp] theorem setMfmt_dout (h : Bool) (bu : BitVec 6) (dw : BitVec 4) : (s.setMfmt h bu dw).dout = s.dout := rfl
@[simp] theorem setMfmt_trace (h : Bool) (bu : BitVec 6) (dw : BitVec 4) : (s.setMfmt h bu dw).trace = s.trace := rfl
@[simp] theorem setMfmt_pending (h : Bool) (bu : BitVec 6) (dw : BitVec 4) : (s.setMfmt h bu dw).pending = s.pending := rfl
@[simp] theorem setMfmt_index (h : Bool) (bu : BitVec 6) (dw : BitVec 4) : (s.setMfmt h bu dw).index = s.index := rfl
@[simp] theorem setMfmt_single (h : Bool) (bu : BitVec 6) (dw : BitVec 4) (q : SReg) : (s.setMfmt h bu dw).single q = s.single q := by cases q <;> rfl
@[simp] theorem setMfmt_double (h : Bool) (bu : BitVec 6) (dw : BitVec 4) (q : DReg) : (s.setMfmt h bu dw).double q = s.double q := by cases q <;> rfl
@[simp] theorem setMfmt_reg (h : Bool) (bu : BitVec 6) (dw : BitVec 4) (q : Reg) : (s.setMfmt h bu dw).reg q = s.reg q := by
  rcases q with q | q <;> cases q <;> rfl

/-! ### takeFault -/

@[simp] theorem takeFault_params (x : Cause) (w : Word) : (takeFault x w s).params = s.params := rfl
@[simp] theorem takeFault_c (x : Cause) (w : Word) : (takeFault x w s).c = s.c := rfl
@[simp] theorem takeFault_f (x : Cause) (w : Word) : (takeFault x w s).f = true := rfl
@[simp] theorem takeFault_cause (x : Cause) (w : Word) : (takeFault x w s).cause = x.code := rfl
@[simp] theorem takeFault_cnt (x : Cause) (w : Word) : (takeFault x w s).cnt = s.cnt := rfl
@[simp] theorem takeFault_mfmt (x : Cause) (w : Word) : (takeFault x w s).mfmt = s.mfmt := rfl
@[simp] theorem takeFault_fcmd (x : Cause) (w : Word) : (takeFault x w s).fcmd = w := rfl
@[simp] theorem takeFault_dout (x : Cause) (w : Word) : (takeFault x w s).dout = s.dout := rfl
@[simp] theorem takeFault_trace (x : Cause) (w : Word) : (takeFault x w s).trace = s.trace := rfl
@[simp] theorem takeFault_pending (x : Cause) (w : Word) : (takeFault x w s).pending = s.pending := rfl
@[simp] theorem takeFault_index (x : Cause) (w : Word) : (takeFault x w s).index = s.index := rfl
@[simp] theorem takeFault_single (x : Cause) (w : Word) (q : SReg) : (takeFault x w s).single q = s.single q := by cases q <;> rfl
@[simp] theorem takeFault_double (x : Cause) (w : Word) (q : DReg) : (takeFault x w s).double q = s.double q := by cases q <;> rfl
@[simp] theorem takeFault_reg (x : Cause) (w : Word) (q : Reg) : (takeFault x w s).reg q = s.reg q := by
  rcases q with q | q <;> cases q <;> rfl

/-! ### applyReset -/

@[simp] theorem applyReset_params : (applyReset s).params = s.params := rfl
@[simp] theorem applyReset_c : (applyReset s).c = false := rfl
@[simp] theorem applyReset_f : (applyReset s).f = false := rfl
@[simp] theorem applyReset_cause : (applyReset s).cause = 0#8 := rfl
@[simp] theorem applyReset_cnt : (applyReset s).cnt = 0#8 := rfl
@[simp] theorem applyReset_mfmt : (applyReset s).mfmt = 0x00C4#16 := rfl
@[simp] theorem applyReset_fcmd : (applyReset s).fcmd = 0#16 := rfl
@[simp] theorem applyReset_dout : (applyReset s).dout = [] := rfl
@[simp] theorem applyReset_trace : (applyReset s).trace = [] := rfl
@[simp] theorem applyReset_pending : (applyReset s).pending = s.pending := rfl
@[simp] theorem applyReset_index : (applyReset s).index = s.index := rfl

/-! ### present -/

@[simp] theorem present_params (e : HostEvent) : (present e s).params = s.params := rfl
@[simp] theorem present_c (e : HostEvent) : (present e s).c = s.c := rfl
@[simp] theorem present_f (e : HostEvent) : (present e s).f = s.f := rfl
@[simp] theorem present_cause (e : HostEvent) : (present e s).cause = s.cause := rfl
@[simp] theorem present_cnt (e : HostEvent) : (present e s).cnt = s.cnt := rfl
@[simp] theorem present_mfmt (e : HostEvent) : (present e s).mfmt = s.mfmt := rfl
@[simp] theorem present_fcmd (e : HostEvent) : (present e s).fcmd = s.fcmd := rfl
@[simp] theorem present_dout (e : HostEvent) : (present e s).dout = s.dout := rfl
@[simp] theorem present_trace (e : HostEvent) : (present e s).trace = s.trace := rfl
@[simp] theorem present_pending (e : HostEvent) : (present e s).pending = e :: s.pending := rfl
@[simp] theorem present_index (e : HostEvent) : (present e s).index = s.index := rfl
@[simp] theorem present_single (e : HostEvent) (q : SReg) : (present e s).single q = s.single q := by cases q <;> rfl
@[simp] theorem present_double (e : HostEvent) (q : DReg) : (present e s).double q = s.double q := by cases q <;> rfl
@[simp] theorem present_reg (e : HostEvent) (q : Reg) : (present e s).reg q = s.reg q := by
  rcases q with q | q <;> cases q <;> rfl

/-! ### Reading a register after writing one (10_state.md R11, R12: no two registers share storage) -/

@[simp] theorem setSingle_single (r q : SReg) (v : Register) :
    (s.setSingle r v).single q = if q = r then v else s.single q := by
  cases r <;> cases q <;> rfl

@[simp] theorem setSingle_double (r : SReg) (q : DReg) (v : Register) :
    (s.setSingle r v).double q = s.double q := by
  cases r <;> cases q <;> rfl

@[simp] theorem setDouble_single (r : DReg) (q : SReg) (v : Register) :
    (s.setDouble r v).single q = s.single q := by
  cases r <;> cases q <;> rfl

@[simp] theorem setDouble_double (r q : DReg) (v : Register) :
    (s.setDouble r v).double q = if q = r then v else s.double q := by
  cases r <;> cases q <;> rfl

@[simp] theorem setReg_reg (r q : Reg) (v : Register) :
    (s.setReg r v).reg q = if q = r then v else s.reg q := by
  rcases r with r | r <;> rcases q with q | q <;> cases r <;> cases q <;> rfl

@[simp] theorem setSingle_reg (r : SReg) (q : Reg) (v : Register) :
    (s.setSingle r v).reg q = if q = .single r then v else s.reg q :=
  setReg_reg s (.single r) q v

@[simp] theorem setDouble_reg (r : DReg) (q : Reg) (v : Register) :
    (s.setDouble r v).reg q = if q = .double r then v else s.reg q :=
  setReg_reg s (.double r) q v

/-- After reset every register is zero bytes (10_state.md R27). -/
@[simp] theorem applyReset_reg (q : Reg) :
    (applyReset s).reg q = List.replicate (s.params.width.ofReg q) 0#8 := by
  rcases q with q | q <;> cases q <;> rfl

/-! ### Reading and writing by class -/

@[simp] theorem reg_single (r : SReg) : s.reg (.single r) = s.single r := rfl
@[simp] theorem reg_double (r : DReg) : s.reg (.double r) = s.double r := rfl
@[simp] theorem setReg_eq_setSingle (r : SReg) (v : Register) : s.setReg (.single r) v = s.setSingle r v := rfl
@[simp] theorem setReg_eq_setDouble (r : DReg) (v : Register) : s.setReg (.double r) v = s.setDouble r v := rfl
@[simp] theorem widthOf_single (r : SReg) : s.widthOf (.single r) = s.params.width.bytes := rfl
@[simp] theorem widthOf_double (r : DReg) : s.widthOf (.double r) = 2 * s.params.width.bytes := rfl

end Sys2Proof.Machine
end

