-- ==== Sys2Proof/Laws/Step.lean ====
section
/-! SUPPORT. What the template of a command, the fetch and one step can do, said once. -/

namespace Sys2Proof.Machine

open Sys2Proof

/-- All that the template of a command can do (41_register_ops.md R110): nothing in the fault state, the command's result,
or the fault entry from the state before the command. -/
theorem runCommand_cases (w : Word) (s : State) (r : Except Cause State) :
    (s.f = true ∧ runCommand w s r = .next s) ∨
    (s.f = false ∧ ∃ t, r = .ok t ∧ runCommand w s r = .next t) ∨
    (s.f = false ∧ ∃ x, r = .error x ∧ runCommand w s r = .next (takeFault x w s)) := by
  cases hf : s.f with
  | true => exact .inl ⟨rfl, by simp [runCommand, hf]⟩
  | false =>
    cases r with
    | ok t => exact .inr (.inl ⟨rfl, t, rfl, by simp [runCommand, hf]⟩)
    | error x => exact .inr (.inr ⟨rfl, x, rfl, by simp [runCommand, hf]⟩)

/-- In the fault state a command is ignored (60_exceptions.md R236). -/
theorem runCommand_ignored {w : Word} {s : State} {r : Except Cause State} (h : s.f = true) :
    runCommand w s r = .next s := by simp [runCommand, h]

/-- A command whose rule gives a result completes with it. -/
theorem runCommand_ok {w : Word} {s t : State} (h : s.f = false) : runCommand w s (.ok t) = .next t := by
  simp [runCommand, h]

/-- A command whose rule raises a fault enters the fault state (60_exceptions.md R235). -/
theorem runCommand_error {w : Word} {s : State} {x : Cause} (h : s.f = false) :
    runCommand w s (.error x) = .next (takeFault x w s) := by
  simp [runCommand, h]

/-- All that one step can do. -/
theorem step_cases (s : State) :
    (s.pending = [] ∧ step s = .next s) ∨
    (∃ rest, s.pending = .reset :: rest ∧ step s = .next (applyReset { s with pending := rest })) ∨
    (∃ c rest i, s.pending = .command c :: rest ∧ decode s.params.width c = .ok i ∧
      step s = exec i { s with pending := rest, index := s.index + 1 }) ∨
    (∃ c rest e, s.pending = .command c :: rest ∧ decode s.params.width c = .error e ∧
      step s = rejectCommand c.word { s with pending := rest, index := s.index + 1 }) := by
  rcases hp : s.pending with _ | ⟨e, rest⟩
  · exact .inl ⟨rfl, by simp [step, fetch, hp]⟩
  · cases e with
    | reset => exact .inr (.inl ⟨rest, rfl, by simp [step, fetch, hp]⟩)
    | command c =>
      cases hd : decode s.params.width c with
      | ok i => exact .inr (.inr (.inl ⟨c, rest, i, rfl, hd, by simp [step, fetch, hp, stepCommand, hd]⟩))
      | error e => exact .inr (.inr (.inr ⟨c, rest, e, rfl, hd, by simp [step, fetch, hp, stepCommand, hd]⟩))

/-- What `withFetchWord` presents is what the next step takes. -/
theorem fetch_withFetchWord (s : State) (nbits w : Nat) :
    fetch (s.withFetchWord nbits w) =
      some (.command (tableCommand s.params.width nbits w), { s with index := s.index + 1 }) := rfl

end Sys2Proof.Machine
end

