-- ==== Sys2Proof/Laws/Operands.lean ====
section
/-! SUPPORT. What the operand forms and the multi-bit shifts do, each said once. -/

namespace Sys2Proof.Machine

open Sys2Proof

/-! ### Widths -/

theorem Width.bytes_pos (w : Width) : 2 ≤ w.bytes := by cases w <;> decide

theorem single_length {s : State} (h : s.RegsSized) (r : SReg) : (s.single r).length = s.params.width.bytes := by
  cases r <;> simp [State.single, h]

theorem double_length {s : State} (h : s.RegsSized) (r : DReg) : (s.double r).length = 2 * s.params.width.bytes := by
  cases r <;> simp [State.double, h]

theorem reg_length {s : State} (h : s.RegsSized) (r : Reg) : (s.reg r).length = s.widthOf r := by
  rcases r with r | r
  · exact single_length h r
  · exact double_length h r

/-- The invariant on widths, as a statement about every register. -/
theorem regsSized_iff (s : State) : s.RegsSized ↔ ∀ r, (s.reg r).length = s.widthOf r := by
  refine ⟨fun h => reg_length h, fun h => ?_⟩
  exact ⟨h (.single .s0), h (.single .s1), h (.single .s2), h (.single .s3), h (.double .d0), h (.double .d1)⟩

theorem setReg_regsSized {s : State} (h : s.RegsSized) (r : Reg) {v : Register} (hv : v.length = s.widthOf r) :
    (s.setReg r v).RegsSized := by
  rw [regsSized_iff] at h ⊢
  intro q
  rw [setReg_reg]
  by_cases hq : q = r
  · simpa [hq, State.widthOf] using hv
  · simpa [hq, State.widthOf] using h q

theorem value_lt {s : State} (h : s.RegsSized) (r : Reg) : s.value r < 2 ^ s.bitsOf r := by
  have := unsigned_lt (s.reg r)
  rwa [reg_length h, pow_256] at this

/-- A register is the bytes of its value. -/
theorem toBytes_value {s : State} (h : s.RegsSized) (r : Reg) : toBytes (s.widthOf r) (s.value r) = s.reg r := by
  rw [← reg_length h r]
  exact toBytes_unsigned _

/-! ### Halves (10_state.md R12) -/

theorem high_length {s : State} (h : s.RegsSized) (r : DReg) : (s.high r).length = s.params.width.bytes := by
  simp [State.high, double_length h]
  omega

theorem low_length {s : State} (h : s.RegsSized) (r : DReg) : (s.low r).length = s.params.width.bytes := by
  simp [State.low, double_length h]
  omega

theorem unsigned_high {s : State} (h : s.RegsSized) (r : DReg) :
    unsigned (s.high r) = s.value (.double r) / 2 ^ s.nBits := by
  have e : 2 * s.params.width.bytes - s.params.width.bytes = s.params.width.bytes := by omega
  simp [State.high, State.value, State.nBits, Width.bits, unsigned_take, double_length h, e, pow_256]

theorem unsigned_low {s : State} (h : s.RegsSized) (r : DReg) :
    unsigned (s.low r) = s.value (.double r) % 2 ^ s.nBits := by
  have e : 2 * s.params.width.bytes - s.params.width.bytes = s.params.width.bytes := by omega
  simp [State.low, State.value, State.nBits, Width.bits, unsigned_drop, double_length h, e, pow_256]

/-- All that a write through the high half view does. -/
theorem setHigh_eq {s : State} (h : s.RegsSized) (r : DReg) {v : Register} (hv : v.length = s.params.width.bytes) :
    s.setHigh r v = s.setDouble r (toBytes (2 * s.params.width.bytes)
      (unsigned v * 2 ^ s.nBits + s.value (.double r) % 2 ^ s.nBits)) := by
  have hl := low_length h r
  have e : unsigned (v ++ s.low r) = unsigned v * 2 ^ s.nBits + s.value (.double r) % 2 ^ s.nBits := by
    rw [unsigned_append, hl, unsigned_low h, pow_256]
    rfl
  unfold State.setHigh
  congr 1
  refine eq_toBytes (by simp [hv, hl]; omega) ?_
  rw [← e, Nat.mod_eq_of_lt]
  have := unsigned_lt (v ++ s.low r)
  simpa [hv, hl, two_mul] using this

/-- All that a write through the low half view does. -/
theorem setLow_eq {s : State} (h : s.RegsSized) (r : DReg) {v : Register} (hv : v.length = s.params.width.bytes) :
    s.setLow r v = s.setDouble r (toBytes (2 * s.params.width.bytes)
      (s.value (.double r) / 2 ^ s.nBits * 2 ^ s.nBits + unsigned v)) := by
  have hh := high_length h r
  have e : unsigned (s.high r ++ v) = s.value (.double r) / 2 ^ s.nBits * 2 ^ s.nBits + unsigned v := by
    rw [unsigned_append, hv, unsigned_high h, pow_256]
    rfl
  unfold State.setLow
  congr 1
  refine eq_toBytes (by simp [hv, hh]; omega) ?_
  rw [← e, Nat.mod_eq_of_lt]
  have := unsigned_lt (s.high r ++ v)
  simpa [hv, hh, two_mul] using this

/-! ### The operand checks -/

/-- All that the width rule of COPY does (60_exceptions.md R228). -/
theorem requireSameWidth_eq (s : State) (rd rs : Reg) :
    requireSameWidth s rd rs = if s.widthOf rd = s.widthOf rs then .ok () else .error .widthMismatch := rfl

/-- All that the width rule of ADD and SUB does (60_exceptions.md R228). -/
theorem requireNotWider_cases (s : State) (rd rs : Reg) :
    (s.widthOf rs ≤ s.widthOf rd ∧ requireNotWider s rd rs = .ok ()) ∨
    (s.widthOf rd < s.widthOf rs ∧ requireNotWider s rd rs = .error .widthMismatch) := by
  unfold requireNotWider
  by_cases h : s.widthOf rs > s.widthOf rd
  · exact .inr ⟨h, by simp [h]⟩
  · exact .inl ⟨by omega, by simp [h]⟩

/-- All that the operand of ADDH and SUBH can be (41_register_ops.md R120): the fault, or a value of one half's width. -/
theorem highOperand_cases {s : State} (h : s.RegsSized) (rs : Reg) (trunc : Bool) :
    (2 ^ s.nBits ≤ s.value rs ∧ trunc = false ∧ highOperand s rs trunc = .error .highOverflow) ∨
    (¬ (2 ^ s.nBits ≤ s.value rs ∧ trunc = false) ∧ ∃ o, highOperand s rs trunc = .ok o ∧
      o.length = s.params.width.bytes ∧ unsigned o = s.value rs % 2 ^ s.nBits) := by
  have hp : 0 < 2 ^ s.nBits := by positivity
  rcases rs with r | r
  · have hlt : s.value (.single r) < 2 ^ s.nBits := value_lt h (.single r)
    exact .inr ⟨by omega, s.single r, rfl, single_length h r, (Nat.mod_eq_of_lt hlt).symm⟩
  · have hz : unsigned (s.high r) ≠ 0 ↔ 2 ^ s.nBits ≤ s.value (.double r) := by
      rw [unsigned_high h, Nat.div_ne_zero_iff]
      omega
    by_cases hc : 2 ^ s.nBits ≤ s.value (.double r) ∧ trunc = false
    · exact .inl ⟨hc.1, hc.2, by simp only [highOperand, hz, hc, if_true, and_self]⟩
    · exact .inr ⟨hc, s.low r, by simp only [highOperand, hz, hc, if_false], low_length h r, unsigned_low h r⟩

/-- The operand of ADDH and SUBH is a value or `HighOverflow`, in every state. -/
theorem highOperand_outcome (s : State) (rs : Reg) (trunc : Bool) :
    (∃ o, highOperand s rs trunc = .ok o) ∨ highOperand s rs trunc = .error .highOverflow := by
  rcases rs with r | r
  · exact .inl ⟨_, rfl⟩
  · by_cases h : unsigned (s.high r) ≠ 0 ∧ trunc = false
    · exact .inr (if_pos h)
    · exact .inl ⟨_, if_neg h⟩

/-- All that the byte index check does (41_register_ops.md R126). -/
theorem requireByte_cases (s : State) (rd : Reg) (bi : Nat) :
    (bi < s.widthOf rd ∧ requireByte s rd bi = .ok ()) ∨
    (s.widthOf rd ≤ bi ∧ requireByte s rd bi = .error .operandRange) := by
  unfold requireByte
  by_cases h : bi ≥ s.widthOf rd
  · exact .inr ⟨h, by simp [h]⟩
  · exact .inl ⟨by omega, by simp [h]⟩

/-- A bit write is a register write or `OperandRange`, in every state. -/
theorem putBit_outcome (s : State) (rd : Reg) (bi k : Nat) (b : Bool) :
    (∃ v, putBit s rd bi k b = .ok (s.setReg rd v)) ∨ putBit s rd bi k b = .error .operandRange := by
  unfold putBit
  rcases requireByte_cases s rd bi with ⟨-, h⟩ | ⟨-, h⟩ <;> rw [h]
  · by_cases hk : k > 7
    · exact .inr (by simp [bput, hk]; rfl)
    · exact .inl ⟨_, by simp only [bput, if_neg hk]; rfl⟩
  · exact .inr rfl

/-! ### Multi-bit shifts (41_register_ops.md R122, R123) -/

@[simp] theorem length_shiftLeftBy (f : Bool) (k : Nat) (c : Bool) (v : Register) :
    (shiftLeftBy f k c v).2.length = v.length := by
  induction k generalizing c v with
  | zero => rfl
  | succ k ih => simp [shiftLeftBy, ih]

@[simp] theorem length_shiftRightBy (f : ShrFill) (k : Nat) (c : Bool) (v : Register) :
    (shiftRightBy f k c v).2.length = v.length := by
  induction k generalizing c v with
  | zero => rfl
  | succ k ih => simp [shiftRightBy, ih]

/-- The value after a left shift: the fill bits enter below, the rest is cut at the register's width. -/
theorem unsigned_shiftLeftBy (f : Bool) (k : Nat) (c : Bool) (v : Register) :
    unsigned (shiftLeftBy f k c v).2 =
      (unsigned v * 2 ^ k + (if f then 2 ^ k - 1 else 0)) % 256 ^ v.length := by
  induction k generalizing c v with
  | zero => simp [shiftLeftBy, Nat.mod_eq_of_lt (unsigned_lt v)]
  | succ k ih =>
    have e := shiftLeft1_spec f v
    have hp : 1 ≤ 2 ^ k := Nat.one_le_two_pow
    rw [shiftLeftBy, ih, length_shiftLeft1]
    have key : unsigned v * 2 ^ (k + 1) + (if f then 2 ^ (k + 1) - 1 else 0) =
        unsigned (shiftLeft1 f v).2 * 2 ^ k + (if f then 2 ^ k - 1 else 0) +
          256 ^ v.length * ((shiftLeft1 f v).1.toNat * 2 ^ k) := by
      cases f
      · simp at e ⊢
        calc _ = 2 * unsigned v * 2 ^ k := by rw [pow_succ]; ring
          _ = _ := by rw [← e]; ring
      · simp at e ⊢
        have : 2 ^ (k + 1) - 1 = 2 ^ k + (2 ^ k - 1) := by rw [pow_succ]; omega
        calc _ = (2 * unsigned v + 1) * 2 ^ k + (2 ^ k - 1) := by rw [this, pow_succ]; ring
          _ = _ := by rw [← e]; ring
    rw [key, Nat.add_mul_mod_self_left]

/-- The bit that leaves a one-bit left shift is the top bit, and the value is twice the old with the fill below. -/
theorem shiftLeft1_out (f : Bool) {v : Register} (hv : v ≠ []) :
    (shiftLeft1 f v).1 = (unsigned v).testBit (8 * v.length - 1) := by
  have e := shiftLeft1_spec f v
  have hlt := unsigned_lt (shiftLeft1 f v).2
  have hu := unsigned_lt v
  rw [length_shiftLeft1] at hlt
  have hl : 0 < v.length := List.length_pos_of_ne_nil hv
  have hp : 256 ^ v.length = 2 * 2 ^ (8 * v.length - 1) := by
    rw [pow_256, ← pow_succ']
    congr 1
    omega
  rw [Nat.testBit_eq_decide_div_mod_eq]
  rw [hp] at e hlt hu
  have hm : 0 < 2 ^ (8 * v.length - 1) := by positivity
  generalize 2 ^ (8 * v.length - 1) = m at *
  have hf : f.toNat ≤ 1 := by cases f <;> simp
  have hd : unsigned v / m = if m ≤ unsigned v then 1 else 0 := by
    split
    · exact Nat.div_eq_of_lt_le (by omega) (by omega)
    · exact Nat.div_eq_of_lt (by omega)
  rw [hd]
  by_cases h : m ≤ unsigned v <;> cases hb : (shiftLeft1 f v).1 <;> simp [h, hb] at e ⊢ <;> omega

/-- The flag after a left shift by `k`: the last bit out (41_register_ops.md R122). -/
theorem shiftLeftBy_out (f : Bool) (k : Nat) (c : Bool) (v : Register) (hv : v ≠ []) :
    (shiftLeftBy f k c v).1 =
      if k = 0 then c else if k ≤ 8 * v.length then (unsigned v).testBit (8 * v.length - k) else f := by
  induction k generalizing c v with
  | zero => simp [shiftLeftBy]
  | succ k ih =>
    have hl : 0 < v.length := List.length_pos_of_ne_nil hv
    have hv' : (shiftLeft1 f v).2 ≠ [] := by
      intro h
      have := length_shiftLeft1 f v
      simp [h] at this
      omega
    have hval : unsigned (shiftLeft1 f v).2 = (2 * unsigned v + f.toNat) % 2 ^ (8 * v.length) := by
      have := unsigned_shiftLeftBy f 1 false v
      rw [pow_256] at this
      simp only [shiftLeftBy] at this
      rw [this, pow_one, mul_comm]
      cases f <;> rfl
    rw [shiftLeftBy, ih _ _ hv', length_shiftLeft1, hval]
    rcases Nat.eq_zero_or_pos k with rfl | hk
    · simp [shiftLeft1_out f hv, show 1 ≤ 8 * v.length by omega]
    · have hf : f.toNat ≤ 1 := by cases f <;> simp
      rw [if_neg (show ¬k = 0 by omega), if_neg (show ¬k + 1 = 0 by omega)]
      by_cases h1 : k + 1 ≤ 8 * v.length
      · rw [if_pos (by omega), if_pos h1, Nat.testBit_mod_two_pow, show 8 * v.length - k = (8 * v.length - (k + 1)) + 1 by omega,
          Nat.testBit_succ, show (2 * unsigned v + f.toNat) / 2 = unsigned v by omega]
        simp
        omega
      · rw [if_neg h1]
        by_cases h2 : k ≤ 8 * v.length
        · rw [if_pos h2, Nat.testBit_mod_two_pow, show 8 * v.length - k = 0 by omega, Nat.testBit_zero]
          cases f <;> simp
          omega
        · rw [if_neg h2]

/-- The fill of SHR does not change while it shifts. -/
theorem shrFillBit_shiftRight1 (f : ShrFill) {v : Register} (hv : v ≠ []) :
    shrFillBit f (shiftRight1 (shrFillBit f v) v).2 = shrFillBit f v := by
  cases f with
  | zero => rfl
  | one => rfl
  | sign =>
    cases v with
    | nil => exact absurd rfl hv
    | cons b bs =>
      simp only [shrFillBit, shiftRight1, msb, bshr]
      clear hv
      cases b.getLsbD 7 <;> revert b <;> decide +kernel

/-- The bit that leaves a one-bit right shift is the bottom bit, and the value is half the old with the fill on top. -/
theorem shiftRight1_out (f : Bool) {v : Register} (hv : v ≠ []) :
    (shiftRight1 f v).1 = (unsigned v).testBit 0 ∧
    unsigned (shiftRight1 f v).2 = unsigned v / 2 + 2 ^ (8 * v.length - 1) * f.toNat := by
  have e := shiftRight1_spec f v
  have hl : 0 < v.length := List.length_pos_of_ne_nil hv
  have hp : 256 ^ v.length = 2 * 2 ^ (8 * v.length - 1) := by
    rw [pow_256, ← pow_succ']
    congr 1
    omega
  rw [hp, mul_assoc] at e
  rw [Nat.testBit_zero]
  generalize 2 ^ (8 * v.length - 1) * f.toNat = m at *
  cases hb : (shiftRight1 f v).1 <;> simp [hb] at e ⊢ <;> omega

/-- The value after a right shift by `k`. -/
theorem unsigned_shiftRightBy (f : ShrFill) (k : Nat) (c : Bool) (v : Register) (hv : v ≠ []) :
    unsigned (shiftRightBy f k c v).2 = unsigned v / 2 ^ k +
      (if shrFillBit f v then 2 ^ (8 * v.length) - 2 ^ (8 * v.length - min k (8 * v.length)) else 0) := by
  induction k generalizing c v with
  | zero => simp [shiftRightBy]
  | succ k ih =>
    have hl : 0 < v.length := List.length_pos_of_ne_nil hv
    have hv' : (shiftRight1 (shrFillBit f v) v).2 ≠ [] := by
      intro h
      have := length_shiftRight1 (shrFillBit f v) v
      simp [h] at this
      omega
    rw [shiftRightBy, ih _ _ hv', length_shiftRight1, shrFillBit_shiftRight1 f hv,
      (shiftRight1_out (shrFillBit f v) hv).2]
    have hu := unsigned_lt v
    rw [pow_256] at hu
    cases shrFillBit f v with
    | false => simp [Nat.div_div_eq_div_mul, pow_succ, mul_comm]
    | true =>
      simp only [if_true, Bool.toNat_true, mul_one]
      by_cases h : k + 1 ≤ 8 * v.length
      · have e1 : 2 ^ (8 * v.length - 1) = 2 ^ k * 2 ^ (8 * v.length - (k + 1)) := by
          rw [← pow_add]; congr 1; omega
        have e2 : 2 ^ (8 * v.length - k) = 2 * 2 ^ (8 * v.length - (k + 1)) := by
          rw [← pow_succ']; congr 1; omega
        have e3 : 2 ^ (8 * v.length - k) ≤ 2 ^ (8 * v.length) := Nat.pow_le_pow_right (by norm_num) (by omega)
        rw [min_eq_left (by omega), min_eq_left h, e1, Nat.add_mul_div_left _ _ (by positivity),
          Nat.div_div_eq_div_mul, ← pow_succ']
        omega
      · have e1 : 2 ^ (8 * v.length - 1) < 2 ^ k := Nat.pow_lt_pow_right (by norm_num) (by omega)
        have e3 : 2 ^ (8 * v.length) = 2 * 2 ^ (8 * v.length - 1) := by
          rw [← pow_succ']; congr 1; omega
        have e4 : 2 ^ (8 * v.length) ≤ 2 ^ k := Nat.pow_le_pow_right (by norm_num) (by omega)
        rw [min_eq_right (by omega), min_eq_right (by omega), Nat.div_eq_of_lt (by omega), Nat.div_eq_of_lt (by
          rw [pow_succ]
          omega)]

/-- The flag after a right shift by `k`: the last bit out (41_register_ops.md R123). -/
theorem shiftRightBy_out (f : ShrFill) (k : Nat) (c : Bool) (v : Register) (hv : v ≠ []) :
    (shiftRightBy f k c v).1 =
      if k = 0 then c else if k ≤ 8 * v.length then (unsigned v).testBit (k - 1) else shrFillBit f v := by
  induction k generalizing c v with
  | zero => simp [shiftRightBy]
  | succ k ih =>
    have hl : 0 < v.length := List.length_pos_of_ne_nil hv
    have hv' : (shiftRight1 (shrFillBit f v) v).2 ≠ [] := by
      intro h
      have := length_shiftRight1 (shrFillBit f v) v
      simp [h] at this
      omega
    have hu := unsigned_lt v
    rw [pow_256] at hu
    rw [shiftRightBy, ih _ _ hv', length_shiftRight1, shrFillBit_shiftRight1 f hv,
      (shiftRight1_out (shrFillBit f v) hv).2, (shiftRight1_out (shrFillBit f v) hv).1]
    rcases Nat.eq_zero_or_pos k with rfl | hk
    · simp [show 1 ≤ 8 * v.length by omega]
    · rw [if_neg (show ¬k = 0 by omega), if_neg (show ¬k + 1 = 0 by omega)]
      have e : ∀ j, j + 1 < 8 * v.length →
          (unsigned v / 2 + 2 ^ (8 * v.length - 1) * (shrFillBit f v).toNat).testBit j = (unsigned v).testBit (j + 1) := by
        intro j hj
        rw [Nat.testBit_succ]
        cases shrFillBit f v with
        | false => simp
        | true => rw [Bool.toNat_true, mul_one, add_comm, Nat.testBit_two_pow_add_gt (by omega)]
      by_cases h1 : k + 1 ≤ 8 * v.length
      · rw [if_pos (by omega), if_pos h1, e (k - 1) (by omega)]
        congr 1
        omega
      · rw [if_neg h1]
        by_cases h2 : k ≤ 8 * v.length
        · rw [if_pos h2, show k - 1 = 8 * v.length - 1 by omega]
          have h3 : unsigned v / 2 < 2 ^ (8 * v.length - 1) := by
            have : 2 ^ (8 * v.length) = 2 * 2 ^ (8 * v.length - 1) := by
              rw [← pow_succ']; congr 1; omega
            omega
          cases shrFillBit f v with
          | false => simpa using Nat.testBit_lt_two_pow h3
          | true => rw [Bool.toNat_true, mul_one, add_comm, Nat.testBit_two_pow_add_eq, Nat.testBit_lt_two_pow h3]; rfl
        · rw [if_neg h2]

/-! ### Bits of a register (41_register_ops.md R126 to R128) -/

theorem bget_ok (v : Byte) {k : Nat} (h : k ≤ 7) : bget v k = .ok (v.getLsbD k) := by
  simp [bget, show ¬k > 7 by omega]

theorem bget_error (v : Byte) {k : Nat} (h : 7 < k) : bget v k = .error .operandRange := by simp [bget, h]

theorem bput_error (v : Byte) (b : Bool) {k : Nat} (h : 7 < k) : bput v k b = .error .operandRange := by simp [bput, h]

/-- All that `bput` does on an index in range: one bit's worth is added or taken away. -/
theorem bput_ok (v : Byte) (b : Bool) {k : Nat} (h : k ≤ 7) :
    ∃ r, bput v k b = .ok r ∧
      r.toNat = if v.getLsbD k = b then v.toNat else if b then v.toNat + 2 ^ k else v.toNat - 2 ^ k := by
  refine ⟨if b then v ||| (1#8 <<< k) else v &&& ~~~(1#8 <<< k), by simp [bput, show ¬k > 7 by omega], ?_⟩
  have key : ∀ (j : Fin 8) (v : Byte) (b : Bool),
      (if b then v ||| (1#8 <<< j.val) else v &&& ~~~(1#8 <<< j.val)).toNat =
        if v.getLsbD j.val = b then v.toNat else if b then v.toNat + 2 ^ j.val else v.toNat - 2 ^ j.val := by
    decide +kernel
  exact key ⟨k, by omega⟩ v b

/-- The bit `k` of byte `i` is bit `bitIndex` of the whole register. -/
theorem byteAt_testBit (v : Register) {i k : Nat} (hi : i < v.length) (hk : k ≤ 7) :
    (byteAt v i).getLsbD k = (unsigned v).testBit (bitIndex v.length i k) := by
  induction v generalizing i with
  | nil => simp at hi
  | cons b bs ih =>
    have hbs := unsigned_lt bs
    rw [pow_256] at hbs
    rw [unsigned_cons, pow_256, mul_comm, Nat.testBit_two_pow_mul_add _ hbs]
    cases i with
    | zero =>
      have e : bitIndex (b :: bs).length 0 k = 8 * bs.length + k := by simp [bitIndex]
      rw [e, if_neg (by omega), Nat.add_sub_cancel_left]
      rfl
    | succ i =>
      have hi' : i < bs.length := by simpa using hi
      have e : bitIndex (b :: bs).length (i + 1) k = bitIndex bs.length i k := by
        simp [bitIndex]
        omega
      rw [e, if_pos (by simp only [bitIndex]; omega), ← ih hi']
      simp [byteAt]

/-- Replacing one byte changes the value by that byte's difference. -/
theorem unsigned_set (v : Register) {i : Nat} (r : Byte) (hi : i < v.length) :
    unsigned (v.set i r) + (byteAt v i).toNat * 256 ^ (v.length - 1 - i) =
      unsigned v + r.toNat * 256 ^ (v.length - 1 - i) := by
  induction v generalizing i with
  | nil => simp at hi
  | cons b bs ih =>
    cases i with
    | zero => simp [byteAt]; ring
    | succ i =>
      have hi' : i < bs.length := by simpa using hi
      have e : (b :: bs).length - 1 - (i + 1) = bs.length - 1 - i := by simp; omega
      have := ih hi'
      rw [e]
      simp only [List.set_cons_succ, unsigned_cons, List.length_set, byteAt, List.getD_cons_succ] at this ⊢
      omega

/-- All that a bit write does on indexes in range: the register's value gains or loses one bit's worth. -/
theorem putBit_ok {s : State} (hs : s.RegsSized) (rd : Reg) (bi k : Nat) (b : Bool) (h1 : bi < s.widthOf rd) (h2 : k ≤ 7) :
   putBit s rd bi k b = .ok (s.setReg rd (toBytes (s.widthOf rd) 
     (if (s.value rd).testBit (bitIndex (s.widthOf rd) bi k) = b then s.value rd
      else if b then s.value rd + 2 ^ bitIndex (s.widthOf rd) bi k else s.value rd - 2 ^ bitIndex (s.widthOf rd) bi k))) := by
  obtain ⟨r, hr, hv⟩ := bput_ok (byteAt (s.reg rd) bi) b h2
  rcases requireByte_cases s rd bi with ⟨-, e⟩ | ⟨h, -⟩
  · rw [putBit, e]
    show (bput _ _ _ >>= _) = _
    rw [hr]
    show Except.ok _ = _
    congr 2
    have hl := reg_length hs rd
    have hset := unsigned_set (s.reg rd) r (by rw [hl]; exact h1)
    rw [byteAt_testBit _ (by rw [hl]; exact h1) h2] at hv
    rw [hl] at hset hv
    have hlt := unsigned_lt ((s.reg rd).set bi r)
    have hp : 2 ^ bitIndex (s.widthOf rd) bi k = 2 ^ k * 256 ^ (s.widthOf rd - 1 - bi) := by
      rw [bitIndex, pow_add, pow_256, mul_comm]
    refine eq_toBytes (by simp [hl]) ?_
    rw [List.length_set, hl] at hlt
    rw [eq_comm, ← Nat.mod_eq_of_lt hlt]
    congr 1
    rw [hp]
    change _ = s.value rd + _ at hset
    split at hv
    · rename_i hc
      rw [if_pos (show (s.value rd).testBit _ = b from hc)]
      rw [hv] at hset
      omega
    · rename_i hc
      rw [if_neg (show ¬(s.value rd).testBit _ = b from hc)]
      cases b with
      | true => 
        simp only [if_true] at hv ⊢
        rw [hv, add_mul] at hset
        omega
      | false =>
        simp only [Bool.false_eq_true, if_false] at hv ⊢
        have : 2 ^ k ≤ (byteAt (s.reg rd) bi).toNat := by
          have hb : (byteAt (s.reg rd) bi).getLsbD k = true := by
            rw [byteAt_testBit _ (by rw [hl]; exact h1) h2, hl]
            simpa using hc
          exact Nat.ge_two_pow_of_testBit hb
        rw [hv, Nat.sub_mul] at hset
        have : 2 ^ k * 256 ^ (s.widthOf rd - 1 - bi) ≤ (byteAt (s.reg rd) bi).toNat * 256 ^ (s.widthOf rd - 1 - bi) :=
          Nat.mul_le_mul_right _ this
        omega
  · omega

/-- A bit write with an index out of range raises `OperandRange`, in every state. -/
theorem putBit_error (s : State) (rd : Reg) (bi k : Nat) (b : Bool) (h : s.widthOf rd ≤ bi ∨ 7 < k) :
    putBit s rd bi k b = .error .operandRange := by
  rcases requireByte_cases s rd bi with ⟨h1, e⟩ | ⟨h1, e⟩ <;> rw [putBit, e]
  · show (bput _ _ _ >>= _) = _
    rw [bput_error _ _ (by omega)]
    rfl
  · rfl

/-! ### NORM's loop (44_mantissa.md R202) -/

/-- All that the loop of NORM does: `m` digit shifts, the least number after which the top digit is not zero, at most
`left`. -/
theorem normLoop_spec (dw left cnt : Nat) (v : Register) (h2 : dw ≤ 8 * v.length) :
    ∃ m ≤ left, normLoop (8 * v.length) dw left cnt v = (cnt + m, toBytes v.length (unsigned v * 2 ^ (dw * m))) ∧
      unsigned v * 2 ^ (dw * m) < 2 ^ (8 * v.length) ∧
      (∀ j < m, unsigned v * 2 ^ (dw * j) < 2 ^ (8 * v.length - dw)) ∧
      (m = left ∨ 2 ^ (8 * v.length - dw) ≤ unsigned v * 2 ^ (dw * m)) := by
  have hu := unsigned_lt v
  rw [pow_256] at hu
  induction left generalizing cnt v with
  | zero => exact ⟨0, le_rfl, by simp [normLoop, toBytes_unsigned], by simpa using hu, by simp, .inl rfl⟩
  | succ left ih =>
    have hp : 0 < 2 ^ (8 * v.length - dw) := by positivity
    by_cases hz : topDigitZero (8 * v.length) dw v
    · have hz' : unsigned v < 2 ^ (8 * v.length - dw) := by
        simp only [topDigitZero, beq_iff_eq, Nat.div_eq_zero_iff] at hz
        omega
      have hlen : (shiftLeftBy false dw false v).2.length = v.length := length_shiftLeftBy ..
      have hmul : unsigned v * 2 ^ dw < 2 ^ (8 * v.length) := by
        calc _ < 2 ^ (8 * v.length - dw) * 2 ^ dw := Nat.mul_lt_mul_of_pos_right hz' (by positivity)
          _ = _ := by rw [← pow_add]; congr 1; omega
      have hval : unsigned (shiftLeftBy false dw false v).2 = unsigned v * 2 ^ dw := by
        rw [unsigned_shiftLeftBy, pow_256]
        simpa using Nat.mod_eq_of_lt hmul
      obtain ⟨m, hm, e, hlt, hlow, htop⟩ := ih (cnt + 1) (shiftLeftBy false dw false v).2 (by rw [hlen]; exact h2)
        (by rw [hlen, hval]; exact hmul)
      have hpow : ∀ j, unsigned v * 2 ^ dw * 2 ^ (dw * j) = unsigned v * 2 ^ (dw * (j + 1)) := by
        intro j
        rw [mul_assoc, ← pow_add]
        congr 2
        ring
      rw [hlen, hval] at e hlow htop hlt
      simp only [hpow] at e hlow htop hlt
      refine ⟨m + 1, by omega, ?_, hlt, ?_, ?_⟩
      · rw [normLoop, if_pos hz, e, Nat.add_assoc, Nat.add_comm 1 m]
      · intro j hj
        cases j with
        | zero => simpa using hz'
        | succ j => exact hlow j (by omega)
      · omega
    · refine ⟨0, by omega, by simp [normLoop, hz, toBytes_unsigned], by simpa using hu, by simp, .inr ?_⟩
      simp only [topDigitZero, beq_iff_eq, Nat.div_eq_zero_iff, not_or, not_lt] at hz
      simpa using hz.2

end Sys2Proof.Machine
end

