-- ==== Sys2Proof/Laws/Work.lean ====
section
/-! SUPPORT. What the working register, the loops and the phases of the division do, each said once. -/

namespace Sys2Proof.Machine

open Sys2Proof

/-! ### Snapshots -/

@[simp] theorem length_snap1 {w : Nat} (v : BitVec (8 * w)) : (snap1 v).length = w := by simp [snap1]

@[simp] theorem length_snap2 {w : Nat} (v : BitVec (8 * w + 8 * w)) : (snap2 v).length = 2 * w := by simp [snap2]

theorem unsigned_snap1 {w : Nat} (v : BitVec (8 * w)) : unsigned (snap1 v) = v.toNat := by
  rw [snap1, unsigned_toBytes, pow_256, Nat.mod_eq_of_lt v.isLt]

theorem unsigned_snap2 {w : Nat} (v : BitVec (8 * w + 8 * w)) : unsigned (snap2 v) = v.toNat := by
  have := v.isLt
  rw [snap2, unsigned_toBytes, pow_256, Nat.mod_eq_of_lt]
  rwa [show 8 * (2 * w) = 8 * w + 8 * w by ring]

/-- A snapshot of an integer is the integer's bytes. -/
theorem snap1_ofInt {w : Nat} (v : Int) : snap1 (BitVec.ofInt (8 * w) v) = intBytes w v := by
  simp [snap1, intBytes, BitVec.toNat_ofInt]

/-! ### Operands -/

/-- An operand's two's complement value is the register's. -/
theorem toVec_toInt {v : Register} {n : Nat} (hn : n = 8 * v.length) : (toVec n v).toInt = signed v := by
  subst hn
  have h := unsigned_lt v
  rw [pow_256] at h
  cases v with
  | nil => rfl
  | cons b bs =>
    have hm := msb_eq (b :: bs) (by simp)
    have e : 2 ^ (8 * (b :: bs).length) = 2 * (128 * 256 ^ ((b :: bs).length - 1)) := by
      rw [pow_256]
      have : 8 * (b :: bs).length = 8 + 8 * ((b :: bs).length - 1) := by simp; omega
      rw [this, pow_add]
      ring
    rw [signed, hm, toVec, BitVec.toInt_eq_toNat_cond, BitVec.toNat_ofNat, Nat.mod_eq_of_lt h]
    have e' : (2 : Int) ^ (8 * (b :: bs).length) = ((2 ^ (8 * (b :: bs).length) : Nat) : Int) := by push_cast; rfl
    rw [e', e]
    generalize 128 * 256 ^ ((b :: bs).length - 1) = m at *
    by_cases hc : m ≤ unsigned (b :: bs)
    · rw [if_neg (by omega), if_pos (decide_eq_true hc)]
    · rw [if_pos (by omega), if_neg (by rw [decide_eq_false hc]; exact Bool.false_ne_true)]

theorem operand_toInt {s : State} (h : s.RegsSized) (r : SReg) : (s.operand r).toInt = signed (s.single r) :=
  toVec_toInt (by rw [single_length h])

theorem operand2_toInt {s : State} (h : s.RegsSized) (r : DReg) : (s.operand2 r).toInt = signed (s.double r) :=
  toVec_toInt (by rw [double_length h]; ring)

/-! ### The loop -/

/-- What each record of a loop shows, where it depends on the step's index only. -/
theorem runSteps_map {σ β : Type} {step : Nat → σ → σ × StepRecord} {f : StepRecord → β} {g : Nat → β}
    (h : ∀ i k, f (step i k).2 = g i) (steps i : Nat) (k : σ) :
    (runSteps step steps i k).2.map f = (List.range' i steps).map g := by
  induction steps generalizing i k with
  | zero => rfl
  | succ steps ih => simp [runSteps, List.range'_succ, h, ih]

/-- What every record of a loop satisfies. -/
theorem runSteps_forall {σ : Type} {step : Nat → σ → σ × StepRecord} {P : StepRecord → Prop}
    (h : ∀ i k, P (step i k).2) (steps i : Nat) (k : σ) : ∀ r ∈ (runSteps step steps i k).2, P r := by
  induction steps generalizing i k with
  | zero => simp [runSteps]
  | succ steps ih =>
    simp only [runSteps, List.mem_cons, forall_eq_or_imp]
    exact ⟨h i k, ih _ _⟩

/-- What holds before a loop and is carried by each of its steps holds after it. -/
theorem runSteps_invariant {σ : Type} {step : Nat → σ → σ × StepRecord} {P : Nat → σ → Prop}
    (h : ∀ i k, P i k → P (i + 1) (step i k).1) (steps i : Nat) (k : σ) (h0 : P i k) :
    P (i + steps) (runSteps step steps i k).1 := by
  induction steps generalizing i k with
  | zero => simpa [runSteps] using h0
  | succ steps ih =>
    have := ih (i + 1) _ (h i k h0)
    rwa [show i + 1 + steps = i + (steps + 1) by ring] at this

/-! ### The phases of the division -/

/-- All that the trial step can do (43_divide.md R182, R183). -/
theorem divTrial_cases {wd : Width} (A : BitVec (8 * wd.bytes + 8 * wd.bytes)) (D : BitVec (8 * wd.bytes)) :
    let applied := ((divSeed A D).shift).apply (A.msb == D.msb) D.toInt
    (signOf applied.h = A.msb ∧ divTrial A D = .error .divInvalid) ∨
    (signOf applied.h ≠ A.msb ∧ ∃ r, divTrial A D = .ok (applied.putBit (signOf applied.h == D.msb), r) ∧
      r.idx = 0 ∧ r.kind = .trial ∧ StepRecord.shaped wd r = true) := by
  intro applied
  by_cases h : signOf applied.h = A.msb
  · exact .inl ⟨h, by simp [divTrial, applied, h]⟩
  · exact .inr ⟨h, _, by simp only [divTrial]; rw [if_neg h], rfl, rfl, by simp [StepRecord.shaped, Cursor.snap]⟩

/-- The record of one iteration of the division (43_divide.md R184). -/
theorem divStep_record {wd : Width} (D : BitVec (8 * wd.bytes)) (i : Nat) (k : Cursor (8 * wd.bytes)) :
    (divStep D i k).2.idx = i ∧ (divStep D i k).2.kind = .iter ∧ StepRecord.shaped wd (divStep D i k).2 = true :=
  ⟨rfl, rfl, by simp [divStep, StepRecord.shaped, Cursor.snap]⟩

/-- All that the restoring correction can do (43_divide.md R185). -/
theorem divCorrect_cases {wd : Width} (sa : Bool) (D : BitVec (8 * wd.bytes)) (k : Cursor (8 * wd.bytes)) :
    (signOf k.h = sa ∧ divCorrect sa D k = (k, [])) ∨
    (signOf k.h ≠ sa ∧ ∃ r, divCorrect sa D k = (k.apply (signOf k.h == D.msb) D.toInt, [r]) ∧
      r.idx = 8 * wd.bytes ∧ r.kind = .correction ∧ StepRecord.shaped wd r = true) := by
  by_cases h : signOf k.h = sa
  · exact .inl ⟨h, by simp [divCorrect, h]⟩
  · exact .inr ⟨h, _, by simp only [divCorrect]; rw [if_pos h], rfl, rfl, by simp [StepRecord.shaped, Cursor.snap]⟩

/-- The fix-up stage moves quotient and remainder by whole divisors only, so `q·d + r` stays (43_divide.md R186). -/
theorem fixup_invariant (a d : Int) (v : QuoRem) :
    (fixupWhole d (fixupSign a d v)).q * d + (fixupWhole d (fixupSign a d v)).r = v.q * d + v.r := by
  have h1 : (fixupSign a d v).q * d + (fixupSign a d v).r = v.q * d + v.r := by
    unfold fixupSign
    split
    · split <;> simp only <;> ring
    · rfl
  rw [← h1]
  unfold fixupWhole
  split
  · rename_i h
    simp only [h]
    ring
  · split
    · rename_i h
      simp only [h]
      ring
    · rfl

/-- All that the fix-up stage can do (43_divide.md R186). -/
theorem divFixup_cases (n : Nat) (a d : Int) (v : QuoRem) :
    (divFixup n a d v = .error .internalCheck ∧
      ((fixupWhole d (fixupSign a d v)).q < -(2 ^ (n - 1)) ∨ 2 ^ (n - 1) - 1 < (fixupWhole d (fixupSign a d v)).q)) ∨
    (divFixup n a d v = .ok (fixupWhole d (fixupSign a d v)) ∧
      -(2 ^ (n - 1)) ≤ (fixupWhole d (fixupSign a d v)).q ∧
      (fixupWhole d (fixupSign a d v)).q ≤ 2 ^ (n - 1) - 1) := by
  simp only [divFixup]
  split
  · rename_i h
    exact .inl ⟨rfl, h⟩
  · rename_i h
    exact .inr ⟨rfl, by omega⟩

/-- The record of the fix-up stage: one exactly where it changed the result (43_divide.md R186). -/
theorem fixupRecord_cases {wd : Width} (D : BitVec (8 * wd.bytes)) (u : QuoRem) :
    (u.fired = false ∧ fixupRecord D u = []) ∨
    (u.fired = true ∧ ∃ r, fixupRecord D u = [r] ∧ r.idx = 8 * wd.bytes + 1 ∧ r.kind = .fixup ∧
      StepRecord.shaped wd r = true) := by
  cases h : u.fired with
  | false => exact .inl ⟨rfl, by simp [fixupRecord, h]⟩
  | true => exact .inr ⟨rfl, _, by simp only [fixupRecord, h, if_true]; rfl, rfl, rfl, by simp [StepRecord.shaped]⟩

/-- All that DIV's computation can do (43_divide.md R180 to R186): a fault, or a result with the records of its phases. -/
theorem divRun_cases {wd : Width} (fixup : Bool) (A : BitVec (8 * wd.bytes + 8 * wd.bytes)) (D : BitVec (8 * wd.bytes)) :
    (∃ x ∈ [Cause.divZero, .divInvalid, .internalCheck], divRun fixup A D = .error x) ∨
    (∃ (u : QuoRem) (recs : List StepRecord) (corrected fixed : Bool), divRun fixup A D = .ok (u, recs) ∧
      (fixed = true → fixup = true) ∧ (∀ r ∈ recs, StepRecord.shaped wd r = true) ∧
      recs.map (fun r => (r.idx, r.kind)) =
        (0, StepKind.trial) :: (List.range' 1 (8 * wd.bytes - 1)).map (fun i => (i, StepKind.iter)) ++
          (if corrected then [(8 * wd.bytes, StepKind.correction)] else []) ++
          (if fixed then [(8 * wd.bytes + 1, StepKind.fixup)] else [])) := by
  by_cases hz : D.toInt = 0
  · exact .inl ⟨.divZero, by simp, by simp only [divRun, if_pos hz]⟩
  rcases divTrial_cases A D with ⟨-, ht⟩ | ⟨-, r, ht, hi, hk, hs⟩
  · exact .inl ⟨.divInvalid, by simp, by simp only [divRun, if_neg hz, ht]; rfl⟩
  set k := (((divSeed A D).shift).apply (A.msb == D.msb) D.toInt).putBit
    (signOf ((((divSeed A D).shift).apply (A.msb == D.msb) D.toInt)).h == D.msb) with hkdef
  have hm := runSteps_map (step := divStep D) (f := fun r => (r.idx, r.kind)) (g := fun i => (i, StepKind.iter))
    (fun i k => rfl) (8 * wd.bytes - 1) 1 k
  have hsh := runSteps_forall (step := divStep D) (P := fun r => StepRecord.shaped wd r = true)
    (fun i k => (divStep_record D i k).2.2) (8 * wd.bytes - 1) 1 k
  obtain ⟨corrected, last, hc, hcs, hcm⟩ : ∃ (corrected : Bool) (last : Cursor (8 * wd.bytes) × List StepRecord),
      divCorrect A.msb D (runSteps (divStep D) (8 * wd.bytes - 1) 1 k).1 = last ∧
      (∀ r ∈ last.2, StepRecord.shaped wd r = true) ∧
      last.2.map (fun r => (r.idx, r.kind)) = if corrected then [(8 * wd.bytes, StepKind.correction)] else [] := by
    rcases divCorrect_cases A.msb D (runSteps (divStep D) (8 * wd.bytes - 1) 1 k).1 with ⟨-, h⟩ | ⟨-, q, h, h1, h2, h3⟩
    · exact ⟨false, _, h, by simp, rfl⟩
    · exact ⟨true, _, h, by simpa using h3, by simp [h1, h2]⟩
  cases fixup with
  | false =>
    refine .inr ⟨{ q := last.1.L.toInt, r := last.1.h, fired := false },
      r :: (runSteps (divStep D) (8 * wd.bytes - 1) 1 k).2 ++ last.2, corrected, false, ?_, by simp, ?_, ?_⟩
    · rw [divRun, if_neg hz, ht, ← hc]
      rfl
    · simp only [List.cons_append, List.mem_cons, List.mem_append]
      rintro q (rfl | h | h)
      · exact hs
      · exact hsh q h
      · exact hcs q h
    · simp [hm, hcm, hi, hk]
  | true =>
    rcases divFixup_cases (8 * wd.bytes) A.toInt D.toInt { q := last.1.L.toInt, r := last.1.h, fired := false } with
      ⟨hf, -⟩ | ⟨hf, -⟩
    · refine .inl ⟨.internalCheck, by simp, ?_⟩
      rw [← hc] at hf
      rw [divRun, if_neg hz, ht]
      show (divFixup _ _ _ _ >>= _) = _
      rw [hf]
      rfl
    · generalize fixupWhole D.toInt (fixupSign A.toInt D.toInt { q := last.1.L.toInt, r := last.1.h, fired := false }) = u at hf
      have hrun : divRun true A D =
          .ok (u, r :: (runSteps (divStep D) (8 * wd.bytes - 1) 1 k).2 ++ last.2 ++ fixupRecord D u) := by
        rw [← hc] at hf ⊢
        rw [divRun, if_neg hz, ht]
        show (divFixup _ _ _ _ >>= _) = _
        rw [hf]
        rfl
      rcases fixupRecord_cases D u with ⟨-, he⟩ | ⟨-, p, he, hp1, hp2, hp3⟩
      · refine .inr ⟨u, _, corrected, false, hrun, by simp, ?_, by simp [hm, hcm, hi, hk, he]⟩
        simp only [he, List.append_nil, List.cons_append, List.mem_cons, List.mem_append]
        rintro q (rfl | h | h)
        · exact hs
        · exact hsh q h
        · exact hcs q h
      · refine .inr ⟨u, _, corrected, true, hrun, by simp, ?_, by simp [hm, hcm, hi, hk, he, hp1, hp2]⟩
        simp only [he, List.cons_append, List.mem_cons, List.mem_append, List.not_mem_nil, or_false]
        rintro q (rfl | (h | h) | rfl)
        · exact hs
        · exact hsh q h
        · exact hcs q h
        · exact hp3

/-! ### The records of the multiplications (42_multiply.md R157) -/

/-- The records of MULC: N iterations, and a correction exactly for a negative multiplier. -/
theorem mulcRun_records {wd : Width} (a b : BitVec (8 * wd.bytes)) :
    (∀ r ∈ (mulcRun a b).2, StepRecord.shaped wd r = true) ∧
    (mulcRun a b).2.map (fun r => (r.idx, r.kind)) =
      (List.range' 1 (8 * wd.bytes)).map (fun i => (i, StepKind.iter)) ++
        (if b.msb then [(8 * wd.bytes + 1, StepKind.correction)] else []) := by
  have hm := runSteps_map (step := mulcStep a) (f := fun r => (r.idx, r.kind)) (g := fun i => (i, StepKind.iter))
    (fun i k => rfl) (8 * wd.bytes) 1 { H := 0, L := b }
  have hsh := runSteps_forall (step := mulcStep a) (P := fun r => StepRecord.shaped wd r = true)
    (fun i k => by cases h : k.L.getLsbD 0 <;> simp [mulcStep, StepRecord.shaped, h]) (8 * wd.bytes) 1 { H := 0, L := b }
  cases hb : b.msb with
  | false => exact ⟨by simpa [mulcRun, mulcCorrect, hb] using hsh, by simpa [mulcRun, mulcCorrect, hb] using hm⟩
  | true =>
    refine ⟨?_, by simpa [mulcRun, mulcCorrect, hb] using hm⟩
    simp only [mulcRun, mulcCorrect, hb, if_true, List.mem_append, List.mem_singleton]
    rintro r (h | rfl)
    · exact hsh r h
    · simp [StepRecord.shaped]

/-- The records of MULB: N iterations. -/
theorem mulbRun_records {wd : Width} (a b : BitVec (8 * wd.bytes)) :
    (∀ r ∈ (mulbRun a b).2, StepRecord.shaped wd r = true) ∧
    (mulbRun a b).2.map (fun r => (r.idx, r.kind)) =
      (List.range' 1 (8 * wd.bytes)).map (fun i => (i, StepKind.iter)) := by
  have hm := runSteps_map (step := mulbStep a) (f := fun r => (r.idx, r.kind)) (g := fun i => (i, StepKind.iter))
    (fun i k => rfl) (8 * wd.bytes) 1 { work := { H := 0, L := b }, prev := false }
  have hsh := runSteps_forall (step := mulbStep a) (P := fun r => StepRecord.shaped wd r = true)
    (fun i k => by
      cases h : k.work.L.getLsbD 0 <;> cases h' : k.prev <;> simp [mulbStep, StepRecord.shaped, h, h'])
    (8 * wd.bytes) 1 { work := { H := 0, L := b }, prev := false }
  exact ⟨hsh, hm⟩

/-- The records of MULF: N/2 iterations and at most one correction. -/
theorem mulfRun_records {wd : Width} (a b : BitVec (8 * wd.bytes)) :
    (∀ r ∈ (mulfRun a b).2, StepRecord.shaped wd r = true) ∧
    ∃ corrected : Bool, (mulfRun a b).2.map (fun r => (r.idx, r.kind)) =
      (List.range' 1 (8 * wd.bytes / 2)).map (fun i => (i, StepKind.iter)) ++
        (if corrected then [(8 * wd.bytes / 2 + 1, StepKind.correction)] else []) := by
  have hm := runSteps_map (step := mulfStep a) (f := fun r => (r.idx, r.kind)) (g := fun i => (i, StepKind.iter))
    (fun i k => rfl) (8 * wd.bytes / 2) 1 { work := { H := 0, L := b }, corr := false }
  have hsh := runSteps_forall (step := mulfStep a) (P := fun r => StepRecord.shaped wd r = true)
    (fun i k => by
      have hlt : ((k.work.L.extractLsb' 0 2).toNat + k.corr.toNat) % 4 < 4 := Nat.mod_lt _ (by norm_num)
      simp only [mulfStep]
      generalize ((k.work.L.extractLsb' 0 2).toNat + k.corr.toNat) % 4 = c at hlt
      interval_cases c <;> simp [StepRecord.shaped, fastAction])
    (8 * wd.bytes / 2) 1 { work := { H := 0, L := b }, corr := false }
  simp only [mulfRun, mulfCorrect]
  split
  · refine ⟨?_, true, by simpa using hm⟩
    simp only [List.mem_append, List.mem_singleton]
    rintro r (h | rfl)
    · exact hsh r h
    · simp [StepRecord.shaped]
  · split
    · refine ⟨?_, true, by simpa using hm⟩
      simp only [List.mem_append, List.mem_singleton]
      rintro r (h | rfl)
      · exact hsh r h
      · simp [StepRecord.shaped]
    · exact ⟨by simpa using hsh, false, by simpa using hm⟩

end Sys2Proof.Machine
end

