-- ==== Sys2Proof/Laws/Exec.lean ====
section
/-! SUPPORT. What one command can do, said once: which template it follows, which faults it can raise, and what a completed
command leaves as it was. -/

namespace Sys2Proof.Machine

open Sys2Proof

/-- What a completed command leaves as it was: the parameters, the host's list, the fault record, every register it does not
name as a destination, and the flag, control registers and logs outside the spec's tables. -/
structure Completes (i : Instr) (s t : State) : Prop where
  params : t.params = s.params
  pending : t.pending = s.pending
  index : t.index = s.index
  fault : t.f = s.f
  cause : t.cause = s.cause
  fcmd : t.fcmd = s.fcmd
  regs : ∀ r : Reg, r ∉ Instr.dests i → t.reg r = s.reg r
  carry : Instr.writesCarry s i = false → t.c = s.c
  cnt : Instr.counts i = false → t.cnt = s.cnt
  mfmt : Instr.setsFormat i = false → t.mfmt = s.mfmt
  dout : ∃ new, t.dout = s.dout ++ new ∧ (Instr.emits i = false → new = [])
  trace : ∃ new, t.trace = s.trace ++ new ∧ (Instr.traces i = false → new = [])

/-- What the rule of a command gives: a state in which only what the spec lists has changed, or one of its own faults. -/
def Lawful (i : Instr) (s : State) (r : Except Cause State) : Prop :=
  match r with
  | .ok t => Completes i s t
  | .error x => x ∈ Instr.mayRaise i ∨ (x = .illegalCommand ∧ i.wellFormed s.params.width = false)

theorem completes_setReg {i : Instr} (s : State) (r : Reg) (v : Register) (h : r ∈ Instr.dests i) :
    Completes i s (s.setReg r v) := by
  refine ⟨by simp, by simp, by simp, by simp, by simp, by simp, ?_, by simp, by simp, by simp, ⟨[], by simp⟩, ⟨[], by simp⟩⟩
  intro q hq
  rw [setReg_reg, if_neg]
  rintro rfl
  exact hq h

theorem completes_setCarry {i : Instr} {s t : State} (b : Bool) (h : Completes i s t) (hc : Instr.writesCarry s i = true) :
    Completes i s (t.setCarry b) :=
  ⟨h.params, h.pending, h.index, h.fault, h.cause, h.fcmd, by simpa using h.regs, by simp [hc], h.cnt, h.mfmt, h.dout, h.trace⟩

theorem completes_keepCarry {i : Instr} {s t : State} (h : Completes i s t) : Completes i s (t.setCarry s.c) :=
  ⟨h.params, h.pending, h.index, h.fault, h.cause, h.fcmd, by simpa using h.regs, fun _ => rfl, h.cnt, h.mfmt, h.dout, h.trace⟩

theorem completes_record {i : Instr} {s t : State} (rs : List StepRecord) (h : Completes i s t)
    (ht : Instr.traces i = true) : Completes i s (t.record rs) := by
  refine ⟨h.params, h.pending, h.index, h.fault, h.cause, h.fcmd, by simpa using h.regs, h.carry, h.cnt, h.mfmt, h.dout, ?_⟩
  obtain ⟨new, e, -⟩ := h.trace
  exact ⟨new ++ rs, by simp [e], by simp [ht]⟩

theorem completes_emit {i : Instr} (s : State) (bs : List Byte) (h : Instr.emits i = true) : Completes i s (s.emit bs) :=
  ⟨rfl, rfl, rfl, rfl, rfl, rfl, by simp, by simp, by simp, by simp, ⟨bs, rfl, by simp [h]⟩, ⟨[], by simp⟩⟩

theorem completes_refl (i : Instr) (s : State) : Completes i s s :=
  ⟨rfl, rfl, rfl, rfl, rfl, rfl, by simp, by simp, by simp, by simp, ⟨[], by simp⟩, ⟨[], by simp⟩⟩

/-- Every command other than GETS follows the template of 41_register_ops.md R110, with a lawful result. -/
theorem exec_template (i : Instr) (s : State) :
    (∃ sel, i = .gets sel ∧ exec i s = .next (s.emit (s.control sel))) ∨
    ((∀ sel, i ≠ .gets sel) ∧ ∃ r, exec i s = runCommand (encodeWord i) s r ∧ Lawful i s r) := by
  cases i with
  | gets sel => exact .inl ⟨sel, rfl, rfl⟩
  | set rd lit =>
    refine .inr ⟨by simp, _, rfl, ?_⟩
    split
    · exact completes_setReg s rd lit (by simp [Instr.dests])
    · exact .inr ⟨rfl, by simpa [Instr.wellFormed, State.widthOf] using ‹_›⟩
  | get rd =>
    refine .inr ⟨by simp, .ok _, rfl, ?_⟩
    exact completes_emit s _ rfl
  | copy rd rs =>
    refine .inr ⟨by simp, _, rfl, ?_⟩
    rw [requireSameWidth_eq]
    split
    · exact completes_setReg s rd _ (by simp [Instr.dests])
    · exact .inl (by simp [Instr.mayRaise])
  | geth rd rs =>
    refine .inr ⟨by simp, .ok _, rfl, ?_⟩
    exact completes_setReg s (.single rd) _ (by simp [Instr.dests])
  | getl rd rs =>
    refine .inr ⟨by simp, .ok _, rfl, ?_⟩
    exact completes_setReg s (.single rd) _ (by simp [Instr.dests])
  | puth rd rs =>
    refine .inr ⟨by simp, .ok _, rfl, ?_⟩
    exact completes_setReg s (.double rd) _ (by simp [Instr.dests])
  | putl rd rs =>
    refine .inr ⟨by simp, .ok _, rfl, ?_⟩
    exact completes_setReg s (.double rd) _ (by simp [Instr.dests])
  | add rd rs =>
    refine .inr ⟨by simp, _, rfl, ?_⟩
    rcases requireNotWider_cases s rd rs with ⟨-, h⟩ | ⟨-, h⟩ <;> rw [addSub, h]
    · exact completes_setCarry _ (completes_setReg s rd _ (by simp [Instr.dests])) rfl
    · exact .inl (by simp [Instr.mayRaise])
  | sub rd rs =>
    refine .inr ⟨by simp, _, rfl, ?_⟩
    rcases requireNotWider_cases s rd rs with ⟨-, h⟩ | ⟨-, h⟩ <;> rw [addSub, h]
    · exact completes_setCarry _ (completes_setReg s rd _ (by simp [Instr.dests])) rfl
    · exact .inl (by simp [Instr.mayRaise])
  | addh rd rs t =>
    refine .inr ⟨by simp, _, rfl, ?_⟩
    rcases highOperand_outcome s rs t with ⟨o, h⟩ | h <;> rw [addSubHigh, h]
    · exact completes_setCarry _ (completes_setReg s (.double rd) _ (by simp [Instr.dests])) rfl
    · exact .inl (by simp [Instr.mayRaise])
  | subh rd rs t =>
    refine .inr ⟨by simp, _, rfl, ?_⟩
    rcases highOperand_outcome s rs t with ⟨o, h⟩ | h <;> rw [addSubHigh, h]
    · exact completes_setCarry _ (completes_setReg s (.double rd) _ (by simp [Instr.dests])) rfl
    · exact .inl (by simp [Instr.mayRaise])
  | shl rd fill amt =>
    refine .inr ⟨by simp, .ok ((s.setReg rd (shiftLeftBy fill amt.toNat s.c (s.reg rd)).2).setCarry
      (shiftLeftBy fill amt.toNat s.c (s.reg rd)).1), rfl, ?_⟩
    by_cases h : amt = 0#6
    · subst h
      exact completes_keepCarry (completes_setReg s rd _ (by simp [Instr.dests]))
    · exact completes_setCarry _ (completes_setReg s rd _ (by simp [Instr.dests])) (by simpa [Instr.writesCarry] using h)
  | shr rd fill amt =>
    refine .inr ⟨by simp, .ok ((s.setReg rd (shiftRightBy fill amt.toNat s.c (s.reg rd)).2).setCarry
      (shiftRightBy fill amt.toNat s.c (s.reg rd)).1), rfl, ?_⟩
    by_cases h : amt = 0#6
    · subst h
      exact completes_keepCarry (completes_setReg s rd _ (by simp [Instr.dests]))
    · exact completes_setCarry _ (completes_setReg s rd _ (by simp [Instr.dests])) (by simpa [Instr.writesCarry] using h)
  | neg rd =>
    refine .inr ⟨by simp, .ok _, rfl, ?_⟩
    exact completes_setReg s rd _ (by simp [Instr.dests])
  | not rd =>
    refine .inr ⟨by simp, .ok _, rfl, ?_⟩
    exact completes_setReg s rd _ (by simp [Instr.dests])
  | btst rd bi k =>
    refine .inr ⟨by simp, _, rfl, ?_⟩
    rcases requireByte_cases s rd bi.toNat with ⟨-, h⟩ | ⟨-, h⟩ <;> rw [h]
    · by_cases hk : k.toNat ≤ 7
      · rw [bget_ok _ hk]
        exact completes_setCarry _ (completes_refl _ s) rfl
      · rw [bget_error _ (by omega)]
        exact .inl (by simp [Instr.mayRaise])
    · exact .inl (by simp [Instr.mayRaise])
  | bset rd bi k =>
    refine .inr ⟨by simp, _, rfl, ?_⟩
    rcases putBit_outcome s rd bi.toNat k.toNat true with ⟨v, h⟩ | h <;> rw [h]
    · exact completes_setReg s rd _ (by simp [Instr.dests])
    · exact .inl (by simp [Instr.mayRaise])
  | bclr rd bi k =>
    refine .inr ⟨by simp, _, rfl, ?_⟩
    rcases putBit_outcome s rd bi.toNat k.toNat false with ⟨v, h⟩ | h <;> rw [h]
    · exact completes_setReg s rd _ (by simp [Instr.dests])
    · exact .inl (by simp [Instr.mayRaise])
  | mulc rd rs rt =>
    refine .inr ⟨by simp, .ok _, rfl, ?_⟩
    exact completes_record _ (completes_setReg s (.double rd) _ (by simp [Instr.dests])) rfl
  | mulb rd rs rt =>
    refine .inr ⟨by simp, .ok _, rfl, ?_⟩
    exact completes_record _ (completes_setReg s (.double rd) _ (by simp [Instr.dests])) rfl
  | mulf rd rs rt =>
    refine .inr ⟨by simp, .ok _, rfl, ?_⟩
    exact completes_record _ (completes_setReg s (.double rd) _ (by simp [Instr.dests])) rfl
  | div rd rs rt rem =>
    refine .inr ⟨by simp, _, rfl, ?_⟩
    by_cases hd : rd = rem
    · rw [if_pos hd]
      exact .inr ⟨rfl, by simp [Instr.wellFormed, hd]⟩
    · rw [if_neg hd]
      rcases divRun_cases s.params.divFixup (s.operand2 rs) (s.operand rt) with ⟨x, hx, h⟩ | ⟨u, recs, _, _, h, -⟩ <;> rw [h]
      · exact .inl hx
      · refine completes_record _ ?_ rfl
        have h1 := completes_setReg (i := .div rd rs rt rem) s (.single rd)
          (snap1 (BitVec.ofInt (8 * s.params.width.bytes) u.q)) (by simp [Instr.dests])
        have h2 := completes_setReg (i := .div rd rs rt rem)
          (s.setSingle rd (snap1 (BitVec.ofInt (8 * s.params.width.bytes) u.q))) (.single rem)
          (snap1 (BitVec.ofInt (8 * s.params.width.bytes) u.r)) (by simp [Instr.dests])
        exact ⟨by simp, by simp, by simp, by simp, by simp, by simp, fun q hq => (h2.regs q hq).trans (h1.regs q hq), by simp,
          by simp, by simp, ⟨[], by simp⟩, ⟨[], by simp⟩⟩
  | setfmt h bu dw =>
    refine .inr ⟨by simp, _, rfl, ?_⟩
    split
    · exact ⟨rfl, rfl, rfl, rfl, rfl, rfl, by simp, by simp, by simp, by simp [Instr.setsFormat], ⟨[], by simp⟩, ⟨[], by simp⟩⟩
    · exact .inl (by simp [Instr.mayRaise])
  | norm rd =>
    refine .inr ⟨by simp, .ok ((s.setSingle rd (normLoop s.nBits s.digitWidth (digitCount s.bitsUsed s.digitWidth) 0
      (s.single rd)).2).setCnt (normLoop s.nBits s.digitWidth (digitCount s.bitsUsed s.digitWidth) 0 (s.single rd)).1), rfl, ?_⟩
    have h := completes_setReg (i := .norm rd) s (.single rd)
      (normLoop s.nBits s.digitWidth (digitCount s.bitsUsed s.digitWidth) 0 (s.single rd)).2 (by simp [Instr.dests])
    exact ⟨by simp, by simp, by simp, by simp, by simp, by simp, by simpa using h.regs, by simp, by simp [Instr.counts], by simp,
      ⟨[], by simp⟩, ⟨[], by simp⟩⟩
  | unhide rd =>
    refine .inr ⟨by simp, .ok (if s.hiddenOne then (s.setSingle rd (shiftRight1 true (s.single rd)).2).setCarry
      (shiftRight1 true (s.single rd)).1 else s), rfl, ?_⟩
    cases h : s.hiddenOne
    · exact completes_refl _ s
    · exact completes_setCarry _ (completes_setReg s (.single rd) _ (by simp [Instr.dests])) (by simp [Instr.writesCarry, h])
  | hide rd =>
    refine .inr ⟨by simp, .ok (if s.hiddenOne then (s.setSingle rd (shiftLeft1 false (s.single rd)).2).setCarry
      (shiftLeft1 false (s.single rd)).1 else s), rfl, ?_⟩
    cases h : s.hiddenOne
    · exact completes_refl _ s
    · exact completes_setCarry _ (completes_setReg s (.single rd) _ (by simp [Instr.dests])) (by simp [Instr.writesCarry, h])

/-- All that a command can do: it is ignored in the fault state, it completes, or it enters the fault state from the state
before it. -/
theorem exec_cases (i : Instr) (s : State) :
    (∃ sel, i = .gets sel ∧ exec i s = .next (s.emit (s.control sel))) ∨
    ((∀ sel, i ≠ .gets sel) ∧ s.f = true ∧ exec i s = .next s) ∨
    ((∀ sel, i ≠ .gets sel) ∧ s.f = false ∧ ∃ t, exec i s = .next t ∧ Completes i s t) ∨
    ((∀ sel, i ≠ .gets sel) ∧ s.f = false ∧ ∃ x, exec i s = .next (takeFault x (encodeWord i) s) ∧
      (x ∈ Instr.mayRaise i ∨ (x = .illegalCommand ∧ i.wellFormed s.params.width = false))) := by
  rcases exec_template i s with h | ⟨hg, r, he, hl⟩
  · exact .inl h
  · rw [he]
    rcases runCommand_cases (encodeWord i) s r with ⟨hf, h⟩ | ⟨hf, t, rfl, h⟩ | ⟨hf, x, rfl, h⟩
    · exact .inr (.inl ⟨hg, hf, h⟩)
    · exact .inr (.inr (.inl ⟨hg, hf, t, h, hl⟩))
    · exact .inr (.inr (.inr ⟨hg, hf, x, h, hl⟩))

end Sys2Proof.Machine
end

