-- ==== Sys2Proof/Laws/PerInstr.lean ====
section
/-! SUPPORT. Per-instruction families of LAWS.json. -/

namespace Sys2Proof.Laws.EncodedRow

open Sys2Proof Sys2Proof.Machine

/-- The framed command of a well-formed instruction is accepted by the instruction's own row of the opcode map
(30_encoding.md R63, R73). -/
def Statement (i : Instr) : Prop :=
  ∀ wd : Width, i.wellFormed wd = true → ((opcodeMap[Instr.rowIndex i]?).map (MapRow.accepts wd (encode i))) = some true

/-- A row without a payload accepts the same words at every width. -/
theorem accepts_width {r : MapRow} (hr : r.payload = false) (wd wd' : Width) (c : Command) :
    MapRow.accepts wd c r = MapRow.accepts wd' c r := by
  simp [MapRow.accepts, MapRow.payloadLength, hr]

theorem set (rd : Reg) (lit : List Byte) : Statement (.set rd lit) := by
  intro wd h
  have hl : lit.length = wd.ofReg rd := by simpa [Instr.wellFormed] using h
  rcases rd with r | r <;> cases r <;>
    simp [opcodeMap, Instr.rowIndex, MapRow.accepts, encode, encodeWord, encodePayload, encZ1, Reg.spec, SReg.number,
      DReg.number, RegClass.admits, Further.holds, MapRow.payloadLength, hl, Width.ofReg]

theorem get (rd : Reg) : Statement (.get rd) := by
  rintro wd -
  rcases rd with r | r <;> cases r <;> rfl

theorem copy (rd rs : Reg) : Statement (.copy rd rs) := by
  rintro wd -
  rcases rd with r | r <;> cases r <;> rcases rs with q | q <;> cases q <;> rfl

theorem geth (rd : SReg) (rs : DReg) : Statement (.geth rd rs) := by
  rintro wd -
  cases rd <;> cases rs <;> rfl

theorem getl (rd : SReg) (rs : DReg) : Statement (.getl rd rs) := by
  rintro wd -
  cases rd <;> cases rs <;> rfl

theorem puth (rd : DReg) (rs : SReg) : Statement (.puth rd rs) := by
  rintro wd -
  cases rd <;> cases rs <;> rfl

theorem putl (rd : DReg) (rs : SReg) : Statement (.putl rd rs) := by
  rintro wd -
  cases rd <;> cases rs <;> rfl

theorem add (rd rs : Reg) : Statement (.add rd rs) := by
  rintro wd -
  rcases rd with r | r <;> cases r <;> rcases rs with q | q <;> cases q <;> rfl

theorem sub (rd rs : Reg) : Statement (.sub rd rs) := by
  rintro wd -
  rcases rd with r | r <;> cases r <;> rcases rs with q | q <;> cases q <;> rfl

theorem addh (rd : DReg) (rs : Reg) (t : Bool) : Statement (.addh rd rs t) := by
  rintro wd -
  cases rd <;> rcases rs with q | q <;> cases q <;> cases t <;> rfl

theorem subh (rd : DReg) (rs : Reg) (t : Bool) : Statement (.subh rd rs t) := by
  rintro wd -
  cases rd <;> rcases rs with q | q <;> cases q <;> cases t <;> rfl

theorem shl (rd : Reg) (f : Bool) (amt : BitVec 6) : Statement (.shl rd f amt) := by
  rintro wd -
  rw [Instr.rowIndex, show opcodeMap[11]? = some (opcodeMap[11]'(by decide)) from rfl, Option.map_some,
    accepts_width rfl wd .w2]
  refine congrArg some ?_
  revert amt
  rcases rd with r | r <;> cases r <;> cases f <;> decide +kernel

theorem shr (rd : Reg) (f : ShrFill) (amt : BitVec 6) : Statement (.shr rd f amt) := by
  rintro wd -
  rw [Instr.rowIndex, show opcodeMap[12]? = some (opcodeMap[12]'(by decide)) from rfl, Option.map_some,
    accepts_width rfl wd .w2]
  refine congrArg some ?_
  revert amt
  rcases rd with r | r <;> cases r <;> cases f <;> decide +kernel

theorem neg (rd : Reg) : Statement (.neg rd) := by
  rintro wd -
  rcases rd with r | r <;> cases r <;> rfl

theorem not (rd : Reg) : Statement (.not rd) := by
  rintro wd -
  rcases rd with r | r <;> cases r <;> rfl

theorem btst (rd : Reg) (bi k : BitVec 4) : Statement (.btst rd bi k) := by
  rintro wd -
  rw [Instr.rowIndex, show opcodeMap[15]? = some (opcodeMap[15]'(by decide)) from rfl, Option.map_some,
    accepts_width rfl wd .w2]
  refine congrArg some ?_
  revert bi k
  rcases rd with r | r <;> cases r <;> decide +kernel

theorem bset (rd : Reg) (bi k : BitVec 4) : Statement (.bset rd bi k) := by
  rintro wd -
  rw [Instr.rowIndex, show opcodeMap[16]? = some (opcodeMap[16]'(by decide)) from rfl, Option.map_some,
    accepts_width rfl wd .w2]
  refine congrArg some ?_
  revert bi k
  rcases rd with r | r <;> cases r <;> decide +kernel

theorem bclr (rd : Reg) (bi k : BitVec 4) : Statement (.bclr rd bi k) := by
  rintro wd -
  rw [Instr.rowIndex, show opcodeMap[17]? = some (opcodeMap[17]'(by decide)) from rfl, Option.map_some,
    accepts_width rfl wd .w2]
  refine congrArg some ?_
  revert bi k
  rcases rd with r | r <;> cases r <;> decide +kernel

theorem mulc (rd : DReg) (rs rt : SReg) : Statement (.mulc rd rs rt) := by
  rintro wd -
  cases rd <;> cases rs <;> cases rt <;> rfl

theorem mulb (rd : DReg) (rs rt : SReg) : Statement (.mulb rd rs rt) := by
  rintro wd -
  cases rd <;> cases rs <;> cases rt <;> rfl

theorem mulf (rd : DReg) (rs rt : SReg) : Statement (.mulf rd rs rt) := by
  rintro wd -
  cases rd <;> cases rs <;> cases rt <;> rfl

theorem div (rd : SReg) (rs : DReg) (rt rem : SReg) : Statement (.div rd rs rt rem) := by
  intro wd h
  cases rd <;> cases rs <;> cases rt <;> cases rem <;> first | rfl | exact absurd h Bool.false_ne_true

theorem setfmt (h : Bool) (bu : BitVec 6) (dw : BitVec 4) : Statement (.setfmt h bu dw) := by
  rintro wd -
  rw [Instr.rowIndex, show opcodeMap[22]? = some (opcodeMap[22]'(by decide)) from rfl, Option.map_some,
    accepts_width rfl wd .w2]
  refine congrArg some ?_
  revert bu dw
  cases h <;> decide +kernel

theorem norm (rd : SReg) : Statement (.norm rd) := by
  rintro wd -
  cases rd <;> rfl

theorem unhide (rd : SReg) : Statement (.unhide rd) := by
  rintro wd -
  cases rd <;> rfl

theorem hide (rd : SReg) : Statement (.hide rd) := by
  rintro wd -
  cases rd <;> rfl

theorem gets (sel : Selector) : Statement (.gets sel) := by
  rintro wd -
  cases sel <;> rfl

end Sys2Proof.Laws.EncodedRow
end

