-- ==== Sys2Proof/Machine/Asm.lean ====
section
/-! DEFINITION. The assembler syntax of 30_encoding.md R75 with the pseudo-instructions of R76: from one line of text to the
instruction it encodes. It is notation for programs; no step reads it. -/

namespace Sys2Proof.Machine

open Sys2Proof

/-- The mnemonics of R75, then the four pseudo-instructions of R76 that are mnemonics of their own. -/
inductive Mnemonic where
  | set | get | copy | geth | getl | puth | putl | add | sub | addh | subh | shl | shr | neg | not
  | btst | bset | bclr | mulc | mulb | mulf | div | setfmt | norm | unhide | hide | gets
  | sar | lsr | lsl | clr
  deriving DecidableEq, Repr

/-- An operand as written: a register name, a number after `#`, or another word. -/
inductive AsmOperand where
  | reg (r : Reg)
  | num (v : Int)
  | word (cs : List Char)
  deriving DecidableEq, Repr

/-- The mnemonics as text. -/
def mnemonicNames : List (List Char × Mnemonic) :=
  [(['S', 'E', 'T'], .set), (['G', 'E', 'T'], .get), (['C', 'O', 'P', 'Y'], .copy), (['G', 'E', 'T', 'H'], .geth),
   (['G', 'E', 'T', 'L'], .getl), (['P', 'U', 'T', 'H'], .puth), (['P', 'U', 'T', 'L'], .putl), (['A', 'D', 'D'], .add),
   (['S', 'U', 'B'], .sub), (['A', 'D', 'D', 'H'], .addh), (['S', 'U', 'B', 'H'], .subh), (['S', 'H', 'L'], .shl),
   (['S', 'H', 'R'], .shr), (['N', 'E', 'G'], .neg), (['N', 'O', 'T'], .not), (['B', 'T', 'S', 'T'], .btst)] ++
  [(['B', 'S', 'E', 'T'], .bset), (['B', 'C', 'L', 'R'], .bclr), (['M', 'U', 'L', 'C'], .mulc), (['M', 'U', 'L', 'B'], .mulb),
   (['M', 'U', 'L', 'F'], .mulf), (['D', 'I', 'V'], .div), (['S', 'E', 'T', 'F', 'M', 'T'], .setfmt),
   (['N', 'O', 'R', 'M'], .norm), (['U', 'N', 'H', 'I', 'D', 'E'], .unhide), (['H', 'I', 'D', 'E'], .hide),
   (['G', 'E', 'T', 'S'], .gets), (['S', 'A', 'R'], .sar), (['L', 'S', 'R'], .lsr), (['L', 'S', 'L'], .lsl),
   (['C', 'L', 'R'], .clr)]

/-- The register names (R75). -/
def registerNames : List (List Char × Reg) :=
  [(['S', '0'], .single .s0), (['S', '1'], .single .s1), (['S', '2'], .single .s2), (['S', '3'], .single .s3),
   (['D', '0'], .double .d0), (['D', '1'], .double .d1)]

/-- The control-register names of GETS (R75). -/
def selectorNames : List (List Char × Selector) :=
  [(['S', 'T', 'A', 'T', 'U', 'S'], .status), (['C', 'A', 'U', 'S', 'E'], .cause), (['C', 'N', 'T'], .cnt),
   (['M', 'F', 'M', 'T'], .mfmt), (['F', 'C', 'M', 'D'], .fcmd)]

/-- A name looked up in one of the tables above. -/
def lookupName {α : Type} (cs : List Char) : List (List Char × α) → Option α
  | [] => none
  | (name, v) :: rest => if cs = name then some v else lookupName cs rest

/-- The value of a decimal or hexadecimal digit. -/
def digitValue (c : Char) : Option Nat :=
  if '0' ≤ c ∧ c ≤ '9' then some (c.toNat - 48)
  else if 'a' ≤ c ∧ c ≤ 'f' then some (c.toNat - 87)
  else if 'A' ≤ c ∧ c ≤ 'F' then some (c.toNat - 55)
  else none

/-- A run of digits in a base, `acc` being the value of those before it. -/
def parseDigits (base : Nat) : (acc : Nat) → List Char → Option Nat
  | acc, [] => some acc
  | acc, c :: cs =>
    match digitValue c with
    | some v => if v < base then parseDigits base (acc * base + v) cs else none
    | none => none

/-- A number, decimal or `0x` hexadecimal (R75). -/
def parseNat : List Char → Option Nat
  | [] => none
  | '0' :: 'x' :: [] => none
  | '0' :: 'x' :: ds => parseDigits 16 0 ds
  | ds => parseDigits 10 0 ds

/-- A number with an optional minus sign. -/
def parseInt : List Char → Option Int
  | '-' :: ds => (parseNat ds).map fun v => -(v : Int)
  | ds => (parseNat ds).map fun v => (v : Int)

/-- Text without blanks at its two ends. -/
def trimBlanks (cs : List Char) : List Char :=
  ((cs.dropWhile (· == ' ')).reverse.dropWhile (· == ' ')).reverse

/-- The pieces of a text between the occurrences of a character. -/
def splitAtChar (sep : Char) : List Char → List (List Char)
  | [] => [[]]
  | c :: cs =>
    if c = sep then [] :: splitAtChar sep cs
    else
      match splitAtChar sep cs with
      | [] => [[c]]
      | piece :: rest => (c :: piece) :: rest

/-- One operand. -/
def parseOperand (cs : List Char) : Option AsmOperand :=
  match cs with
  | [] => none
  | '#' :: ds => (parseInt ds).map .num
  | _ =>
    match lookupName cs registerNames with
    | some r => some (.reg r)
    | none => some (.word cs)

/-- A list of operands, all of which must be well written. -/
def parseOperands : List (List Char) → Option (List AsmOperand)
  | [] => some []
  | cs :: rest =>
    match parseOperand (trimBlanks cs), parseOperands rest with
    | some o, some os => some (o :: os)
    | _, _ => none

/-- SET with the payload `lit mod 2^(8w)`, where `lit` lies in `-2^(8w-1) .. 2^(8w)-1` (R75). -/
def asmSet (wd : Width) (rd : Reg) (lit : Int) : Option Instr :=
  let w := wd.ofReg rd
  if -(2 ^ (8 * w - 1)) ≤ lit ∧ lit ≤ 2 ^ (8 * w) - 1 then some (.set rd (toBytes w (lit % 2 ^ (8 * w)).toNat))
  else none

/-- A number that must fit a field of `n` bits. -/
def asmField (n : Nat) (v : Int) : Option (BitVec n) :=
  if 0 ≤ v ∧ v < 2 ^ n then some (BitVec.ofInt n v) else none

/-- The fill of SHL as written (R75). -/
def asmShlFill : List Char → Option Bool
  | ['0'] => some false
  | ['1'] => some true
  | _ => none

/-- The fill of SHR as written (R75). -/
def asmShrFill : List Char → Option ShrFill
  | ['0'] => some .zero
  | ['1'] => some .one
  | ['s', 'i', 'g', 'n'] => some .sign
  | _ => none

/-- A bit command with its byte and bit index (R75). -/
def asmBit (make : Reg → BitVec 4 → BitVec 4 → Instr) (rd : Reg) (bi k : Int) : Option Instr :=
  match asmField 4 bi, asmField 4 k with
  | some bi, some k => some (make rd bi k)
  | _, _ => none

/-- SETFMT with `bitsUsed`, `digitWidth`, `hiddenOne` (R75). -/
def asmSetfmt (bu dw h : Int) : Option Instr :=
  match asmField 6 bu, asmField 4 dw, asmField 1 h with
  | some bu, some dw, some h => some (.setfmt (h == 1#1) bu dw)
  | _, _, _ => none

/-- The two named formats (R76). -/
def asmFormat : List Char → Option Instr
  | ['F', '1'] => asmSetfmt 12 4 0
  | ['F', '2'] => asmSetfmt 11 1 1
  | _ => none

/-- The instruction a mnemonic and its operands encode (R75), or the one command a pseudo-instruction expands to (R76). -/
def assemble (wd : Width) : Mnemonic → List AsmOperand → Option Instr
  | .set, [.reg rd, .num v] => asmSet wd rd v
  | .get, [.reg rd] => some (.get rd)
  | .copy, [.reg rd, .reg rs] => some (.copy rd rs)
  | .geth, [.reg (.single rd), .reg (.double rs)] => some (.geth rd rs)
  | .getl, [.reg (.single rd), .reg (.double rs)] => some (.getl rd rs)
  | .puth, [.reg (.double rd), .reg (.single rs)] => some (.puth rd rs)
  | .putl, [.reg (.double rd), .reg (.single rs)] => some (.putl rd rs)
  | .add, [.reg rd, .reg rs] => some (.add rd rs)
  | .sub, [.reg rd, .reg rs] => some (.sub rd rs)
  | .addh, [.reg (.double rd), .reg rs] => some (.addh rd rs false)
  | .addh, [.reg (.double rd), .reg rs, .word cs] =>
    if cs = ['t', 'r', 'u', 'n', 'c'] then some (.addh rd rs true) else none
  | .subh, [.reg (.double rd), .reg rs] => some (.subh rd rs false)
  | .subh, [.reg (.double rd), .reg rs, .word cs] =>
    if cs = ['t', 'r', 'u', 'n', 'c'] then some (.subh rd rs true) else none
  | .shl, [.reg rd, .num v] => (asmField 6 v).map (.shl rd false)
  | .shl, [.reg rd, .num v, .word cs] => (asmShlFill cs).bind fun f => (asmField 6 v).map (.shl rd f)
  | .shr, [.reg rd, .num v] => (asmField 6 v).map (.shr rd .sign)
  | .shr, [.reg rd, .num v, .word cs] => (asmShrFill cs).bind fun f => (asmField 6 v).map (.shr rd f)
  | .neg, [.reg rd] => some (.neg rd)
  | .not, [.reg rd] => some (.not rd)
  | .btst, [.reg rd, .num bi, .num k] => asmBit .btst rd bi k
  | .bset, [.reg rd, .num bi, .num k] => asmBit .bset rd bi k
  | .bclr, [.reg rd, .num bi, .num k] => asmBit .bclr rd bi k
  | .mulc, [.reg (.double rd), .reg (.single rs), .reg (.single rt)] => some (.mulc rd rs rt)
  | .mulb, [.reg (.double rd), .reg (.single rs), .reg (.single rt)] => some (.mulb rd rs rt)
  | .mulf, [.reg (.double rd), .reg (.single rs), .reg (.single rt)] => some (.mulf rd rs rt)
  | .div, [.reg (.single q), .reg (.single r), .reg (.double n), .reg (.single m)] =>
    if q = r then none else some (.div q n m r)
  | .setfmt, [.num bu, .num dw, .num h] => asmSetfmt bu dw h
  | .setfmt, [.word cs] => asmFormat cs
  | .norm, [.reg (.single rd)] => some (.norm rd)
  | .unhide, [.reg (.single rd)] => some (.unhide rd)
  | .hide, [.reg (.single rd)] => some (.hide rd)
  | .gets, [.word cs] => (lookupName cs selectorNames).map .gets
  | .sar, [.reg rd, .num v] => (asmField 6 v).map (.shr rd .sign)
  | .lsr, [.reg rd, .num v] => (asmField 6 v).map (.shr rd .zero)
  | .lsl, [.reg rd, .num v] => (asmField 6 v).map (.shl rd false)
  | .clr, [.reg rd] => some (.sub rd rd)
  | _, _ => none

/-- The instruction of one line of assembler text, its comment left out (R75); nothing for a blank line or one that is not
written as R75 says. -/
def assembleLine (wd : Width) (line : List Char) : Option Instr :=
  let code := trimBlanks (line.takeWhile (· != ';'))
  let name := code.takeWhile (· != ' ')
  let rest := code.dropWhile (· != ' ')
  match lookupName name mnemonicNames, parseOperands (splitAtChar ',' rest) with
  | some m, some os => assemble wd m os
  | _, _ => none

end Sys2Proof.Machine
end

