-- ==== Sys2Proof/Tests/Slice0.lean ====
section
/-! SUPPORT. The model's own tests: ill-formed terms and words are refused, every constructor's decoding is shown by a word
of the spec, one or two single steps per instruction with the values of spec/95_test_vectors.md, and for each statement with
hypotheses a witness that they can be met together. Words of tests are written out from 30_encoding.md R61 to R69 by the
spec's own examples. -/

namespace Sys2Proof.Tests

open Sys2Proof Sys2Proof.Machine

/-- A framed command without a payload. -/
def cmd (w : Nat) : Command := { word := BitVec.ofNat 16 w, payload := [] }

/-- The bytes of a value. -/
def bytes (w v : Nat) : Register := toBytes w v

/-- What one step on a command shows of the state after it. -/
def shows {α : Type} (c : Command) (s : State) (f : State → α) : Option α :=
  match step (present (.command c) s) with
  | .next t => some (f t)
  | .fault _ => none
  | .refused _ => none

/-- The fault record, and whether all else that a command can write is as it was in `s`. -/
def faulted (s t : State) : Byte × Word × Bool :=
  (t.cause, t.fcmd, t == { s with f := true, cause := t.cause, fcmd := t.fcmd, index := s.index + 1 })

/-- The reset state with S0 and S1. -/
def st (a b : Nat) : State := { State.reset with s0 := bytes 2 a, s1 := bytes 2 b }

/-- The reset state with D0 and S1. -/
def dt (a b : Nat) : State := { State.reset with d0 := bytes 4 a, s1 := bytes 2 b }

/-- The reset state of a DMC-AU with W = 4. -/
def wide : State := State.resetWith { Params.default with width := .w4 }

/-- The fault state that DIV by zero leaves (spec/95_test_vectors.md section 10.1, row 6). -/
def broken : State := { dt 100 0 with f := true, cause := 5#8, fcmd := 0xA287#16, c := true }

/-- Row 3 of trace T1 of spec/95_test_vectors.md. -/
def t1Row3 : StepRecord where
  alg := .mulc
  kind := .iter
  idx := 3
  action := .add
  operand := some (bytes 2 0x0058)
  before := some (bytes 4 0x00580009)
  fill := some false
  after := bytes 4 0x002C0004

/-- Row 16 of trace T5b. -/
def t5bRow16 : StepRecord where
  alg := .mulb
  kind := .iter
  idx := 16
  action := .sub
  operand := some (bytes 2 0x8000)
  before := some (bytes 4 0x80000001)
  fill := some false
  prev := some false
  cur := some true
  after := bytes 4 0x40000000

/-! ### WellFormed: the two checks (30_encoding.md R60; 60_exceptions.md R227 items 5 and 6) -/

theorem test_wellFormed_set_payload :
    Instr.wellFormed .w2 (.set (.single .s0) [0x58#8]) = false ∧
    Instr.wellFormed .w2 (.set (.double .d0) [0x00#8, 0x58#8]) = false ∧
    Instr.wellFormed .w2 (.set (.single .s0) [0x00#8, 0x58#8]) = true ∧
    Instr.wellFormed .w4 (.set (.single .s0) [0x00#8, 0x58#8]) = false := by decide

theorem test_wellFormed_div_destinations :
    Instr.wellFormed .w2 (.div .s2 .d0 .s1 .s2) = false ∧ Instr.wellFormed .w2 (.div .s2 .d0 .s1 .s3) = true := by decide

/-! ### Decoding: one word per constructor, from spec/95_test_vectors.md and the section files -/

theorem test_decode_set :
    decode .w2 ⟨0x0C00#16, [0x12#8, 0x34#8, 0x56#8, 0x78#8]⟩ = .ok (.set (.double .d0) [0x12#8, 0x34#8, 0x56#8, 0x78#8]) := by rfl

theorem test_decode_get :
    decode .w2 (cmd 0x1500) = .ok (.get (.double .d1)) := by rfl

theorem test_decode_copy :
    decode .w2 (cmd 0x1860) = .ok (.copy (.single .s0) (.single .s3)) := by rfl

theorem test_decode_geth :
    decode .w2 (cmd 0x2080) = .ok (.geth .s0 .d0) := by rfl

theorem test_decode_getl :
    decode .w2 (cmd 0x2980) = .ok (.getl .s1 .d0) := by rfl

theorem test_decode_puth :
    decode .w2 (cmd 0x3520) = .ok (.puth .d1 .s1) := by rfl

theorem test_decode_putl :
    decode .w2 (cmd 0x3D00) = .ok (.putl .d1 .s0) := by rfl

theorem test_decode_add :
    decode .w2 (cmd 0x4420) = .ok (.add (.double .d0) (.single .s1)) := by rfl

theorem test_decode_sub :
    decode .w2 (cmd 0x4A40) = .ok (.sub (.single .s2) (.single .s2)) := by rfl

theorem test_decode_addh :
    decode .w2 (cmd 0x54A1) = .ok (.addh .d0 (.double .d1) true) := by rfl

theorem test_decode_subh :
    decode .w2 (cmd 0x5C00) = .ok (.subh .d0 (.single .s0) false) := by rfl

theorem test_decode_shl :
    decode .w2 (cmd 0x6043) = .ok (.shl (.single .s0) true 3#6) := by rfl

theorem test_decode_shr :
    decode .w2 (cmd 0x6894) = .ok (.shr (.single .s0) .sign 20#6) := by rfl

theorem test_decode_neg :
    decode .w2 (cmd 0x7400) = .ok (.neg (.double .d0)) := by rfl

theorem test_decode_not :
    decode .w2 (cmd 0x7D00) = .ok (.not (.double .d1)) := by rfl

theorem test_decode_btst :
    decode .w2 (cmd 0x8430) = .ok (.btst (.double .d0) 3#4 0#4) := by rfl

theorem test_decode_bset :
    decode .w2 (cmd 0x8807) = .ok (.bset (.single .s0) 0#4 7#4) := by rfl

theorem test_decode_bclr :
    decode .w2 (cmd 0x9016) = .ok (.bclr (.single .s0) 1#4 6#4) := by rfl

theorem test_decode_mulc :
    decode .w2 (cmd 0x9C04) = .ok (.mulc .d0 .s0 .s1) := by rfl

theorem test_decode_mulb :
    decode .w2 (cmd 0x9D45) = .ok (.mulb .d1 .s2 .s1) := by rfl

theorem test_decode_mulf :
    decode .w2 (cmd 0x9D26) = .ok (.mulf .d1 .s1 .s1) := by rfl

theorem test_decode_div :
    decode .w2 (cmd 0xA184) = .ok (.div .s1 .d0 .s1 .s0) := by rfl

theorem test_decode_setfmt :
    decode .w2 (cmd 0xACB1) = .ok (.setfmt true 11#6 1#4) := by rfl

theorem test_decode_norm :
    decode .w2 (cmd 0xB000) = .ok (.norm .s0) := by rfl

theorem test_decode_unhide :
    decode .w2 (cmd 0xB800) = .ok (.unhide .s0) := by rfl

theorem test_decode_hide :
    decode .w2 (cmd 0xC000) = .ok (.hide .s0) := by rfl

theorem test_decode_gets :
    decode .w2 (cmd 0xC804) = .ok (.gets .fcmd) := by rfl

/-! ### Decoding: refusals by name (60_exceptions.md R227; words of sections 3 to 10 of the vectors) -/

theorem test_refuse_reservedOpcode :
    decode .w2 (cmd 0x0000) = .error .reservedOpcode ∧
    decode .w2 (cmd 0xD000) = .error .reservedOpcode ∧
    decode .w2 (cmd 0xFFFF) = .error .reservedOpcode := by
  refine ⟨?_, ?_, ?_⟩ <;> rfl

theorem test_refuse_reservedBits :
    decode .w2 (cmd 0x4021) = .error .reservedBits ∧
    decode .w2 (cmd 0x5422) = .error .reservedBits ∧
    decode .w2 (cmd 0xC008) = .error .reservedBits ∧
    decode .w2 (cmd 0xC808) = .error .reservedBits := by
  refine ⟨?_, ?_, ?_, ?_⟩ <;> rfl

theorem test_refuse_reservedFunction :
    decode .w2 (cmd 0x9C07) = .error .reservedFunction := by
  rfl

theorem test_refuse_reservedFill :
    decode .w2 (cmd 0x6081) = .error .reservedFill ∧
    decode .w2 (cmd 0x60C1) = .error .reservedFill ∧
    decode .w2 (cmd 0x68C1) = .error .reservedFill := by
  refine ⟨?_, ?_, ?_⟩ <;> rfl

theorem test_refuse_reservedSelector :
    decode .w2 (cmd 0xC805) = .error .reservedSelector := by
  rfl

theorem test_refuse_reservedSpecifier :
    decode .w2 (cmd 0x40E0) = .error .reservedSpecifier ∧
    decode .w2 (cmd 0xA2C7) = .error .reservedSpecifier := by
  refine ⟨?_, ?_⟩ <;> rfl

theorem test_refuse_wrongClass :
    decode .w2 (cmd 0x2580) = .error .wrongClass ∧
    decode .w2 (cmd 0x2820) = .error .wrongClass ∧
    decode .w2 (cmd 0x3020) = .error .wrongClass ∧
    decode .w2 (cmd 0x5020) = .error .wrongClass ∧
    decode .w2 (cmd 0x9804) = .error .wrongClass ∧
    decode .w2 (cmd 0x9CA4) = .error .wrongClass ∧
    decode .w2 (cmd 0xA227) = .error .wrongClass ∧
    decode .w2 (cmd 0xA293) = .error .wrongClass ∧
    decode .w2 (cmd 0xA487) = .error .wrongClass ∧
    decode .w2 (cmd 0xB400) = .error .wrongClass := by
  refine ⟨?_, ?_, ?_, ?_, ?_, ?_, ?_, ?_, ?_, ?_⟩ <;> rfl

theorem test_refuse_sameDestination :
    decode .w2 (cmd 0xA286) = .error .sameDestination := by
  rfl

theorem test_refuse_payloadLength :
    decode .w2 ⟨0x0800#16, [0x58#8]⟩ = .error .payloadLength ∧
    decode .w2 ⟨0x0800#16, [0x00#8, 0x00#8, 0x00#8, 0x58#8]⟩ = .error .payloadLength ∧
    decode .w2 ⟨0x1000#16, [0x00#8]⟩ = .error .payloadLength ∧
    decode .w4 ⟨0x0800#16, [0x00#8, 0x58#8]⟩ = .error .payloadLength := by
  refine ⟨?_, ?_, ?_, ?_⟩ <;> rfl

theorem test_table_word :
    decodeTableWord 16 0x4420 = some (.add (.double .d0) (.single .s1)) ∧
    decodeTableWord 16 0x0800 = some (.set (.single .s0) [0x00#8, 0x00#8]) ∧
    decodeTableWord 32 0x58000800 = some (.set (.single .s0) [0x00#8, 0x58#8]) ∧
    decodeTableWord 16 0x0000 = none := by decide

theorem test_fetch_word :
    (match step (State.reset.withFetchWord 16 0x7800) with
      | .next t => some (t.s0, t.index)
      | _ => none) = some ([0xFF#8, 0xFF#8], 1) := by decide

/-- The start of program P1 as one byte string (30_encoding.md R77). -/
theorem test_listing :
    cutListing .w2 10 [0x08#8, 0x00#8, 0x00#8, 0x58#8, 0x1A#8, 0x00#8, 0x40#8, 0x20#8] =
    some [⟨0x0800#16, [0x00#8, 0x58#8]⟩, cmd 0x1A00, cmd 0x4020] := by decide

/-! ### Byte primitives (spec/95_test_vectors.md section 2) -/

theorem test_badd :
    badd 0x58#8 0x24#8 false = (false, 0x7C#8) ∧ badd 0xFF#8 0xFF#8 true = (true, 0xFF#8) ∧
    badd 0x80#8 0x80#8 false = (true, 0x00#8) := by decide

theorem test_bsub :
    bsub 0x24#8 0x58#8 false = (true, 0xCC#8) ∧ bsub 0x00#8 0xFF#8 true = (true, 0x00#8) ∧
    bsub 0x80#8 0x01#8 false = (false, 0x7F#8) := by decide

theorem test_bshl_bshr :
    bshl 0x81#8 true = (true, 0x03#8) ∧ bshl 0x40#8 false = (false, 0x80#8) ∧
    bshr 0x81#8 false = (true, 0x40#8) ∧ bshr 0x02#8 true = (false, 0x81#8) := by decide

theorem test_bsar :
    bsar .zeroInsert 0xC5#8 = (true, 0xA2#8) ∧ bsar .replicate6 0x7F#8 = (true, 0x7F#8) ∧
    bsar .sign 0x85#8 = (true, 0xC2#8) ∧ bsar .zeroInsert 0x85#8 = (true, 0x82#8) := by decide

theorem test_bget :
    bget 0x58#8 3 = .ok true ∧ bget 0x58#8 0 = .ok false ∧ bget 0x58#8 8 = .error .operandRange := by
  refine ⟨?_, ?_, ?_⟩ <;> rfl

theorem test_bput :
    bput 0x58#8 0 true = .ok 0x59#8 ∧ bput 0x58#8 6 false = .ok 0x18#8 ∧ bput 0x58#8 8 true = .error .operandRange := by
  refine ⟨?_, ?_, ?_⟩ <;> rfl

theorem test_bnib_bnot :
    bnib 0x58#8 true = 0x5#4 ∧ bnib 0x58#8 false = 0x8#4 ∧ bnot 0x58#8 = 0xA7#8 := by decide

theorem test_performBinOp :
    performBinOp .sign bsub [0x01#8, 0x00#8] [0x00#8, 0x01#8] = (false, [0x00#8, 0xFF#8]) ∧
    performBinOp .sign badd [0x00#8, 0x01#8, 0x00#8, 0x00#8] [0xFF#8, 0xFF#8] = (true, [0x00#8, 0x00#8, 0xFF#8, 0xFF#8]) ∧
    performBinOp .zero badd [0x00#8, 0x01#8, 0x00#8, 0x00#8] [0xFF#8, 0xFF#8] = (false, [0x00#8, 0x01#8, 0xFF#8, 0xFF#8]) := by decide

/-! ### One step per instruction (spec/95_test_vectors.md, the section named; W = 2 unless the name says otherwise) -/

/-! Section 3: moving data. -/

theorem test_set :
    shows ⟨0x0900#16, [0xFF#8, 0xDC#8]⟩ State.reset State.s1 =
      some (bytes 2 0xFFDC) := by decide

theorem test_set_short :
    shows ⟨0x0800#16, [0x58#8]⟩ State.reset (faulted State.reset) =
      some (1#8, 0x0800#16, true) := by decide

theorem test_get :
    shows (cmd 0x1500) { State.reset with d1 := bytes 4 0xFFFFF3A0 } State.dout =
      some [0xFF#8, 0xFF#8, 0xF3#8, 0xA0#8] := by decide

theorem test_copy :
    shows (cmd 0x1860) { State.reset with s3 := bytes 2 0xBEEF, c := true } (fun t => (t.s0, t.s3, t.c)) =
      some (bytes 2 0xBEEF, bytes 2 0xBEEF, true) := by decide

theorem test_copy_widths :
    shows (cmd 0x1C00) (st 5 0) (faulted (st 5 0)) =
      some (2#8, 0x1C00#16, true) := by decide

theorem test_geth :
    shows (cmd 0x2080) (dt 0x12345678 0) (fun t => (t.s0, t.d0)) =
      some (bytes 2 0x1234, bytes 4 0x12345678) := by decide

theorem test_getl :
    shows (cmd 0x2980) (dt 0x12345678 0) State.s1 =
      some (bytes 2 0x5678) := by decide

theorem test_puth :
    shows (cmd 0x3520) (st 0 0x5678) State.d1 =
      some (bytes 4 0x56780000) := by decide

theorem test_putl :
    shows (cmd 0x3D00) { st 0x1234 0 with d1 := bytes 4 0x56780000 } State.d1 =
      some (bytes 4 0x56781234) := by decide

/-! Section 4: addition and subtraction. -/

theorem test_add :
    shows (cmd 0x4020) { st 0xFFFF 1 with c := true } (fun t => (t.s0, t.c)) =
      some (bytes 2 0x0000, true) := by decide

theorem test_add_extends :
    shows (cmd 0x4420) (dt 0x00010000 0xFFFF) (fun t => (t.d0, t.c)) =
      some (bytes 4 0x0000FFFF, true) := by decide

theorem test_sub :
    shows (cmd 0x4820) (st 0x24 0x58) (fun t => (t.s0, t.c)) =
      some (bytes 2 0xFFCC, true) := by decide

theorem test_sub_wider :
    shows (cmd 0x4880) { dt 5 0 with s0 := bytes 2 1 } (faulted { dt 5 0 with s0 := bytes 2 1 }) =
      some (2#8, 0x4880#16, true) := by decide

theorem test_addh_trunc :
    shows (cmd 0x54A1) { dt 0x12345678 0 with d1 := bytes 4 0xFFFFFFDC } (fun t => (t.d0, t.c)) =
      some (bytes 4 0x12105678, true) := by decide

theorem test_addh_high :
    shows (cmd 0x54A0) { dt 0x12345678 0 with d1 := bytes 4 0xFFFFFFDC }
      (faulted { dt 0x12345678 0 with d1 := bytes 4 0xFFFFFFDC }) =
      some (3#8, 0x54A0#16, true) := by decide

theorem test_subh :
    shows (cmd 0x5C00) { dt 0x00105678 0 with s0 := bytes 2 0x0020 } (fun t => (t.d0, t.c)) =
      some (bytes 4 0xFFF05678, true) := by decide

/-- Section 10.2: the operand is read before the destination is written. -/
theorem test_subh_self :
    shows (cmd 0x5C81) (dt 0x12345678 0) (fun t => (t.d0, t.c)) =
      some (bytes 4 0xBBBC5678, true) := by decide

/-! Section 5: shifts. -/

theorem test_shl :
    shows (cmd 0x6043) (st 0x8001 0) (fun t => (t.s0, t.c)) =
      some (bytes 2 0x000F, false) := by decide

theorem test_shl_width :
    shows (cmd 0x6010) (st 0x8001 0) (fun t => (t.s0, t.c)) =
      some (bytes 2 0x0000, true) := by decide

theorem test_shr_sign :
    shows (cmd 0x6894) (st 0x8005 0) (fun t => (t.s0, t.c)) =
      some (bytes 2 0xFFFF, true) := by decide +kernel

theorem test_shr_zero_amount :
    shows (cmd 0x6880) { st 0x8001 0 with c := true } (fun t => (t.s0, t.c)) =
      some (bytes 2 0x8001, true) := by decide

/-! Section 6: complement and bits. -/

theorem test_neg :
    shows (cmd 0x7000) { st 0x0058 0 with c := true } (fun t => (t.s0, t.c)) =
      some (bytes 2 0xFFA8, true) := by decide

theorem test_neg_minimum :
    shows (cmd 0x7400) (dt 0x80000000 0) State.d0 =
      some (bytes 4 0x80000000) := by decide

theorem test_not :
    shows (cmd 0x7D00) { State.reset with d1 := bytes 4 0x0000FFFF } State.d1 =
      some (bytes 4 0xFFFF0000) := by decide

theorem test_btst :
    shows (cmd 0x8013) (st 0x0058 0) (fun t => (t.s0, t.c)) =
      some (bytes 2 0x0058, true) := by decide

theorem test_btst_range :
    shows (cmd 0x8020) (st 0x0058 0) (faulted (st 0x0058 0)) =
      some (4#8, 0x8020#16, true) := by decide

theorem test_bset :
    shows (cmd 0x8C00) (dt 0x00000058 0) State.d0 =
      some (bytes 4 0x01000058) := by decide

theorem test_bclr :
    shows (cmd 0x9007) (st 0xFFFF 0) (fun t => (t.s0, t.c)) =
      some (bytes 2 0x7FFF, false) := by decide

theorem test_bclr_range :
    shows (cmd 0x9019) (st 0xFFFF 0) (faulted (st 0xFFFF 0)) =
      some (4#8, 0x9019#16, true) := by decide

/-! Section 7: multiplication, result and number of records. -/

/-- T3b: the correction adds NEG(-88). -/
theorem test_mulc :
    shows (cmd 0x9C04) (st 0xFFA8 0xFFDC) (fun t => (t.d0, t.trace.length)) =
      some (bytes 4 0x00000C60, 17) := by decide +kernel

/-- T1, row 3. -/
theorem test_mulc_record :
    shows (cmd 0x9C04) (st 0x0058 0x0024) (fun t => t.trace[2]? == some t1Row3) =
      some true := by decide +kernel

/-- T5b, row 16: the fill is the sign of the exact difference. -/
theorem test_mulb :
    shows (cmd 0x9C05) (st 0x8000 0x8000) (fun t => t.trace[15]? == some t5bRow16) =
      some true := by decide +kernel

theorem test_mulf :
    shows (cmd 0x9C06) (st 0x7FFF 0x8000) (fun t => (t.d0, t.trace.length)) =
      some (bytes 4 0xC0008000, 9) := by decide +kernel

/-- Section 10.2. -/
theorem test_mulf_same :
    shows (cmd 0x9D26) (st 0 0xFFFD) State.d1 =
      some (bytes 4 0x00000009) := by decide +kernel

/-! Section 8: division. -/

/-- -52 by -26, with the fix-up stage and without it. -/
theorem test_div :
    shows (cmd 0xA287) (dt 0xFFFFFFCC 0xFFE6)
      (fun t => (t.s2, t.s3, t.trace.map StepRecord.kind == [StepKind.trial] ++ List.replicate 15 .iter ++ [.fixup])) =
      some (bytes 2 2, bytes 2 0, true) ∧
    shows (cmd 0xA287) { dt 0xFFFFFFCC 0xFFE6 with params := { Params.default with divFixup := false } }
      (fun t => (t.s2, t.s3, t.trace.length)) =
      some (bytes 2 1, bytes 2 0xFFE6, 16) := by decide +kernel

theorem test_div_faults :
    shows (cmd 0xA287) (dt 0xFFFF8000 0xFFFF) (faulted (dt 0xFFFF8000 0xFFFF)) = some (7#8, 0xA287#16, true) ∧
    shows (cmd 0xA287) (dt 0x00008000 0x0001) (faulted (dt 0x00008000 0x0001)) = some (6#8, 0xA287#16, true) ∧
    shows (cmd 0xA287) (dt 0 0) (faulted (dt 0 0)) = some (5#8, 0xA287#16, true) := by decide +kernel

/-! Section 9: mantissa. -/

theorem test_setfmt :
    shows (cmd 0xACB1) State.reset State.mfmt =
      some 0x04B1#16 := by decide

theorem test_setfmt_range :
    shows (cmd 0xA911) State.reset (faulted State.reset) =
      some (4#8, 0xA911#16, true) := by decide

theorem test_norm :
    shows (cmd 0xB000) { st 0x00A0 0 with c := true, cnt := 9#8 } (fun t => (t.s0, t.cnt, t.c)) =
      some (bytes 2 0xA000, 2#8, true) := by decide

theorem test_norm_zero :
    shows (cmd 0xB000) { State.reset with mfmt := 0x04B1#16 } (fun t => (t.s0, t.cnt)) =
      some (bytes 2 0, 11#8) := by decide

theorem test_unhide :
    shows (cmd 0xB800) { st 0x4021 0 with mfmt := 0x04B1#16 } (fun t => (t.s0, t.c)) =
      some (bytes 2 0xA010, true) := by decide

theorem test_unhide_plain :
    shows (cmd 0xB800) { st 0x4000 0 with c := true } (fun t => (t.s0, t.c)) =
      some (bytes 2 0x4000, true) := by decide

theorem test_hide :
    shows (cmd 0xC000) { st 0x2000 0 with mfmt := 0x04B1#16, c := true } (fun t => (t.s0, t.c)) =
      some (bytes 2 0x4000, false) := by decide

theorem test_hide_plain :
    shows (cmd 0xC000) (st 0xA000 0) (fun t => (t.s0, t.c)) =
      some (bytes 2 0xA000, false) := by decide

/-! Section 10: GETS, the fault state, reset. -/

theorem test_gets :
    shows (cmd 0xC803) { State.reset with mfmt := 0x04B1#16 } State.dout =
      some [0x04#8, 0xB1#8] := by decide

theorem test_gets_in_fault :
    shows (cmd 0xC800) broken State.dout =
      some [0x03#8] := by decide

theorem test_malformed :
    shows (cmd 0xC805) State.reset (faulted State.reset) =
      some (1#8, 0xC805#16, true) := by decide

theorem test_fault_ignores :
    shows (cmd 0x1000) broken (fun t => t == { broken with index := 1 }) = some true ∧
    shows (cmd 0xC805) broken (fun t => t == { broken with index := 1 }) = some true := by decide

theorem test_reset :
    (match step (present .reset broken) with
      | .next t => some t
      | _ => none) = some State.reset := by decide

/-! Section 10.3: other widths. -/

theorem test_width_four :
    shows (cmd 0x643F) { wide with d0 := bytes 8 0x8000000000000001 } (fun t => (t.d0, t.c)) =
      some (bytes 8 0x8000000000000000, false) ∧
    shows (cmd 0xA287) { wide with d0 := bytes 8 0xFFFFFFFFFFFFF884, s1 := bytes 4 0x1A } (fun t => (t.s2, t.s3)) =
      some (bytes 4 0xFFFFFFB7, bytes 4 0xFFFFFFEE) := by decide +kernel

/-! Assembler lines (30_encoding.md R75, R76). -/

theorem test_assemble :
    assembleLine .w2 "SET S1, #-36 ; x".toList = some (.set (.single .s1) [0xFF#8, 0xDC#8]) ∧
    assembleLine .w2 "DIV S2, S3, D0, S1".toList = some (.div .s2 .d0 .s1 .s3) ∧
    assembleLine .w2 "SHR S0, #0x10, sign".toList = some (.shr (.single .s0) .sign 16#6) := by decide

theorem test_pseudo :
    (assembleLine .w2 "SETFMT F2".toList).map encodeWord = some 0xACB1#16 ∧
    (assembleLine .w2 "CLR S2".toList).map encodeWord = some 0x4A40#16 ∧
    (assembleLine .w2 "SAR S0, #1".toList).map encodeWord = some 0x6881#16 := by decide

/-! ### Witnesses: the hypotheses of each statement can be met together, and each of its clauses at its bounds -/

/-- A state that satisfies the invariant, with both operands of most commands set. -/
def live : State := { st 0x8001 0x0024 with d0 := bytes 4 0x12345678, d1 := bytes 4 0x00010002, c := true }

/-- `live` under the hidden-one format F2. -/
def hidden : State := { live with mfmt := 0x04B1#16 }

/-- A state whose next command is `c`. -/
def asks (s : State) (c : Command) : State := { s with pending := [.command c] }

/-- What a command answers, as the state it leaves. -/
def left (i : Instr) (s : State) : State :=
  match exec i s with
  | .next t => t
  | .fault _ => s
  | .refused _ => s

/-- The command answers a next state. -/
def answers (i : Instr) (s : State) : Bool :=
  match exec i s with
  | .next _ => true
  | .fault _ => false
  | .refused _ => false

theorem eq_left {i : Instr} {s : State} (h : answers i s = true) : exec i s = .next (left i s) := by
  unfold answers at h
  unfold left
  split at h
  · rename_i t ht
    simp [ht]
  · cases h
  · cases h

/-- What a step answers, as the state it leaves. -/
def stepped (s : State) : State :=
  match step s with
  | .next t => t
  | .fault _ => s
  | .refused _ => s

/-- The step answers a next state. -/
def stepAnswers (s : State) : Bool :=
  match step s with
  | .next _ => true
  | .fault _ => false
  | .refused _ => false

theorem eq_stepped {s : State} (h : stepAnswers s = true) : step s = .next (stepped s) := by
  unfold stepAnswers at h
  unfold stepped
  split at h
  · rename_i t ht
    simp [ht]
  · cases h
  · cases h

/-- The reset state without the fix-up stage. -/
def literal (a d : Nat) : State := { dt a d with params := { Params.default with divFixup := false } }

theorem witness_DecodeOfEncodeIsTheInstruction :
    Instr.wellFormed .w2 (.set (.single .s0) [0x00#8, 0x58#8]) = true ∧
    Instr.wellFormed .w8 (.div .s0 .d1 .s2 .s3) = true :=
  ⟨by decide, by decide⟩

theorem witness_EncodeOfDecodeIsTheCommand :
    decode .w2 ⟨0x0800#16, [0x00#8, 0x58#8]⟩ = .ok (.set (.single .s0) [0x00#8, 0x58#8]) ∧
    decode .w8 (cmd 0xC804) = .ok (.gets .fcmd) :=
  ⟨rfl, rfl⟩

theorem witness_DecoderAcceptsExactlyTheOpcodeMap :
    decode .w2 (cmd 0x54A1) = .ok (.addh .d0 (.double .d1) true) ∧
    isCommand .w2 (cmd 0x54A1) = true ∧
    isCommand .w2 (cmd 0x54A2) = false :=
  ⟨rfl, by decide, by decide⟩

theorem witness_StepRunsTheDecodedCommand :
    (asks live (cmd 0x4020)).pending = .command (cmd 0x4020) :: [] ∧
    decode (asks live (cmd 0x4020)).params.width (cmd 0x4020) = .ok (.add (.single .s0) (.single .s1)) :=
  ⟨rfl, rfl⟩

theorem witness_MalformedCommandRaisesIllegalCommand :
    (asks live (cmd 0x0000)).pending = .command (cmd 0x0000) :: [] ∧
    (asks live (cmd 0x0000)).f = false ∧
    isCommand (asks live (cmd 0x0000)).params.width (cmd 0x0000) = false ∧
    isCommand (asks live (cmd 0x4020)).params.width (cmd 0x4020) = true :=
  ⟨rfl, rfl, by decide, by decide⟩

theorem witness_StepTakesReset :
    (present .reset broken).pending = .reset :: [] :=
  rfl

theorem witness_EveryStepKeepsTheInvariant :
    (asks live (cmd 0xB000)).WF ∧
    step (asks live (cmd 0xB000)) = .next (stepped (asks live (cmd 0xB000))) :=
  ⟨by decide, rfl⟩

theorem witness_EveryStepKeepsTheTraceShape :
    (stepped (asks live (cmd 0x9C04))).TraceShaped ∧
    (stepped (asks live (cmd 0x9C04))).trace ≠ [] ∧
    step (stepped (asks live (cmd 0x9C04))) = .next (stepped (stepped (asks live (cmd 0x9C04)))) :=
  ⟨by decide +kernel, by decide +kernel, eq_stepped (by decide +kernel)⟩

theorem witness_StepTakesOneEventInOrder :
    step (asks live (cmd 0x4020)) = .next (stepped (asks live (cmd 0x4020))) ∧
    live.pending = [] :=
  ⟨rfl, rfl⟩

theorem witness_FaultStateIgnoresAllButGets :
    (asks broken (cmd 0xC801)).pending = .command (cmd 0xC801) :: [] ∧
    (asks broken (cmd 0xC801)).f = true ∧
    decode (asks broken (cmd 0xC801)).params.width (cmd 0xC801) = .ok (.gets .cause) ∧
    (∀ sel, decode (asks broken (cmd 0xC805)).params.width (cmd 0xC805) ≠ .ok (.gets sel)) ∧
    (∀ sel, decode (asks broken (cmd 0x1000)).params.width (cmd 0x1000) ≠ .ok (.gets sel)) :=
  ⟨rfl, rfl, rfl, (by intro sel h; cases h), (by intro sel h; cases h)⟩

theorem witness_OnlyResetLeavesTheFaultState :
    (present .reset broken).f = true ∧
    step (present .reset broken) = .next (stepped (present .reset broken)) ∧
    (stepped (present .reset broken)).f = false :=
  ⟨rfl, rfl, rfl⟩

theorem witness_FaultEntryIsPrecise :
    (asks live (cmd 0xA28B)).pending = .command (cmd 0xA28B) :: [] ∧
    (asks live (cmd 0xA28B)).f = false ∧
    step (asks live (cmd 0xA28B)) = .next (stepped (asks live (cmd 0xA28B))) ∧
    (stepped (asks live (cmd 0xA28B))).f = true ∧
    live.f = false ∧
    exec (.div .s2 .d0 .s2 .s3) live = .next (left (.div .s2 .d0 .s2 .s3) live) ∧
    (left (.div .s2 .d0 .s2 .s3) live).f = true :=
  ⟨rfl, rfl, rfl, by decide, rfl, rfl, by decide⟩

theorem witness_CommandRaisesOnlyItsOwnFaults :
    live.f = false ∧
    Instr.wellFormed live.params.width (.copy (.single .s0) (.double .d0)) = true ∧
    exec (.copy (.single .s0) (.double .d0)) live =
      .next (takeFault .widthMismatch (encodeWord (.copy (.single .s0) (.double .d0))) live) ∧
    Instr.wellFormed live.params.width (.set (.single .s0) []) = false ∧
    Instr.wellFormed live.params.width (.div .s1 .d0 .s0 .s1) = false :=
  ⟨rfl, rfl, rfl, rfl, rfl⟩

theorem witness_OnlyNamedDestinationsChange :
    exec (.neg (.single .s0)) live = .next (left (.neg (.single .s0)) live) ∧
    (.single .s1) ∉ Instr.dests (.neg (.single .s0)) :=
  ⟨rfl, by decide⟩

theorem witness_CarryChangesOnlyWhereListed :
    exec (.shl (.single .s0) false 0#6) live = .next (left (.shl (.single .s0) false 0#6) live) ∧
    Instr.writesCarry live (.shl (.single .s0) false 0#6) = false ∧
    Instr.writesCarry live (.unhide .s0) = false :=
  ⟨rfl, rfl, by decide⟩

theorem witness_ControlRegistersChangeOnlyWhereListed :
    exec (.hide .s0) live = .next (left (.hide .s0) live) ∧
    Instr.counts (.hide .s0) = false ∧
    Instr.setsFormat (.hide .s0) = false ∧
    (left (.hide .s0) live).f = live.f :=
  ⟨rfl, rfl, rfl, by decide⟩

theorem witness_LogsOnlyGrow :
    exec (.copy (.single .s0) (.double .d0)) live = .next (left (.copy (.single .s0) (.double .d0)) live) ∧
    Instr.emits (.copy (.single .s0) (.double .d0)) = false ∧
    Instr.traces (.copy (.single .s0) (.double .d0)) = false ∧
    (left (.copy (.single .s0) (.double .d0)) live).f = true :=
  ⟨rfl, rfl, rfl, by decide⟩

theorem witness_CarryIsNoInput :
    Instr.add (.single .s0) (.single .s1) ≠ .gets .status ∧
    Instr.writesCarry live (.add (.single .s0) (.single .s1)) = true ∧
    live.f = false ∧
    (left (.add (.single .s0) (.single .s1)) live).f = false :=
  ⟨by decide, rfl, rfl, by decide⟩

theorem witness_SetLoadsItsPayload :
    live.f = false ∧
    [0x00#8, 0x58#8].length = live.widthOf (.single .s0) ∧
    [0x58#8].length ≠ live.widthOf (.single .s0) ∧
    [0x00#8, 0x58#8].length ≠ live.widthOf (.double .d0) :=
  ⟨by decide, by decide, by decide, by decide⟩

theorem witness_GetEmitsTheRegister :
    live.RegsSized ∧
    live.f = false :=
  ⟨by decide, by decide⟩

theorem witness_CopyMovesEqualWidths :
    live.f = false ∧
    live.widthOf (.double .d0) = live.widthOf (.double .d1) ∧
    live.widthOf (.single .s0) ≠ live.widthOf (.double .d1) :=
  ⟨by decide, by decide, by decide⟩

theorem witness_HalvesAreReadByValue :
    live.RegsSized ∧
    live.f = false :=
  ⟨by decide, by decide⟩

theorem witness_HalvesAreWrittenInPlace :
    live.RegsSized ∧
    live.f = false :=
  ⟨by decide, by decide⟩

theorem witness_AddComputesSumAndCarry :
    live.RegsSized ∧
    live.f = false ∧
    live.widthOf (.single .s0) < live.widthOf (.double .d0) ∧
    live.widthOf (.single .s0) ≤ live.widthOf (.double .d0) ∧
    live.widthOf (.single .s0) ≤ live.widthOf (.single .s1) :=
  ⟨by decide, by decide, by decide, by decide, by decide⟩

theorem witness_SubComputesDifferenceAndBorrow :
    live.RegsSized ∧
    live.f = false ∧
    live.widthOf (.single .s0) < live.widthOf (.double .d0) ∧
    live.widthOf (.single .s0) ≤ live.widthOf (.double .d0) ∧
    live.widthOf (.single .s0) ≤ live.widthOf (.single .s1) :=
  ⟨by decide, by decide, by decide, by decide, by decide⟩

theorem witness_AddhAddsIntoTheHighHalf :
    live.RegsSized ∧
    live.f = false ∧
    (2 ^ live.nBits ≤ live.value (.double .d1) ∧ false = false) ∧
    ¬(2 ^ live.nBits ≤ live.value (.double .d1) ∧ true = false) ∧
    ¬(2 ^ live.nBits ≤ live.value (.single .s0) ∧ false = false) :=
  ⟨by decide, by decide, by decide, by decide, by decide⟩

theorem witness_SubhSubtractsFromTheHighHalf :
    live.RegsSized ∧
    live.f = false ∧
    (2 ^ live.nBits ≤ live.value (.double .d1) ∧ false = false) ∧
    ¬(2 ^ live.nBits ≤ live.value (.double .d1) ∧ true = false) ∧
    ¬(2 ^ live.nBits ≤ live.value (.single .s0) ∧ false = false) :=
  ⟨by decide, by decide, by decide, by decide, by decide⟩

theorem witness_NegComputesTheTwosComplement :
    live.RegsSized ∧
    live.f = false :=
  ⟨by decide, by decide⟩

theorem witness_NotComputesTheComplement :
    live.RegsSized ∧
    live.f = false :=
  ⟨by decide, by decide⟩

theorem witness_ShlShiftsAndReportsTheLastBit :
    live.RegsSized ∧
    live.f = false ∧
    (0#6).toNat = 0 ∧
    (16#6).toNat = live.bitsOf (.single .s0) ∧
    live.bitsOf (.single .s0) < (17#6).toNat :=
  ⟨by decide, by decide, by decide, by decide, by decide⟩

theorem witness_ShrShiftsAndReportsTheLastBit :
    live.RegsSized ∧
    live.f = false ∧
    (0#6).toNat = 0 ∧
    (16#6).toNat = live.bitsOf (.single .s0) ∧
    live.bitsOf (.single .s0) < (17#6).toNat ∧
    msb (live.reg (.single .s0)) = true :=
  ⟨by decide, by decide, by decide, by decide, by decide, by decide⟩

theorem witness_BtstCopiesTheBit :
    live.RegsSized ∧
    live.f = false ∧
    ((1#4).toNat < live.widthOf (.single .s0) ∧ (7#4).toNat ≤ 7) ∧
    (live.widthOf (.single .s0) ≤ (2#4).toNat ∨ 7 < (7#4).toNat) ∧
    (live.widthOf (.single .s0) ≤ (1#4).toNat ∨ 7 < (8#4).toNat) :=
  ⟨by decide, by decide, by decide, by decide, by decide⟩

theorem witness_BsetSetsTheBit :
    live.RegsSized ∧
    live.f = false ∧
    ((1#4).toNat < live.widthOf (.single .s0) ∧ (7#4).toNat ≤ 7) ∧
    (live.widthOf (.single .s0) ≤ (2#4).toNat ∨ 7 < (7#4).toNat) ∧
    (live.widthOf (.single .s0) ≤ (1#4).toNat ∨ 7 < (8#4).toNat) :=
  ⟨by decide, by decide, by decide, by decide, by decide⟩

theorem witness_BclrClearsTheBit :
    live.RegsSized ∧
    live.f = false ∧
    ((1#4).toNat < live.widthOf (.single .s0) ∧ (7#4).toNat ≤ 7) ∧
    (live.widthOf (.single .s0) ≤ (2#4).toNat ∨ 7 < (7#4).toNat) ∧
    (live.widthOf (.single .s0) ≤ (1#4).toNat ∨ 7 < (8#4).toNat) :=
  ⟨by decide, by decide, by decide, by decide, by decide⟩

theorem witness_MulcWritesTheProduct :
    live.RegsSized ∧
    live.f = false :=
  ⟨by decide, by decide⟩

theorem witness_MulbWritesTheProduct :
    live.RegsSized ∧
    live.f = false :=
  ⟨by decide, by decide⟩

theorem witness_MulfWritesTheProduct :
    live.RegsSized ∧
    live.f = false :=
  ⟨by decide, by decide⟩

theorem witness_ThreeMultiplicationsAgree :
    live.RegsSized ∧
    live.f = false :=
  ⟨by decide, by decide⟩

theorem witness_MultiplicationTraceShowsPartialProducts :
    live.RegsSized ∧
    live.f = false ∧
    1 ≤ 1 ∧
    16 ≤ live.nBits ∧
    2 * 8 ≤ live.nBits :=
  ⟨by decide, by decide, by decide, by decide, by decide⟩

theorem witness_MultiplicationStepCounts :
    live.RegsSized ∧
    live.f = false ∧
    ¬signed (live.single .s1) < 0 ∧
    signed (live.single .s0) < 0 :=
  ⟨by decide, by decide, by decide, by decide⟩

theorem witness_MulfNeverAddsAfterTheLoop :
    (st 0x7FFF 0x8000).RegsSized ∧
    (st 0x7FFF 0x8000).f = false ∧
    exec (.mulf .d0 .s0 .s1) (st 0x7FFF 0x8000) = .next (left (.mulf .d0 .s0 .s1) (st 0x7FFF 0x8000)) ∧
    ∃ r ∈ (left (.mulf .d0 .s0 .s1) (st 0x7FFF 0x8000)).trace.drop (st 0x7FFF 0x8000).trace.length, r.kind = .correction :=
  ⟨by decide, rfl, eq_left (by decide +kernel), by decide +kernel⟩

/-- One dividend for each sign case of R183, the last whose quotient by 26 or -26 fits: 32767, -32768, 32767, -32768. -/
theorem witness_DivWritesTruncatedQuotientAndRemainder :
    SReg.s2 ≠ .s3 ∧
    ∀ v ∈ [(0x000CFFFF, 0x001A), (0x000D0019, 0xFFE6), (0xFFF30001, 0xFFE6), (0xFFF2FFE7, 0x001A)],
      (dt v.1 v.2).RegsSized ∧ (dt v.1 v.2).f = false ∧ (dt v.1 v.2).params.divFixup = true ∧
      signed ((dt v.1 v.2).single .s1) ≠ 0 ∧
      divAccepts (2 ^ ((dt v.1 v.2).nBits - 1)) (signed ((dt v.1 v.2).double .d0)) (signed ((dt v.1 v.2).single .s1)) ∧
      ¬quotientOutside (2 ^ ((dt v.1 v.2).nBits - 1)) (signed ((dt v.1 v.2).double .d0))
        (signed ((dt v.1 v.2).single .s1)) :=
  ⟨by decide, by decide⟩

theorem witness_DivResultLaw :
    (dt 0x000CFFFF 0x001A).RegsSized ∧
    (dt 0x000CFFFF 0x001A).f = false ∧
    SReg.s2 ≠ .s3 ∧
    exec (.div .s2 .d0 .s1 .s3) (dt 0x000CFFFF 0x001A) = .next (left (.div .s2 .d0 .s1 .s3) (dt 0x000CFFFF 0x001A)) ∧
    (left (.div .s2 .d0 .s1 .s3) (dt 0x000CFFFF 0x001A)).f = false ∧
    (dt 0x000CFFFF 0x001A).params.divFixup = true ∧
    exec (.div .s2 .d0 .s1 .s3) (literal 0xFFFF8000 0xFFFF) =
      .next (left (.div .s2 .d0 .s1 .s3) (literal 0xFFFF8000 0xFFFF)) ∧
    (left (.div .s2 .d0 .s1 .s3) (literal 0xFFFF8000 0xFFFF)).f = false ∧
    (literal 0xFFFF8000 0xFFFF).params.divFixup = false :=
  ⟨by decide, rfl, by decide, eq_left (by decide +kernel), by decide +kernel, rfl, eq_left (by decide +kernel), by decide +kernel, rfl⟩

/-- -32768 by -1, an accepted pair whose true quotient does not fit. -/
theorem witness_LiteralDivCompletesWhereAccepted :
    (literal 0xFFFF8000 0xFFFF).RegsSized ∧
    (literal 0xFFFF8000 0xFFFF).f = false ∧
    SReg.s2 ≠ .s3 ∧
    (literal 0xFFFF8000 0xFFFF).params.divFixup = false ∧
    (signed ((literal 0xFFFF8000 0xFFFF).single .s1)) ≠ 0 ∧
    divAccepts (2 ^ ((literal 0xFFFF8000 0xFFFF).nBits - 1)) (signed ((literal 0xFFFF8000 0xFFFF).double .d0)) (signed ((literal 0xFFFF8000 0xFFFF).single .s1)) :=
  ⟨by decide, by decide, by decide, by decide, by decide, by decide⟩

theorem witness_ZeroDividerRaisesDivZero :
    (dt 0 0).RegsSized ∧
    (dt 0 0).f = false ∧
    SReg.s2 ≠ .s3 ∧
    (dt 0 0).value (.single .s1) = 0 :=
  ⟨by decide, by decide, by decide, by decide⟩

/-- Divisions by 26 and by -26, one pair for each of the four sign cases of R183: the last dividend that the closed form
accepts and the first it does not (851967 and 851968; 851993 and 851994; -851968 and -851969; -851994 and -851995). -/
theorem witness_DivInvalidExactlyWhereNotAccepted :
    SReg.s2 ≠ .s3 ∧
    (∀ v ∈ [(0x000CFFFF, 0x001A), (0x000D0019, 0xFFE6), (0xFFF30000, 0xFFE6), (0xFFF2FFE6, 0x001A)],
      (dt v.1 v.2).RegsSized ∧ (dt v.1 v.2).f = false ∧ signed ((dt v.1 v.2).single .s1) ≠ 0 ∧
      divAccepts (2 ^ ((dt v.1 v.2).nBits - 1)) (signed ((dt v.1 v.2).double .d0)) (signed ((dt v.1 v.2).single .s1))) ∧
    (∀ v ∈ [(0x000D0000, 0x001A), (0x000D001A, 0xFFE6), (0xFFF2FFFF, 0xFFE6), (0xFFF2FFE5, 0x001A)],
      (dt v.1 v.2).RegsSized ∧ (dt v.1 v.2).f = false ∧ signed ((dt v.1 v.2).single .s1) ≠ 0 ∧
      ¬divAccepts (2 ^ ((dt v.1 v.2).nBits - 1)) (signed ((dt v.1 v.2).double .d0)) (signed ((dt v.1 v.2).single .s1))) :=
  ⟨by decide, by decide, by decide⟩

theorem witness_InternalCheckExactlyOneOutside :
    (dt 0xFFFF8000 0xFFFF).RegsSized ∧
    (dt 0xFFFF8000 0xFFFF).f = false ∧
    SReg.s2 ≠ .s3 ∧
    (signed ((dt 0xFFFF8000 0xFFFF).single .s1)) ≠ 0 ∧
    divAccepts (2 ^ ((dt 0xFFFF8000 0xFFFF).nBits - 1)) (signed ((dt 0xFFFF8000 0xFFFF).double .d0)) (signed ((dt 0xFFFF8000 0xFFFF).single .s1)) ∧
    (signed ((dt 0xFFFF8000 0xFFFF).double .d0)).tdiv (signed ((dt 0xFFFF8000 0xFFFF).single .s1)) = 2 ^ ((dt 0xFFFF8000 0xFFFF).nBits - 1) ∧
    divAccepts (2 ^ ((dt 0xFFFF7FFF 0x0001).nBits - 1)) (signed ((dt 0xFFFF7FFF 0x0001).double .d0)) (signed ((dt 0xFFFF7FFF 0x0001).single .s1)) ∧
    (signed ((dt 0xFFFF7FFF 0x0001).double .d0)).tdiv (signed ((dt 0xFFFF7FFF 0x0001).single .s1)) = -2 ^ ((dt 0xFFFF7FFF 0x0001).nBits - 1) - 1 :=
  ⟨by decide, by decide, by decide, by decide, by decide, by decide, by decide, by decide⟩

theorem witness_DivisionStepCounts :
    (dt 0x000CFFFF 0x001A).f = false ∧
    exec (.div .s2 .d0 .s1 .s3) (dt 0x000CFFFF 0x001A) = .next (left (.div .s2 .d0 .s1 .s3) (dt 0x000CFFFF 0x001A)) ∧
    (left (.div .s2 .d0 .s1 .s3) (dt 0x000CFFFF 0x001A)).f = false ∧
    exec (.div .s2 .d0 .s1 .s3) (dt 0x000D0000 0x001A) = .next (left (.div .s2 .d0 .s1 .s3) (dt 0x000D0000 0x001A)) ∧
    (left (.div .s2 .d0 .s1 .s3) (dt 0x000D0000 0x001A)).f = true :=
  ⟨rfl, eq_left (by decide +kernel), by decide +kernel, eq_left (by decide +kernel), by decide +kernel⟩

theorem witness_SetfmtWritesALegalFormat :
    live.f = false ∧
    (1 ≤ (1#4).toNat ∧ (1#4).toNat ≤ (16#6).toNat ∧ (16#6).toNat ≤ live.nBits) ∧
    (1 ≤ (15#4).toNat ∧ (15#4).toNat ≤ (16#6).toNat ∧ (16#6).toNat ≤ live.nBits) ∧
    ¬(1 ≤ (1#4).toNat ∧ (1#4).toNat ≤ (17#6).toNat ∧ (17#6).toNat ≤ live.nBits) ∧
    ¬(1 ≤ (0#4).toNat ∧ (0#4).toNat ≤ (4#6).toNat ∧ (4#6).toNat ≤ live.nBits) ∧
    ¬(1 ≤ (5#4).toNat ∧ (5#4).toNat ≤ (4#6).toNat ∧ (4#6).toNat ≤ live.nBits) :=
  ⟨by decide, by decide, by decide, by decide, by decide, by decide⟩

theorem witness_NormShiftsToTheFirstDigit :
    live.WF ∧
    live.f = false :=
  ⟨by decide, by decide⟩

theorem witness_NormIsIdempotent :
    live.WF ∧
    live.f = false ∧
    2 ^ (live.nBits - live.digitWidth) ≤ live.value (.single .s0) ∧
    live.value (.single .s2) = 0 :=
  ⟨by decide, by decide, by decide, by decide⟩

theorem witness_UnhideRestoresTheLeadingOne :
    hidden.RegsSized ∧
    hidden.f = false ∧
    hidden.mfmt.getLsbD 10 = true ∧
    live.RegsSized ∧
    live.f = false ∧
    live.mfmt.getLsbD 10 = false :=
  ⟨by decide, by decide, by decide, by decide, by decide, by decide⟩

theorem witness_HideDropsTheLeadingBit :
    hidden.RegsSized ∧
    hidden.f = false ∧
    hidden.mfmt.getLsbD 10 = true ∧
    live.RegsSized ∧
    live.f = false ∧
    live.mfmt.getLsbD 10 = false :=
  ⟨by decide, by decide, by decide, by decide, by decide, by decide⟩

end Sys2Proof.Tests
end

section
/-! The reset state of 10_state.md R27, one reading rule per piece of state, at every parameter value; they stand beside
the `applyReset` rules, which speak of a reset taken in a given state. -/

namespace Sys2Proof.Machine

open Sys2Proof

variable (p : Params)

/-- A state that is already the reset state is left as it is by a reset, the host's list and count included. -/
theorem applyReset_resetWith : applyReset (State.resetWith p) = State.resetWith p := rfl

@[simp] theorem resetWith_params : (State.resetWith p).params = p := rfl
@[simp] theorem resetWith_c : (State.resetWith p).c = false := rfl
@[simp] theorem resetWith_f : (State.resetWith p).f = false := rfl
@[simp] theorem resetWith_cause : (State.resetWith p).cause = 0x00#8 := rfl
@[simp] theorem resetWith_cnt : (State.resetWith p).cnt = 0x00#8 := rfl
@[simp] theorem resetWith_mfmt : (State.resetWith p).mfmt = 0x00C4#16 := rfl
@[simp] theorem resetWith_fcmd : (State.resetWith p).fcmd = 0x0000#16 := rfl
@[simp] theorem resetWith_dout : (State.resetWith p).dout = [] := rfl
@[simp] theorem resetWith_trace : (State.resetWith p).trace = [] := rfl

/-- Every register is zero bytes, as many as its class and `W` give it: the register rule of `applyReset`, read at a state
that a reset leaves as it is. -/
@[simp] theorem resetWith_reg (r : Reg) :
    (State.resetWith p).reg r = List.replicate (p.width.ofReg r) 0x00#8 := by
  rw [← applyReset_resetWith, applyReset_reg, resetWith_params]

/-- STATUS is computed from C and F, so it is zero where both are clear (10_state.md R17). -/
theorem status_eq_zero {s : State} (hc : s.c = false) (hf : s.f = false) : s.status = 0x00#8 := by
  simp [State.status, hc, hf]

end Sys2Proof.Machine
end

section

open Sys2Proof.Machine

/-- Settles O8: the reading rules of the reset state, piece by piece; STATUS follows from C and F. -/
theorem resetValues : Obligations.ResetValues := fun p r =>
  ⟨resetWith_reg p r, resetWith_c p, resetWith_f p, status_eq_zero (resetWith_c p) (resetWith_f p),
    resetWith_cause p, resetWith_cnt p, resetWith_mfmt p, resetWith_fcmd p, resetWith_dout p, resetWith_trace p,
    rfl⟩

end

section
/-! How a command word is built from its fields: an encoding format is a concatenation, and every part of a concatenation
stands at its own bit of the word (30_encoding.md R61). -/

namespace Sys2Proof.Machine

open Sys2Proof

/-- A concatenation placed at bit `lo` is its lower part at `lo` and its upper part above that. -/
theorem placed_append {m n : Nat} (x : BitVec m) (y : BitVec n) (lo : Nat) :
    placed (x ++ y) lo = placed x (n + lo) ||| placed y lo := by
  apply BitVec.eq_of_getLsbD_eq
  intro i hi
  simp only [placed, BitVec.getLsbD_or, BitVec.getLsbD_shiftLeft, BitVec.getLsbD_setWidth, BitVec.getLsbD_append]
  by_cases hlow : i < lo
  · simp [hlow, show i < n + lo by omega]
  · by_cases hmid : i < n + lo
    · simp [hlow, hmid, show i - lo < n by omega]
    · simp [hlow, hmid, show ¬ i - lo < n by omega, show i - lo - n = i - (n + lo) by omega,
        BitVec.getLsbD_of_ge y (i - lo) (by omega), hi, show i - lo < 16 by omega, show i - (n + lo) < 16 by omega]

@[simp] theorem placed_word (w : Word) : placed w 0 = w := by simp [placed]

@[simp] theorem placed_zero (n lo : Nat) : placed (0#n) lo = 0#16 := by simp [placed]

/-- The format of a command with one register and nothing else (30_encoding.md R61). -/
theorem encZ1_eq_placed (op : BitVec 5) (rd : Reg) : encZ1 op rd = placed op 11 ||| placed rd.spec 8 := by
  calc encZ1 op rd = placed (op ++ rd.spec ++ 0#8) 0 := (placed_word _).symm
    _ = _ := by rw [placed_append, placed_append, placed_zero, BitVec.or_zero]

/-- The format of a command with a register, a byte index and a bit index (30_encoding.md R61). -/
theorem encBI_eq_placed (op : BitVec 5) (rd : Reg) (bi k : BitVec 4) :
    encBI op rd bi k = placed op 11 ||| placed rd.spec 8 ||| placed bi 4 ||| placed k 0 := by
  calc encBI op rd bi k = placed (op ++ rd.spec ++ bi ++ k) 0 := (placed_word _).symm
    _ = _ := by rw [placed_append, placed_append, placed_append]

end Sys2Proof.Machine
end

section
/-! What the complementing and the bit-writing commands do to register content and to the state (41_register_ops.md R124,
R125, R127, R128). -/

namespace Sys2Proof.Machine

open Sys2Proof

/-! ### Complement and two's complement of register content -/

/-- Complementing every byte takes the value to its distance from the greatest value (R125). -/
theorem map_bnot_eq (v : Register) : v.map bnot = toBytes v.length (2 ^ (8 * v.length) - 1 - unsigned v) := by
  rw [← pow_256, ← unsigned_map_bnot]
  exact eq_toBytes (by simp) (Nat.mod_eq_of_lt (by simpa using unsigned_lt (v.map bnot))).symm

/-- Adding 1 to the complement, the carry discarded, takes the value to its negative mod `2^n` (R124). -/
theorem map_bnot_add_one (ext : Ext) (v : Register) :
    (performBinOp ext badd (v.map bnot) (toBytes v.length 1)).2 =
      toBytes v.length ((2 ^ (8 * v.length) - unsigned v) % 2 ^ (8 * v.length)) := by
  have hv := unsigned_lt v
  have hone : extValue ext (toBytes v.length 1) v.length = 1 % 256 ^ v.length := by
    simpa using extValue_same ext (toBytes v.length 1)
  have hsum : 256 ^ v.length - 1 - unsigned v + 1 = 256 ^ v.length - unsigned v := by omega
  rw [performBinOp_badd _ _ _ (by simp), List.length_map, hone, unsigned_map_bnot, ← toBytes_mod, Nat.add_mod_mod,
    ← pow_256, hsum]

/-! ### The commands as runs of the template (R110) -/

theorem exec_neg (rd : Reg) (s : State) : exec (.neg rd) s = runCommand (encodeWord (.neg rd)) s (.ok (s.setReg rd
    (performBinOp s.params.ext badd ((s.reg rd).map bnot) (toBytes (s.widthOf rd) 1)).2)) := rfl

theorem exec_not (rd : Reg) (s : State) : exec (.not rd) s =
    runCommand (encodeWord (.not rd)) s (.ok (s.setReg rd ((s.reg rd).map bnot))) := rfl

theorem exec_bset (rd : Reg) (bi k : BitVec 4) (s : State) : exec (.bset rd bi k) s =
    runCommand (encodeWord (.bset rd bi k)) s (putBit s rd bi.toNat k.toNat true) := rfl

theorem exec_bclr (rd : Reg) (bi k : BitVec 4) (s : State) : exec (.bclr rd bi k) s =
    runCommand (encodeWord (.bclr rd bi k)) s (putBit s rd bi.toNat k.toNat false) := rfl

section

variable {s : State}

/-- A bit write with an index out of range, run as a command, enters the fault state. -/
theorem runCommand_putBit_error (hf : s.f = false) (w : Word) (rd : Reg) {bi k : Nat} (b : Bool)
    (h : s.widthOf rd ≤ bi ∨ 7 < k) :
    runCommand w s (putBit s rd bi k b) = .next (takeFault .operandRange w s) := by
  rw [putBit_error s rd bi k b h, runCommand_error hf]

/-- A bit write with both indexes in range, run as a command, completes; a bit that has its value already stays. -/
theorem runCommand_putBit_ok (hs : s.RegsSized) (hf : s.f = false) (w : Word) (rd : Reg) {bi k : Nat} (b : Bool)
    (h : bi < s.widthOf rd ∧ k ≤ 7) :
    runCommand w s (putBit s rd bi k b) = .next (s.setReg rd (toBytes (s.widthOf rd)
      (if (s.value rd).testBit (bitIndex (s.widthOf rd) bi k) = b then s.value rd
        else if b then s.value rd + 2 ^ bitIndex (s.widthOf rd) bi k
        else s.value rd - 2 ^ bitIndex (s.widthOf rd) bi k))) := by
  obtain ⟨hbi, hk⟩ := h
  rw [putBit_ok hs rd bi k b hbi hk, runCommand_ok hf]

end

end Sys2Proof.Machine
end

section

open Sys2Proof Sys2Proof.Machine

/-- Settles O34: the byte chain of NEG adds 1 to the complement, which gives the negative mod `2^n`. -/
theorem negComputesTheTwosComplement : Obligations.NegComputesTheTwosComplement := by
  intro s rd hs hf
  refine ⟨encZ1_eq_placed 14#5 rd, ?_⟩
  rw [exec_neg, runCommand_ok hf, ← reg_length hs rd, map_bnot_add_one, reg_length hs rd]
  rfl

/-- Settles O35: complementing every byte complements the value. -/
theorem notComputesTheComplement : Obligations.NotComputesTheComplement := by
  intro s rd hs hf
  refine ⟨encZ1_eq_placed 15#5 rd, ?_⟩
  rw [exec_not, runCommand_ok hf, map_bnot_eq, reg_length hs rd]
  rfl

/-- Settles O39: the bit write that BSET and BCLR share, writing 1. -/
theorem bsetSetsTheBit : Obligations.BsetSetsTheBit := by
  intro s rd bi k hs hf
  refine ⟨encBI_eq_placed 17#5 rd bi k, fun h => ?_, fun h => ?_⟩ <;> rw [exec_bset]
  · exact runCommand_putBit_error hf _ rd true h
  · exact runCommand_putBit_ok hs hf _ rd true h

/-- Settles O40: the bit write that BSET and BCLR share, writing 0; the statement asks whether the bit was 1, the rule whether it
changes. -/
theorem bclrClearsTheBit : Obligations.BclrClearsTheBit := by
  intro s rd bi k hs hf
  refine ⟨encBI_eq_placed 18#5 rd bi k, fun h => ?_, fun h => ?_⟩ <;> rw [exec_bclr]
  · exact runCommand_putBit_error hf _ rd false h
  · rw [runCommand_putBit_ok hs hf _ rd false h]
    cases (s.value rd).testBit (bitIndex (s.widthOf rd) bi.toNat k.toNat) <;> rfl

end

section
/-! What a completed multiplication does: the command rule, the records it appends, and the sign of its multiplier
(42_multiply.md R150, R152). -/

namespace Sys2Proof.Machine

open Sys2Proof

/-- The sign bit of an operand, read from the register value (R152). -/
theorem operand_msb {s : State} (hs : s.RegsSized) (r : SReg) :
    (s.operand r).msb = decide (signed (s.single r) < 0) := by
  rw [BitVec.msb_eq_toInt, operand_toInt hs]

@[simp] theorem finishMul_trace (s : State) (rd : DReg) (r : Work (8 * s.params.width.bytes) × List StepRecord) :
    (finishMul s rd r).trace = s.trace ++ r.2 := by
  simp [finishMul]

section

variable {s : State}

theorem exec_mulc_ok (hf : s.f = false) (rd : DReg) (rs rt : SReg) :
    exec (.mulc rd rs rt) s = .next (finishMul s rd (mulcRun (s.operand rs) (s.operand rt))) :=
  runCommand_ok (w := encodeWord (.mulc rd rs rt)) hf

theorem exec_mulb_ok (hf : s.f = false) (rd : DReg) (rs rt : SReg) :
    exec (.mulb rd rs rt) s = .next (finishMul s rd (mulbRun (s.operand rs) (s.operand rt))) :=
  runCommand_ok (w := encodeWord (.mulb rd rs rt)) hf

theorem exec_mulf_ok (hf : s.f = false) (rd : DReg) (rs rt : SReg) :
    exec (.mulf rd rs rt) s = .next (finishMul s rd (mulfRun (s.operand rs) (s.operand rt))) :=
  runCommand_ok (w := encodeWord (.mulf rd rs rt)) hf

end

end Sys2Proof.Machine
end

section

open Sys2Proof Sys2Proof.Machine

/-- Settles O45: each command appends the records of its run, whose numbers, indices and kinds the loop and its correction step
fix; the sign bit that MULC's correction asks for is the sign of the multiplier's value. -/
theorem multiplicationStepCounts : Obligations.MultiplicationStepCounts := by
  intro s rd rs rt hs hf
  obtain ⟨-, hc⟩ := mulcRun_records (s.operand rs) (s.operand rt)
  obtain ⟨-, hb⟩ := mulbRun_records (s.operand rs) (s.operand rt)
  obtain ⟨-, corrected, hm⟩ := mulfRun_records (s.operand rs) (s.operand rt)
  simp only [operand_msb hs rt, decide_eq_true_eq] at hc
  refine ⟨_, _, _, _, _, _, exec_mulc_ok hf rd rs rt, exec_mulb_ok hf rd rs rt, exec_mulf_ok hf rd rs rt,
    finishMul_trace .., finishMul_trace .., finishMul_trace .., hc, hb, ?_⟩
  cases corrected with
  | false => exact .inl (hm.trans (List.append_nil _))
  | true => exact .inr hm

end

section
/-! What a division command can do: it faults, or it writes back the result of its run together with the run's records
(43_divide.md R180, R187, R190). -/

namespace Sys2Proof.Machine

open Sys2Proof

@[simp] theorem finishDiv_f (s : State) (rd rem : SReg) (u : QuoRem × List StepRecord) :
    (finishDiv s rd rem u).f = s.f := by
  simp [finishDiv]

@[simp] theorem finishDiv_trace (s : State) (rd rem : SReg) (u : QuoRem × List StepRecord) :
    (finishDiv s rd rem u).trace = s.trace ++ u.2 := by
  simp [finishDiv]

/-- Equal destinations and a run that faults end in the fault state; any other DIV completes with the run's result. -/
theorem exec_div_cases {s : State} (hf : s.f = false) (rd : SReg) (rs : DReg) (rt rem : SReg) :
    (∃ x, exec (.div rd rs rt rem) s = .next (takeFault x (encodeWord (.div rd rs rt rem)) s)) ∨
    (∃ u, rd ≠ rem ∧ divRun s.params.divFixup (s.operand2 rs) (s.operand rt) = .ok u ∧
      exec (.div rd rs rt rem) s = .next (finishDiv s rd rem u)) := by
  have hexec : exec (.div rd rs rt rem) s = runCommand (encodeWord (.div rd rs rt rem)) s
      (if rd = rem then .error .illegalCommand
       else (divRun s.params.divFixup (s.operand2 rs) (s.operand rt)).map (finishDiv s rd rem)) := rfl
  by_cases hd : rd = rem
  · exact .inl ⟨.illegalCommand, by rw [hexec, if_pos hd, runCommand_error hf]⟩
  · rw [if_neg hd] at hexec
    cases hrun : divRun s.params.divFixup (s.operand2 rs) (s.operand rt) with
    | error x =>
      rw [hrun] at hexec
      exact .inl ⟨x, hexec.trans (runCommand_error hf)⟩
    | ok u =>
      rw [hrun] at hexec
      exact .inr ⟨u, hd, rfl, hexec.trans (runCommand_ok hf)⟩

/-- The records of a division run that completes, phase by phase (R190). -/
theorem divRun_records {wd : Width} {fixup : Bool} {A : BitVec (8 * wd.bytes + 8 * wd.bytes)}
    {D : BitVec (8 * wd.bytes)} {u : QuoRem × List StepRecord} (h : divRun fixup A D = .ok u) :
    ∃ corrected fixed : Bool, (fixed = true → fixup = true) ∧
      u.2.map (fun r => (r.idx, r.kind)) =
        (0, StepKind.trial) :: (List.range' 1 (8 * wd.bytes - 1)).map (fun i => (i, StepKind.iter)) ++
          (if corrected then [(8 * wd.bytes, StepKind.correction)] else []) ++
          (if fixed then [(8 * wd.bytes + 1, StepKind.fixup)] else []) := by
  rcases divRun_cases fixup A D with ⟨x, -, hx⟩ | ⟨v, recs, corrected, fixed, hv, hfix, -, hmap⟩
  · rw [h] at hx
    cases hx
  · rw [h] at hv
    cases hv
    exact ⟨corrected, fixed, hfix, hmap⟩

end Sys2Proof.Machine
end

section

open Sys2Proof Sys2Proof.Machine

/-- Settles O54: a DIV that faults leaves TRACE as it is; one that completes appends the records of its run, whose numbers,
indices and kinds the phases of the division fix. -/
theorem divisionStepCounts : Obligations.DivisionStepCounts := by
  intro s t rd rs rt rem hf hexec
  rcases exec_div_cases hf rd rs rt rem with ⟨x, hfault⟩ | ⟨u, -, hrun, hdone⟩
  · obtain rfl := Host.Outcome.next.inj (hfault.symm.trans hexec)
    exact ⟨fun _ => takeFault_trace .., fun h => by simp at h⟩
  · obtain rfl := Host.Outcome.next.inj (hdone.symm.trans hexec)
    obtain ⟨corrected, fixed, hfix, hmap⟩ := divRun_records hrun
    exact ⟨fun h => by simp [hf] at h, fun _ => ⟨u.2, corrected, fixed, finishDiv_trace .., hfix, hmap⟩⟩

end

section
/-! What the decoder read from a command it accepts: every field is the encoding of what it decodes to, so the fields put
together again are the word (30_encoding.md R61 to R69). -/

namespace Sys2Proof.Machine

open Sys2Proof

/-! ### The fields of a word -/

/-- Two neighbouring fields of a word are one field of it. -/
theorem fieldOf_append (w : Word) {hi lo m n : Nat} (h : hi = lo + n) :
    fieldOf w hi m ++ fieldOf w lo n = fieldOf w lo (m + n) :=
  BitVec.extractLsb'_append_extractLsb'_eq_extractLsb' h

theorem fieldOf_word (w : Word) : fieldOf w 0 16 = w := BitVec.extractLsb'_eq_self

theorem ofBool_beq_one (v : BitVec 1) : BitVec.ofBool (v == 1#1) = v := by
  revert v; decide

/-! ### Results of the decoder's parts -/

theorem except_bind_eq_ok {ε α β : Type} {x : Except ε α} {f : α → Except ε β} {b : β} :
    x >>= f = .ok b ↔ ∃ a, x = .ok a ∧ f a = .ok b := by
  cases x <;> simp [bind, Except.bind]

theorem except_map_eq_ok {ε α β : Type} {x : Except ε α} {f : α → β} {b : β} :
    x.map f = .ok b ↔ ∃ a, x = .ok a ∧ f a = b := by
  cases x <;> simp [Except.map]

theorem requireZero_eq_ok {n : Nat} {v : BitVec n} {u : Unit} : requireZero v = .ok u ↔ v = 0#n := by
  simp [requireZero]

/-! ### What a field decodes to, encoded again -/

theorem spec_of_decodeReg {v : BitVec 3} {r : Reg} (h : decodeReg v = .ok r) : r.spec = v := by
  unfold decodeReg at h
  split at h <;> cases h <;> exact (BitVec.eq_of_toNat_eq ‹_›).symm

theorem spec_of_decodeSingle {v : BitVec 3} {r : SReg} (h : decodeSingle v = .ok r) : (Reg.single r).spec = v := by
  unfold decodeSingle at h
  split at h <;> cases h
  exact spec_of_decodeReg ‹_›

theorem spec_of_decodeDouble {v : BitVec 3} {r : DReg} (h : decodeDouble v = .ok r) : (Reg.double r).spec = v := by
  unfold decodeDouble at h
  split at h <;> cases h
  exact spec_of_decodeReg ‹_›

theorem number_decodeRem (v : BitVec 2) : BitVec.ofNat 2 (decodeRem v).number = v := by
  revert v; decide

theorem ofBool_of_decodeShlFill {v : BitVec 2} {b : Bool} (h : decodeShlFill v = .ok b) : 0#1 ++ BitVec.ofBool b = v := by
  unfold decodeShlFill at h
  split at h <;> cases h <;> exact (BitVec.eq_of_toNat_eq ‹_›).symm

theorem field_of_decodeShrFill {v : BitVec 2} {f : ShrFill} (h : decodeShrFill v = .ok f) : f.field = v := by
  unfold decodeShrFill at h
  split at h <;> cases h <;> exact (BitVec.eq_of_toNat_eq ‹_›).symm

theorem field_of_decodeSelector {v : BitVec 3} {sel : Selector} (h : decodeSelector v = .ok sel) : sel.field = v := by
  unfold decodeSelector at h
  split at h <;> cases h <;> exact (BitVec.eq_of_toNat_eq ‹_›).symm

/-! ### The formats: a word is put together again from its fields -/

section

variable {w : Word} {op : BitVec 5} (ho : (fieldOf w 11 5).toNat = op.toNat)

include ho

theorem encZ1_of_fields {rd : Reg} (hd : rd.spec = fieldOf w 8 3) (hz : fieldOf w 0 8 = 0#8) : encZ1 op rd = w := by
  rw [encZ1, ← BitVec.eq_of_toNat_eq ho, hd, ← hz, fieldOf_append, fieldOf_append, fieldOf_word] <;> rfl

theorem encR2_of_fields {rd rs : Reg} (hd : rd.spec = fieldOf w 8 3) (hs : rs.spec = fieldOf w 5 3)
    (hz : fieldOf w 0 5 = 0#5) : encR2 op rd rs = w := by
  rw [encR2, ← BitVec.eq_of_toNat_eq ho, hd, hs, ← hz, fieldOf_append, fieldOf_append, fieldOf_append,
    fieldOf_word] <;> rfl

theorem encRH_of_fields {rd rs : Reg} (hd : rd.spec = fieldOf w 8 3) (hs : rs.spec = fieldOf w 5 3)
    (hz : fieldOf w 1 4 = 0#4) : encRH op rd rs (fieldOf w 0 1 == 1#1) = w := by
  rw [encRH, ← BitVec.eq_of_toNat_eq ho, hd, hs, ← hz, ofBool_beq_one, fieldOf_append, fieldOf_append,
    fieldOf_append, fieldOf_append, fieldOf_word] <;> rfl

theorem encR3_of_fields {rd rs rt : Reg} {fn : BitVec 2} (hd : rd.spec = fieldOf w 8 3)
    (hs : rs.spec = fieldOf w 5 3) (ht : rt.spec = fieldOf w 2 3) (hf : fn = fieldOf w 0 2) :
    encR3 op rd rs rt fn = w := by
  rw [encR3, ← BitVec.eq_of_toNat_eq ho, hd, hs, ht, hf, fieldOf_append, fieldOf_append, fieldOf_append,
    fieldOf_append, fieldOf_word] <;> rfl

theorem encSH_of_fields {rd : Reg} {fm : BitVec 2} (hd : rd.spec = fieldOf w 8 3) (hf : fm = fieldOf w 6 2) :
    encSH op rd fm (fieldOf w 0 6) = w := by
  rw [encSH, ← BitVec.eq_of_toNat_eq ho, hd, hf, fieldOf_append, fieldOf_append, fieldOf_append, fieldOf_word] <;> rfl

theorem encBI_of_fields {rd : Reg} (hd : rd.spec = fieldOf w 8 3) : encBI op rd (fieldOf w 4 4) (fieldOf w 0 4) = w := by
  rw [encBI, ← BitVec.eq_of_toNat_eq ho, hd, fieldOf_append, fieldOf_append, fieldOf_append, fieldOf_word] <;> rfl

theorem encFM_of_fields : encFM op (fieldOf w 10 1 == 1#1) (fieldOf w 4 6) (fieldOf w 0 4) = w := by
  rw [encFM, ← BitVec.eq_of_toNat_eq ho, ofBool_beq_one, fieldOf_append, fieldOf_append, fieldOf_append,
    fieldOf_word] <;> rfl

theorem encGS_of_fields {sel : BitVec 3} (hz : fieldOf w 3 8 = 0#8) (hs : sel = fieldOf w 0 3) : encGS op sel = w := by
  rw [encGS, ← BitVec.eq_of_toNat_eq ho, ← hz, hs, fieldOf_append, fieldOf_append, fieldOf_word] <;> rfl

end

/-! ### The decoders of the formats: the instruction read has the word it was read from -/

section

variable {w : Word} {op : BitVec 5} {i : Instr}

/-- The two decoders of format Z1, which differ in the register class that they read; SET has the format too. -/
theorem encZ1_of_decode {α : Type} {read : BitVec 3 → Except DecodeError α} {reg : α → Reg} {rd : α}
    (hread : ∀ {v r}, read v = .ok r → (reg r).spec = v) (ho : (fieldOf w 11 5).toNat = op.toNat)
    (h : (do requireZero (fieldOf w 0 8); read (fieldOf w 8 3)) = .ok rd) : encZ1 op (reg rd) = w := by
  obtain ⟨_, hz, hd⟩ := except_bind_eq_ok.mp h
  exact encZ1_of_fields ho (hread hd) (requireZero_eq_ok.mp hz)

theorem encodeWord_of_decodeZ1 {make : Reg → Instr} (h : (decodeZ1 w).map make = .ok i)
    (hm : ∀ rd, encodeWord (make rd) = encZ1 op rd) (ho : (fieldOf w 11 5).toNat = op.toNat) : encodeWord i = w := by
  obtain ⟨rd, hr, rfl⟩ := except_map_eq_ok.mp h
  exact (hm rd).trans (encZ1_of_decode (reg := id) spec_of_decodeReg ho hr)

theorem encodeWord_of_decodeZ1Single {make : SReg → Instr} (h : (decodeZ1Single w).map make = .ok i)
    (hm : ∀ rd, encodeWord (make rd) = encZ1 op (.single rd)) (ho : (fieldOf w 11 5).toNat = op.toNat) :
    encodeWord i = w := by
  obtain ⟨rd, hr, rfl⟩ := except_map_eq_ok.mp h
  exact (hm rd).trans (encZ1_of_decode spec_of_decodeSingle ho hr)

/-- The three decoders of format R2, which differ in the register classes that they read. -/
theorem encodeWord_of_decodeR2 {α β : Type} {readD : BitVec 3 → Except DecodeError α}
    {readS : BitVec 3 → Except DecodeError β} {regD : α → Reg} {regS : β → Reg} {make : α → β → Instr}
    (hD : ∀ {v r}, readD v = .ok r → (regD r).spec = v) (hS : ∀ {v r}, readS v = .ok r → (regS r).spec = v)
    (h : (do
      requireZero (fieldOf w 0 5)
      let rd ← readD (fieldOf w 8 3)
      let rs ← readS (fieldOf w 5 3)
      .ok (make rd rs)) = .ok i)
    (hm : ∀ rd rs, encodeWord (make rd rs) = encR2 op (regD rd) (regS rs)) (ho : (fieldOf w 11 5).toNat = op.toNat) :
    encodeWord i = w := by
  obtain ⟨_, hz, h⟩ := except_bind_eq_ok.mp h
  obtain ⟨rd, hd, h⟩ := except_bind_eq_ok.mp h
  obtain ⟨rs, hs, h⟩ := except_bind_eq_ok.mp h
  obtain rfl := Except.ok.inj h
  exact (hm rd rs).trans (encR2_of_fields ho (hD hd) (hS hs) (requireZero_eq_ok.mp hz))

theorem encodeWord_of_decodeRH {make : DReg → Reg → Bool → Instr} (h : decodeRH w make = .ok i)
    (hm : ∀ rd rs t, encodeWord (make rd rs t) = encRH op (.double rd) rs t)
    (ho : (fieldOf w 11 5).toNat = op.toNat) : encodeWord i = w := by
  obtain ⟨_, hz, h⟩ := except_bind_eq_ok.mp h
  obtain ⟨rd, hd, h⟩ := except_bind_eq_ok.mp h
  obtain ⟨rs, hs, h⟩ := except_bind_eq_ok.mp h
  obtain rfl := Except.ok.inj h
  exact (hm rd rs _).trans
    (encRH_of_fields ho (spec_of_decodeDouble hd) (spec_of_decodeReg hs) (requireZero_eq_ok.mp hz))

theorem encodeWord_of_decodeShl (h : decodeShl w = .ok i) (ho : (fieldOf w 11 5).toNat = 12) : encodeWord i = w := by
  obtain ⟨rd, hd, h⟩ := except_bind_eq_ok.mp h
  obtain ⟨fill, hf, h⟩ := except_bind_eq_ok.mp h
  obtain rfl := Except.ok.inj h
  exact encSH_of_fields ho (spec_of_decodeReg hd) (ofBool_of_decodeShlFill hf)

theorem encodeWord_of_decodeShr (h : decodeShr w = .ok i) (ho : (fieldOf w 11 5).toNat = 13) : encodeWord i = w := by
  obtain ⟨rd, hd, h⟩ := except_bind_eq_ok.mp h
  obtain ⟨fill, hf, h⟩ := except_bind_eq_ok.mp h
  obtain rfl := Except.ok.inj h
  exact encSH_of_fields ho (spec_of_decodeReg hd) (field_of_decodeShrFill hf)

theorem encodeWord_of_decodeBI {make : Reg → BitVec 4 → BitVec 4 → Instr} (h : decodeBI w make = .ok i)
    (hm : ∀ rd bi k, encodeWord (make rd bi k) = encBI op rd bi k)
    (ho : (fieldOf w 11 5).toNat = op.toNat) : encodeWord i = w := by
  obtain ⟨rd, hd, h⟩ := except_bind_eq_ok.mp h
  obtain rfl := Except.ok.inj h
  exact (hm rd _ _).trans (encBI_of_fields ho (spec_of_decodeReg hd))

theorem encodeWord_of_decodeMul (h : decodeMul w = .ok i) (ho : (fieldOf w 11 5).toNat = 19) : encodeWord i = w := by
  obtain ⟨rd, hd, h⟩ := except_bind_eq_ok.mp h
  obtain ⟨rs, hs, h⟩ := except_bind_eq_ok.mp h
  obtain ⟨rt, ht, h⟩ := except_bind_eq_ok.mp h
  have hword {fn : BitVec 2} (hf : (fieldOf w 0 2).toNat = fn.toNat) :
      encR3 19#5 (.double rd) (.single rs) (.single rt) fn = w :=
    encR3_of_fields ho (spec_of_decodeDouble hd) (spec_of_decodeSingle hs) (spec_of_decodeSingle ht)
      (BitVec.eq_of_toNat_eq hf).symm
  split at h <;> cases h <;> exact hword ‹_›

theorem encodeWord_of_decodeDiv (h : decodeDiv w = .ok i) (ho : (fieldOf w 11 5).toNat = 20) : encodeWord i = w := by
  obtain ⟨rd, hd, h⟩ := except_bind_eq_ok.mp h
  obtain ⟨rs, hs, h⟩ := except_bind_eq_ok.mp h
  obtain ⟨rt, ht, h⟩ := except_bind_eq_ok.mp h
  dsimp only at h
  split at h <;> cases h
  exact encR3_of_fields ho (spec_of_decodeSingle hd) (spec_of_decodeDouble hs) (spec_of_decodeSingle ht)
    (number_decodeRem _)

theorem encodeWord_of_decodeGS (h : decodeGS w = .ok i) (ho : (fieldOf w 11 5).toNat = 25) : encodeWord i = w := by
  obtain ⟨_, hz, h⟩ := except_bind_eq_ok.mp h
  obtain ⟨sel, hs, h⟩ := except_bind_eq_ok.mp h
  obtain rfl := Except.ok.inj h
  exact encGS_of_fields ho (requireZero_eq_ok.mp hz) (field_of_decodeSelector hs)

/-- One case per opcode of the opcode map (30_encoding.md R63), SET aside: the opcode selects the format's decoder. -/
theorem encodeWord_of_decodePlain (h : decodePlain w = .ok i) : encodeWord i = w := by
  unfold decodePlain at h
  split at h <;> rename_i hop
  · exact encodeWord_of_decodeZ1 h (fun _ => rfl) hop
  · exact encodeWord_of_decodeR2 (regD := id) (regS := id) spec_of_decodeReg spec_of_decodeReg h
      (fun _ _ => rfl) hop
  · exact encodeWord_of_decodeR2 spec_of_decodeSingle spec_of_decodeDouble h (fun _ _ => rfl) hop
  · exact encodeWord_of_decodeR2 spec_of_decodeSingle spec_of_decodeDouble h (fun _ _ => rfl) hop
  · exact encodeWord_of_decodeR2 spec_of_decodeDouble spec_of_decodeSingle h (fun _ _ => rfl) hop
  · exact encodeWord_of_decodeR2 spec_of_decodeDouble spec_of_decodeSingle h (fun _ _ => rfl) hop
  · exact encodeWord_of_decodeR2 (regD := id) (regS := id) spec_of_decodeReg spec_of_decodeReg h
      (fun _ _ => rfl) hop
  · exact encodeWord_of_decodeR2 (regD := id) (regS := id) spec_of_decodeReg spec_of_decodeReg h
      (fun _ _ => rfl) hop
  · exact encodeWord_of_decodeRH h (fun _ _ _ => rfl) hop
  · exact encodeWord_of_decodeRH h (fun _ _ _ => rfl) hop
  · exact encodeWord_of_decodeShl h hop
  · exact encodeWord_of_decodeShr h hop
  · exact encodeWord_of_decodeZ1 h (fun _ => rfl) hop
  · exact encodeWord_of_decodeZ1 h (fun _ => rfl) hop
  · exact encodeWord_of_decodeBI h (fun _ _ _ => rfl) hop
  · exact encodeWord_of_decodeBI h (fun _ _ _ => rfl) hop
  · exact encodeWord_of_decodeBI h (fun _ _ _ => rfl) hop
  · exact encodeWord_of_decodeMul h hop
  · exact encodeWord_of_decodeDiv h hop
  · cases h
    exact encFM_of_fields hop
  · exact encodeWord_of_decodeZ1Single h (fun _ => rfl) hop
  · exact encodeWord_of_decodeZ1Single h (fun _ => rfl) hop
  · exact encodeWord_of_decodeZ1Single h (fun _ => rfl) hop
  · exact encodeWord_of_decodeGS h hop
  · cases h

/-- A command that decodes has the word of the instruction it decodes to (30_encoding.md R72: reserved bits are zero). -/
theorem encodeWord_of_decode {wd : Width} {c : Command} (h : decode wd c = .ok i) : encodeWord i = c.word := by
  unfold decode at h
  split at h
  next hop =>
    obtain ⟨rd, hd, h⟩ := except_bind_eq_ok.mp h
    obtain ⟨_, -, h⟩ := except_bind_eq_ok.mp h
    obtain rfl := Except.ok.inj h
    exact encZ1_of_decode (reg := id) spec_of_decodeReg hop hd
  next =>
    obtain ⟨j, hj, h⟩ := except_bind_eq_ok.mp h
    obtain ⟨_, -, h⟩ := except_bind_eq_ok.mp h
    obtain rfl := Except.ok.inj h
    exact encodeWord_of_decodePlain hj

end

end Sys2Proof.Machine
end

section
/-! The fault state of 60_exceptions.md: what a command does in it, how a command enters it, and that only reset leaves it
(R235 to R237); and how a zero divider enters it (R231). -/

namespace Sys2Proof.Machine

open Sys2Proof

/-! ### One step, by what the host presents -/

@[simp] theorem taken_f (s : State) (rest : List HostEvent) (n : Nat) : (s.taken rest n).f = s.f := rfl

/-- The host's list and its count are no control registers. -/
@[simp] theorem taken_control (s : State) (rest : List HostEvent) (n : Nat) (sel : Selector) :
    (s.taken rest n).control sel = s.control sel := by
  cases sel <;> rfl

/-- A command that the host presents is taken off the list, counted, and carried out. -/
theorem step_command {s : State} {c : Command} {rest : List HostEvent} (hp : s.pending = .command c :: rest) :
    step s = stepCommand c (s.taken rest 1) := by
  simp [step, fetch, hp, State.taken]

/-! ### One command, decoded or rejected -/

theorem stepCommand_ok {s : State} {c : Command} {i : Instr} (h : decode s.params.width c = .ok i) :
    stepCommand c s = exec i s := by
  simp [stepCommand, h]

theorem stepCommand_error {s : State} {c : Command} {e : DecodeError} (h : decode s.params.width c = .error e) :
    stepCommand c s = rejectCommand c.word s := by
  simp [stepCommand, h]

/-! ### In the fault state (R236) -/

theorem exec_gets (sel : Selector) (s : State) : exec (.gets sel) s = .next (s.emit (s.control sel)) := rfl

section

variable {s : State} (hf : s.f = true)

include hf

theorem exec_ignored {i : Instr} (hi : ∀ sel, i ≠ .gets sel) : exec i s = .next s := by
  rcases exec_template i s with ⟨sel, rfl, -⟩ | ⟨-, _, hexec, -⟩
  · exact absurd rfl (hi sel)
  · rw [hexec, runCommand_ignored hf]

theorem rejectCommand_ignored (w : Word) : rejectCommand w s = .next s := runCommand_ignored hf

theorem stepCommand_ignored {c : Command} (hc : ∀ sel, decode s.params.width c ≠ .ok (.gets sel)) :
    stepCommand c s = .next s := by
  cases hd : decode s.params.width c with
  | ok i => rw [stepCommand_ok hd, exec_ignored hf fun sel hi => hc sel (hi ▸ hd)]
  | error e => rw [stepCommand_error hd, rejectCommand_ignored hf]

/-- No command leaves the fault state, GETS included (R237). -/
theorem exec_keeps_fault {i : Instr} {t : State} (h : exec i s = .next t) : t.f = true := by
  by_cases hi : ∃ sel, i = .gets sel
  · obtain ⟨sel, rfl⟩ := hi
    obtain rfl := Host.Outcome.next.inj ((exec_gets sel s).symm.trans h)
    exact hf
  · obtain rfl := Host.Outcome.next.inj ((exec_ignored hf (not_exists.mp hi)).symm.trans h)
    exact hf

end

/-! ### Entering the fault state (R235) -/

section

variable {s t : State} (hf : s.f = false) (ht : t.f = true)

include hf ht

/-- An instruction that ends in the fault state has changed nothing but F, CAUSE and FCMD. -/
theorem exec_fault_entry {i : Instr} (h : exec i s = .next t) : ∃ x, t = takeFault x (encodeWord i) s := by
  rcases exec_cases i s with ⟨sel, -, hx⟩ | ⟨-, hf', -⟩ | ⟨-, -, u, hx, hu⟩ | ⟨-, -, x, hx, -⟩
  · obtain rfl := Host.Outcome.next.inj (hx.symm.trans h)
    simp [hf] at ht
  · simp [hf] at hf'
  · obtain rfl := Host.Outcome.next.inj (hx.symm.trans h)
    simp [hu.fault, hf] at ht
  · exact ⟨x, (Host.Outcome.next.inj (hx.symm.trans h)).symm⟩

/-- The word that a faulting command records is the word received: a command that decodes has the word of its instruction,
one that does not decode is recorded as it is. -/
theorem stepCommand_fault_entry {c : Command} (h : stepCommand c s = .next t) : ∃ x, t = takeFault x c.word s := by
  cases hd : decode s.params.width c with
  | ok i =>
    rw [stepCommand_ok hd] at h
    rw [← encodeWord_of_decode hd]
    exact exec_fault_entry hf ht h
  | error e =>
    rw [stepCommand_error hd, rejectCommand, runCommand_error hf] at h
    exact ⟨.illegalCommand, (Host.Outcome.next.inj h).symm⟩

end

/-! ### A zero divider (R231) -/

theorem operand_toInt_zero {s : State} {r : SReg} (h : s.value (.single r) = 0) : (s.operand r).toInt = 0 := by
  have hu : unsigned (s.single r) = 0 := h
  simp [State.operand, toVec, hu]

theorem divRun_divZero {w : Nat} (fixup : Bool) (A : BitVec (8 * w + 8 * w)) {D : BitVec (8 * w)} (h : D.toInt = 0) :
    divRun fixup A D = .error .divZero := by
  rw [divRun, if_pos h]

theorem exec_div_of_ne {rd rem : SReg} (hd : rd ≠ rem) (rs : DReg) (rt : SReg) (s : State) :
    exec (.div rd rs rt rem) s = runCommand (encodeWord (.div rd rs rt rem)) s
      ((divRun s.params.divFixup (s.operand2 rs) (s.operand rt)).map (finishDiv s rd rem)) := by
  have hexec : exec (.div rd rs rt rem) s = execDiv rd rs rt rem s := rfl
  rw [hexec, execDiv, if_neg hd]

end Sys2Proof.Machine
end

section

open Sys2Proof Sys2Proof.Machine

/-- Settles O14: the command is taken off the host's list, and what remains is one command in the fault state. -/
theorem faultStateIgnoresAllButGets : Obligations.FaultStateIgnoresAllButGets := by
  intro s c rest hp hf
  rw [step_command hp]
  refine ⟨fun sel hd => ?_, fun hc => stepCommand_ignored (s := s.taken rest 1) hf hc⟩
  rw [stepCommand_ok (s := s.taken rest 1) hd, exec_gets, taken_control]

/-- Settles O15: of all that a step can do, being idle and carrying out or rejecting a command keep F. -/
theorem onlyResetLeavesTheFaultState : Obligations.OnlyResetLeavesTheFaultState := by
  intro s t hf hstep ht
  rcases step_cases s with ⟨-, hidle⟩ | ⟨rest, hp, hreset⟩ | ⟨_, rest, _, -, -, hexec⟩ |
      ⟨_, rest, _, -, -, hreject⟩
  · obtain rfl := Host.Outcome.next.inj (hidle.symm.trans hstep)
    simp [hf] at ht
  · obtain rfl := Host.Outcome.next.inj (hreset.symm.trans hstep)
    exact ⟨⟨rest, hp⟩, fun r => applyReset_reg _ r⟩
  · have hkept := exec_keeps_fault (s := s.taken rest 1) hf (hexec.symm.trans hstep)
    simp [ht] at hkept
  · have hignored := hreject.trans (rejectCommand_ignored (s := s.taken rest 1) hf _)
    obtain rfl := Host.Outcome.next.inj (hignored.symm.trans hstep)
    simp [hf] at ht

/-- Settles O16: the precise fault entry of one command, taken from the host or executed; the codes are those of R226. -/
theorem faultEntryIsPrecise : Obligations.FaultEntryIsPrecise := by
  refine ⟨fun s t c rest hp hf hstep ht => ?_, fun i s t hf hexec ht => exec_fault_entry hf ht hexec, fun x => ?_⟩
  · rw [step_command hp] at hstep
    exact stepCommand_fault_entry (s := s.taken rest 1) hf ht hstep
  · cases x <;> rfl

/-- Settles O51: the divider is tested first, so a zero divider faults whatever the dividend. -/
theorem zeroDividerRaisesDivZero : Obligations.ZeroDividerRaisesDivZero := by
  intro s rd rs rt rem _ hf hd hz
  have hrun := divRun_divZero s.params.divFixup (s.operand2 rs) (operand_toInt_zero hz)
  refine ⟨?_, rfl⟩
  rw [exec_div_of_ne hd, hrun]
  exact runCommand_error hf

end

section
/-! The decoder on encoded words: what an encoded field decodes to, and so what each format's decoder reads from a word of its
format (30_encoding.md R61 to R69). -/

namespace Sys2Proof.Machine

open Sys2Proof

/-! ### What an encoded field decodes to -/

@[simp] theorem decodeReg_spec (r : Reg) : decodeReg r.spec = .ok r := by
  rcases r with r | r <;> cases r <;> rfl

@[simp] theorem decodeSingle_spec (r : SReg) : decodeSingle (Reg.single r).spec = .ok r := by
  rw [decodeSingle, decodeReg_spec]

@[simp] theorem decodeDouble_spec (r : DReg) : decodeDouble (Reg.double r).spec = .ok r := by
  rw [decodeDouble, decodeReg_spec]

@[simp] theorem decodeRem_number (r : SReg) : decodeRem (BitVec.ofNat 2 r.number) = r := by
  cases r <;> rfl

@[simp] theorem decodeShlFill_ofBool (b : Bool) : decodeShlFill (0#1 ++ BitVec.ofBool b) = .ok b := by
  cases b <;> rfl

@[simp] theorem decodeShrFill_field (f : ShrFill) : decodeShrFill f.field = .ok f := by
  cases f <;> rfl

@[simp] theorem decodeSelector_field (sel : Selector) : decodeSelector sel.field = .ok sel := by
  cases sel <;> rfl

@[simp] theorem ofBool_eq_one (b : Bool) : (BitVec.ofBool b == 1#1) = b := by
  cases b <;> rfl

@[simp] theorem requireZero_zero (n : Nat) : requireZero (0#n) = .ok () := by
  simp [requireZero]

@[simp] theorem except_ok_bind {ε α β : Type} (a : α) (f : α → Except ε β) : (Except.ok a >>= f) = f a := rfl

/-! ### A word of each format, field by field -/

section

variable (op : BitVec 5) (rd rs rt : Reg)

/-- A field of a concatenation that lies above its last part. -/
theorem field_above {m n : Nat} (x : BitVec m) (y : BitVec n) {lo len : Nat} (h : n ≤ lo) :
    (x ++ y).extractLsb' lo len = x.extractLsb' (lo - n) len :=
  BitVec.extractLsb'_append_eq_of_le h

/-- A field of a concatenation that lies in its last part. -/
theorem field_within {m n : Nat} (x : BitVec m) (y : BitVec n) {lo len : Nat} (h : lo + len ≤ n) :
    (x ++ y).extractLsb' lo len = y.extractLsb' lo len :=
  BitVec.extractLsb'_append_eq_of_add_le h

theorem fields_encZ1 : fieldOf (encZ1 op rd) 11 5 = op ∧ fieldOf (encZ1 op rd) 8 3 = rd.spec ∧
    fieldOf (encZ1 op rd) 0 8 = 0#8 := by
  have hword (lo len : Nat) : fieldOf (encZ1 op rd) lo len = (op ++ rd.spec ++ 0#8).extractLsb' lo len := rfl
  simp (disch := decide) only [hword, field_above, field_within, Nat.sub_self, BitVec.extractLsb'_eq_self, and_self]

theorem fields_encR2 : fieldOf (encR2 op rd rs) 11 5 = op ∧ fieldOf (encR2 op rd rs) 8 3 = rd.spec ∧
    fieldOf (encR2 op rd rs) 5 3 = rs.spec ∧ fieldOf (encR2 op rd rs) 0 5 = 0#5 := by
  have hword (lo len : Nat) :
      fieldOf (encR2 op rd rs) lo len = (op ++ rd.spec ++ rs.spec ++ 0#5).extractLsb' lo len := rfl
  simp (disch := decide) only [hword, field_above, field_within, Nat.sub_self, BitVec.extractLsb'_eq_self, and_self]

theorem fields_encRH (t : Bool) : fieldOf (encRH op rd rs t) 11 5 = op ∧ fieldOf (encRH op rd rs t) 8 3 = rd.spec ∧
    fieldOf (encRH op rd rs t) 5 3 = rs.spec ∧ fieldOf (encRH op rd rs t) 1 4 = 0#4 ∧
    fieldOf (encRH op rd rs t) 0 1 = BitVec.ofBool t := by
  have hword (lo len : Nat) : fieldOf (encRH op rd rs t) lo len =
      (op ++ rd.spec ++ rs.spec ++ 0#4 ++ BitVec.ofBool t).extractLsb' lo len := rfl
  simp (disch := decide) only [hword, field_above, field_within, Nat.sub_self, BitVec.extractLsb'_eq_self, and_self]

theorem fields_encR3 (fn : BitVec 2) : fieldOf (encR3 op rd rs rt fn) 11 5 = op ∧
    fieldOf (encR3 op rd rs rt fn) 8 3 = rd.spec ∧ fieldOf (encR3 op rd rs rt fn) 5 3 = rs.spec ∧
    fieldOf (encR3 op rd rs rt fn) 2 3 = rt.spec ∧ fieldOf (encR3 op rd rs rt fn) 0 2 = fn := by
  have hword (lo len : Nat) : fieldOf (encR3 op rd rs rt fn) lo len =
      (op ++ rd.spec ++ rs.spec ++ rt.spec ++ fn).extractLsb' lo len := rfl
  simp (disch := decide) only [hword, field_above, field_within, Nat.sub_self, BitVec.extractLsb'_eq_self, and_self]

theorem fields_encSH (fm : BitVec 2) (amt : BitVec 6) : fieldOf (encSH op rd fm amt) 11 5 = op ∧
    fieldOf (encSH op rd fm amt) 8 3 = rd.spec ∧ fieldOf (encSH op rd fm amt) 6 2 = fm ∧
    fieldOf (encSH op rd fm amt) 0 6 = amt := by
  have hword (lo len : Nat) :
      fieldOf (encSH op rd fm amt) lo len = (op ++ rd.spec ++ fm ++ amt).extractLsb' lo len := rfl
  simp (disch := decide) only [hword, field_above, field_within, Nat.sub_self, BitVec.extractLsb'_eq_self, and_self]

theorem fields_encBI (bi k : BitVec 4) : fieldOf (encBI op rd bi k) 11 5 = op ∧
    fieldOf (encBI op rd bi k) 8 3 = rd.spec ∧ fieldOf (encBI op rd bi k) 4 4 = bi ∧
    fieldOf (encBI op rd bi k) 0 4 = k := by
  have hword (lo len : Nat) : fieldOf (encBI op rd bi k) lo len = (op ++ rd.spec ++ bi ++ k).extractLsb' lo len := rfl
  simp (disch := decide) only [hword, field_above, field_within, Nat.sub_self, BitVec.extractLsb'_eq_self, and_self]

theorem fields_encFM (h : Bool) (bu : BitVec 6) (dw : BitVec 4) : fieldOf (encFM op h bu dw) 11 5 = op ∧
    fieldOf (encFM op h bu dw) 10 1 = BitVec.ofBool h ∧ fieldOf (encFM op h bu dw) 4 6 = bu ∧
    fieldOf (encFM op h bu dw) 0 4 = dw := by
  have hword (lo len : Nat) :
      fieldOf (encFM op h bu dw) lo len = (op ++ BitVec.ofBool h ++ bu ++ dw).extractLsb' lo len := rfl
  simp (disch := decide) only [hword, field_above, field_within, Nat.sub_self, BitVec.extractLsb'_eq_self, and_self]

theorem fields_encGS (sel : BitVec 3) : fieldOf (encGS op sel) 11 5 = op ∧ fieldOf (encGS op sel) 3 8 = 0#8 ∧
    fieldOf (encGS op sel) 0 3 = sel := by
  have hword (lo len : Nat) : fieldOf (encGS op sel) lo len = (op ++ 0#8 ++ sel).extractLsb' lo len := rfl
  simp (disch := decide) only [hword, field_above, field_within, Nat.sub_self, BitVec.extractLsb'_eq_self, and_self]

end

/-- The decoder reads the word of every instruction other than SET as that instruction, unless it is a DIV with one
destination. -/
theorem decodePlain_encodeWord {i : Instr} (hset : ∀ rd lit, i ≠ .set rd lit) (hwf : ∀ wd, i.wellFormed wd = true) :
    (fieldOf (encodeWord i) 11 5).toNat ≠ 1 ∧ decodePlain (encodeWord i) = .ok i := by
  cases i with
  | set rd lit => exact absurd rfl (hset rd lit)
  | get rd | neg rd | not rd | norm rd | unhide rd | hide rd =>
    simp only [encodeWord, decodePlain, fields_encZ1]
    simp [decodeZ1, decodeZ1Single, fields_encZ1, Except.map]
  | copy rd rs | geth rd rs | getl rd rs | puth rd rs | putl rd rs | add rd rs | sub rd rs =>
    simp only [encodeWord, decodePlain, fields_encR2]
    simp [decodeR2, decodeR2Get, decodeR2Put, fields_encR2]
  | addh rd rs t | subh rd rs t =>
    simp only [encodeWord, decodePlain, fields_encRH]
    simp [decodeRH, fields_encRH]
  | shl rd f amt | shr rd f amt =>
    simp only [encodeWord, decodePlain, fields_encSH]
    simp [decodeShl, decodeShr, fields_encSH]
  | btst rd bi k | bset rd bi k | bclr rd bi k =>
    simp only [encodeWord, decodePlain, fields_encBI]
    simp [decodeBI, fields_encBI]
  | mulc rd rs rt | mulb rd rs rt | mulf rd rs rt =>
    simp only [encodeWord, decodePlain, fields_encR3]
    simp [decodeMul, fields_encR3]
  | div rd rs rt rem =>
    have hd : rd ≠ rem := by simpa [Instr.wellFormed] using hwf .w2
    simp only [encodeWord, decodePlain, fields_encR3]
    simp [decodeDiv, fields_encR3, hd]
  | setfmt h bu dw =>
    simp only [encodeWord, decodePlain, fields_encFM]
    simp [decodeFM, fields_encFM]
  | gets sel =>
    simp only [encodeWord, decodePlain, fields_encGS]
    simp [decodeGS, fields_encGS]

/-! ### Commands that decode (R60) -/

theorem requirePayload_eq_ok {p : List Byte} {n : Nat} {u : Unit} : requirePayload p n = .ok u ↔ p.length = n := by
  simp [requirePayload]

theorem decode_set {wd : Width} {rd : Reg} {lit : List Byte} (h : lit.length = wd.ofReg rd) :
    decode wd (encode (.set rd lit)) = .ok (.set rd lit) := by
  simp [decode, encode, encodeWord, encodePayload, fields_encZ1, decodeZ1, requirePayload, h]

theorem decode_of_decodePlain {wd : Width} {c : Command} {i : Instr} (hop : (fieldOf c.word 11 5).toNat ≠ 1)
    (h : decodePlain c.word = .ok i) (hp : c.payload = []) : decode wd c = .ok i := by
  simp [decode, hop, h, hp, requirePayload]

/-- SET is the only instruction with a payload. -/
theorem encodePayload_eq_nil {i : Instr} (h : ∀ rd lit, i ≠ .set rd lit) : encodePayload i = [] := by
  cases i with
  | set rd lit => exact absurd rfl (h rd lit)
  | _ => rfl

/-- Whether an instruction other than SET is well formed does not depend on the width. -/
theorem wellFormed_width {i : Instr} (h : ∀ rd lit, i ≠ .set rd lit) (wd wd' : Width) :
    i.wellFormed wd = i.wellFormed wd' := by
  cases i with
  | set rd lit => exact absurd rfl (h rd lit)
  | _ => rfl

/-- A command that decodes has the payload of the instruction it decodes to, which is well formed. -/
theorem encodePayload_of_decode {wd : Width} {c : Command} {i : Instr} (h : decode wd c = .ok i) :
    encodePayload i = c.payload ∧ i.wellFormed wd = true := by
  have hword := encodeWord_of_decode h
  unfold decode at h
  split at h
  next =>
    obtain ⟨rd, -, h⟩ := except_bind_eq_ok.mp h
    obtain ⟨_, hp, h⟩ := except_bind_eq_ok.mp h
    obtain rfl := Except.ok.inj h
    exact ⟨rfl, by simpa [Instr.wellFormed] using requirePayload_eq_ok.mp hp⟩
  next hop =>
    obtain ⟨j, hj, h⟩ := except_bind_eq_ok.mp h
    obtain ⟨_, hp, h⟩ := except_bind_eq_ok.mp h
    obtain rfl := Except.ok.inj h
    rw [List.eq_nil_of_length_eq_zero (requirePayload_eq_ok.mp hp)]
    cases j with
    | set rd lit => exact absurd (by rw [← hword, encodeWord, (fields_encZ1 _ _).1]; rfl) hop
    | div rd rs rt rem =>
      refine ⟨rfl, ?_⟩
      have hdec : decodePlain c.word = decodeDiv c.word := by
        rw [← hword, encodeWord, decodePlain, (fields_encR3 ..).1]; rfl
      rw [hdec, ← hword] at hj
      simp only [decodeDiv, encodeWord, fields_encR3, decodeSingle_spec, decodeDouble_spec, decodeRem_number,
        except_ok_bind] at hj
      split at hj
      · cases hj
      · simpa [Instr.wellFormed] using ‹¬ _›
    | _ => exact ⟨rfl, rfl⟩

end Sys2Proof.Machine
end

section

open Sys2Proof Sys2Proof.Machine

/-- Settles O1: SET takes its payload; any other instruction is read back field by field. -/
theorem decodeOfEncodeIsTheInstruction : Obligations.DecodeOfEncodeIsTheInstruction := by
  intro wd i hwf
  by_cases hset : ∃ rd lit, i = .set rd lit
  · obtain ⟨rd, lit, rfl⟩ := hset
    exact decode_set (by simpa [Instr.wellFormed] using hwf)
  · have hset : ∀ rd lit, i ≠ .set rd lit := fun rd lit h => hset ⟨rd, lit, h⟩
    obtain ⟨hop, hplain⟩ := decodePlain_encodeWord hset fun wd' => (wellFormed_width hset wd' wd).trans hwf
    exact decode_of_decodePlain hop hplain (encodePayload_eq_nil hset)

/-- Settles O2: the word and the payload are those of the instruction. -/
theorem encodeOfDecodeIsTheCommand : Obligations.EncodeOfDecodeIsTheCommand := by
  intro wd c i h
  obtain ⟨hpayload, hwf⟩ := encodePayload_of_decode h
  exact ⟨by rw [encode, encodeWord_of_decode h, hpayload], hwf⟩

end
section
/-! The opcode map against the decoder: a row that accepts a command fixes the fields of its word that the decoder asks for
(30_encoding.md R63, R73). -/

namespace Sys2Proof.Machine

open Sys2Proof

/-! ### The command of an instruction, in the opcode map -/

theorem encoded_row_accepts (i : Instr) : Laws.EncodedRow.Statement i := by
  cases i with
  | set rd lit => exact Laws.EncodedRow.set rd lit
  | get rd => exact Laws.EncodedRow.get rd
  | copy rd rs => exact Laws.EncodedRow.copy rd rs
  | geth rd rs => exact Laws.EncodedRow.geth rd rs
  | getl rd rs => exact Laws.EncodedRow.getl rd rs
  | puth rd rs => exact Laws.EncodedRow.puth rd rs
  | putl rd rs => exact Laws.EncodedRow.putl rd rs
  | add rd rs => exact Laws.EncodedRow.add rd rs
  | sub rd rs => exact Laws.EncodedRow.sub rd rs
  | addh rd rs t => exact Laws.EncodedRow.addh rd rs t
  | subh rd rs t => exact Laws.EncodedRow.subh rd rs t
  | shl rd fill amt => exact Laws.EncodedRow.shl rd fill amt
  | shr rd fill amt => exact Laws.EncodedRow.shr rd fill amt
  | neg rd => exact Laws.EncodedRow.neg rd
  | not rd => exact Laws.EncodedRow.not rd
  | btst rd bi k => exact Laws.EncodedRow.btst rd bi k
  | bset rd bi k => exact Laws.EncodedRow.bset rd bi k
  | bclr rd bi k => exact Laws.EncodedRow.bclr rd bi k
  | mulc rd rs rt => exact Laws.EncodedRow.mulc rd rs rt
  | mulb rd rs rt => exact Laws.EncodedRow.mulb rd rs rt
  | mulf rd rs rt => exact Laws.EncodedRow.mulf rd rs rt
  | div rd rs rt rem => exact Laws.EncodedRow.div rd rs rt rem
  | setfmt h bu dw => exact Laws.EncodedRow.setfmt h bu dw
  | norm rd => exact Laws.EncodedRow.norm rd
  | unhide rd => exact Laws.EncodedRow.unhide rd
  | hide rd => exact Laws.EncodedRow.hide rd
  | gets sel => exact Laws.EncodedRow.gets sel

/-- A command that decodes is accepted by the row of the instruction it decodes to. -/
theorem row_accepts_of_decode {wd : Width} {c : Command} {i : Instr} (h : decode wd c = .ok i) :
    (opcodeMap[Instr.rowIndex i]?).map (MapRow.accepts wd c) = some true := by
  obtain ⟨hc, hwf⟩ := encodeOfDecodeIsTheCommand wd c i h
  rw [← hc]
  exact encoded_row_accepts i wd hwf

/-! ### What a row says about a word -/

theorem fieldOf_toNat (w : Word) (lo len : Nat) : (fieldOf w lo len).toNat = w.toNat / 2 ^ lo % 2 ^ len := by
  rw [fieldOf, BitVec.extractLsb'_toNat, Nat.shiftRight_eq_div_pow]

/-- What acceptance by a row says, field by field. -/
theorem accepts_iff {wd : Width} {c : Command} {r : MapRow} : r.accepts wd c = true ↔
    c.word &&& r.mask = r.matchBits ∧ r.rd.admits (fieldOf c.word 8 3).toNat = true ∧
    r.rs.admits (fieldOf c.word 5 3).toNat = true ∧ r.rt.admits (fieldOf c.word 2 3).toNat = true ∧
    r.further.holds c.word.toNat = true ∧ c.payload.length = r.payloadLength wd c.word.toNat := by
  simp [MapRow.accepts, fieldOf_toNat, and_assoc]

/-- A field that the mask of a row covers is that of the row's match. -/
theorem fieldOf_of_match {w m b : Word} (h : w &&& m = b) (lo len : Nat)
    (hm : fieldOf m lo len = BitVec.allOnes len) : fieldOf w lo len = fieldOf b lo len := by
  rw [← h]
  simp only [fieldOf] at hm ⊢
  rw [BitVec.extractLsb'_and, hm, BitVec.and_allOnes]

/-! ### Fields and formats that decode -/

theorem isOk_iff {ε α : Type} {x : Except ε α} : x.isOk = true ↔ ∃ a, x = .ok a := by
  cases x <;> simp [Except.isOk, Except.toBool]

theorem isOk_bind {ε α β : Type} {x : Except ε α} {f : α → Except ε β} (hx : x.isOk = true)
    (hf : ∀ a, x = .ok a → (f a).isOk = true) : (x >>= f).isOk = true := by
  obtain ⟨a, rfl⟩ := isOk_iff.mp hx
  exact hf a rfl

theorem isOk_map {ε α β : Type} {x : Except ε α} (f : α → β) (hx : x.isOk = true) : (x.map f).isOk = true := by
  obtain ⟨a, rfl⟩ := isOk_iff.mp hx
  rfl

theorem isOk_requireZero {n : Nat} {v : BitVec n} (h : v = 0#n) : (requireZero v).isOk = true :=
  isOk_iff.mpr ⟨(), requireZero_eq_ok.mpr h⟩

theorem isOk_decodeReg {v : BitVec 3} : RegClass.either.admits v.toNat = true → (decodeReg v).isOk = true := by
  revert v; decide

theorem isOk_decodeSingle {v : BitVec 3} : RegClass.single.admits v.toNat = true → (decodeSingle v).isOk = true := by
  revert v; decide

theorem isOk_decodeDouble {v : BitVec 3} : RegClass.double.admits v.toNat = true → (decodeDouble v).isOk = true := by
  revert v; decide

theorem isOk_decodeShlFill {v : BitVec 2} : v.toNat < 2 → (decodeShlFill v).isOk = true := by
  revert v; decide

theorem isOk_decodeShrFill {v : BitVec 2} : v.toNat ≠ 3 → (decodeShrFill v).isOk = true := by
  revert v; decide

theorem isOk_decodeSelector {v : BitVec 3} : v.toNat ≤ 4 → (decodeSelector v).isOk = true := by
  revert v; decide

/-- Different numbers name different registers: the two destinations of DIV (30_encoding.md R67, R73). -/
theorem decodeRem_ne_of_toNat {u : BitVec 2} {v : BitVec 3} {r : SReg} (hr : decodeSingle v = .ok r)
    (h : u.toNat ≠ v.toNat) : r ≠ decodeRem u := by
  have hspec : ∀ u : BitVec 2, u.toNat = (Reg.single (decodeRem u)).spec.toNat := by decide
  rintro rfl
  exact h (by rw [← spec_of_decodeSingle hr, ← hspec])

section

variable {w : Word}

/-- The two decoders of format Z1. -/
theorem isOk_Z1 {α : Type} {read : BitVec 3 → Except DecodeError α} (hz : fieldOf w 0 8 = 0#8)
    (hd : (read (fieldOf w 8 3)).isOk = true) :
    (do requireZero (fieldOf w 0 8); read (fieldOf w 8 3) : Except DecodeError α).isOk = true :=
  isOk_bind (isOk_requireZero hz) fun _ _ => hd

/-- The three decoders of format R2. -/
theorem isOk_R2 {α β : Type} {readD : BitVec 3 → Except DecodeError α} {readS : BitVec 3 → Except DecodeError β}
    {make : α → β → Instr} (hz : fieldOf w 0 5 = 0#5) (hd : (readD (fieldOf w 8 3)).isOk = true)
    (hs : (readS (fieldOf w 5 3)).isOk = true) :
    (do
      requireZero (fieldOf w 0 5)
      let rd ← readD (fieldOf w 8 3)
      let rs ← readS (fieldOf w 5 3)
      .ok (make rd rs) : Except DecodeError Instr).isOk = true :=
  isOk_bind (isOk_requireZero hz) fun _ _ => isOk_bind hd fun _ _ => isOk_bind hs fun _ _ => rfl

theorem isOk_decodeRH {make : DReg → Reg → Bool → Instr} (hz : fieldOf w 1 4 = 0#4)
    (hd : RegClass.double.admits (fieldOf w 8 3).toNat = true)
    (hs : RegClass.either.admits (fieldOf w 5 3).toNat = true) : (decodeRH w make).isOk = true :=
  isOk_bind (isOk_requireZero hz) fun _ _ => isOk_bind (isOk_decodeDouble hd) fun _ _ =>
    isOk_bind (isOk_decodeReg hs) fun _ _ => rfl

theorem isOk_decodeShl (hz : fieldOf w 7 1 = 0#1) (hd : RegClass.either.admits (fieldOf w 8 3).toNat = true) :
    (decodeShl w).isOk = true := by
  have hbit := congrArg BitVec.toNat hz
  have hfill : (fieldOf w 6 2).toNat < 2 := by
    rw [fieldOf_toNat] at hbit ⊢
    simp only [BitVec.toNat_ofNat] at hbit
    omega
  exact isOk_bind (isOk_decodeReg hd) fun _ _ => isOk_bind (isOk_decodeShlFill hfill) fun _ _ => rfl

theorem isOk_decodeShr (hd : RegClass.either.admits (fieldOf w 8 3).toNat = true)
    (hf : Further.fmNot3.holds w.toNat = true) : (decodeShr w).isOk = true :=
  isOk_bind (isOk_decodeReg hd) fun _ _ =>
    isOk_bind (isOk_decodeShrFill (by simpa [Further.holds, fieldOf_toNat] using hf)) fun _ _ => rfl

theorem isOk_decodeBI {make : Reg → BitVec 4 → BitVec 4 → Instr}
    (hd : RegClass.either.admits (fieldOf w 8 3).toNat = true) : (decodeBI w make).isOk = true :=
  isOk_bind (isOk_decodeReg hd) fun _ _ => rfl

theorem isOk_decodeMul (hd : RegClass.double.admits (fieldOf w 8 3).toNat = true)
    (hs : RegClass.single.admits (fieldOf w 5 3).toNat = true)
    (ht : RegClass.single.admits (fieldOf w 2 3).toNat = true) (hfn : (fieldOf w 0 2).toNat ≠ 3) :
    (decodeMul w).isOk = true := by
  have hlt := (fieldOf w 0 2).isLt
  have hcases : (fieldOf w 0 2).toNat = 0 ∨ (fieldOf w 0 2).toNat = 1 ∨ (fieldOf w 0 2).toNat = 2 := by omega
  refine isOk_bind (isOk_decodeDouble hd) fun _ _ => isOk_bind (isOk_decodeSingle hs) fun _ _ =>
    isOk_bind (isOk_decodeSingle ht) fun _ _ => ?_
  rcases hcases with h | h | h <;> rw [h] <;> rfl

theorem isOk_decodeDiv (hd : RegClass.single.admits (fieldOf w 8 3).toNat = true)
    (hs : RegClass.double.admits (fieldOf w 5 3).toNat = true)
    (ht : RegClass.single.admits (fieldOf w 2 3).toNat = true) (hf : Further.fnNotRd.holds w.toNat = true) :
    (decodeDiv w).isOk = true := by
  refine isOk_bind (isOk_decodeSingle hd) fun _ hrd => isOk_bind (isOk_decodeDouble hs) fun _ _ =>
    isOk_bind (isOk_decodeSingle ht) fun _ _ => ?_
  dsimp only
  rw [if_neg (decodeRem_ne_of_toNat hrd (by simpa [Further.holds, fieldOf_toNat] using hf))]
  rfl

theorem isOk_decodeGS (hz : fieldOf w 3 8 = 0#8) (hf : Further.selAtMost4.holds w.toNat = true) :
    (decodeGS w).isOk = true :=
  isOk_bind (isOk_requireZero hz) fun _ _ =>
    isOk_bind (isOk_decodeSelector (by simpa [Further.holds, fieldOf_toNat] using hf)) fun _ _ => rfl

end

/-! ### A row that accepts a command -/

theorem isOk_decode_set {wd : Width} {c : Command} (ho : fieldOf c.word 11 5 = 1#5) (hz : fieldOf c.word 0 8 = 0#8)
    (hd : RegClass.either.admits (fieldOf c.word 8 3).toNat = true)
    (hp : c.payload.length = if c.word.toNat / 2 ^ 8 % 8 < 4 then wd.bytes else 2 * wd.bytes) :
    (decode wd c).isOk = true := by
  have hop : (fieldOf c.word 11 5).toNat = 1 := by rw [ho]; rfl
  rw [decode, if_pos hop]
  refine isOk_bind (isOk_Z1 hz (isOk_decodeReg hd)) fun rd hrd => isOk_bind ?_ fun _ _ => rfl
  obtain ⟨_, -, hrd⟩ := except_bind_eq_ok.mp hrd
  refine isOk_iff.mpr ⟨(), requirePayload_eq_ok.mpr (hp.trans ?_)⟩
  have hn : c.word.toNat / 2 ^ 8 % 8 = rd.spec.toNat := by 
    rw [spec_of_decodeReg hrd, fieldOf_toNat]
    rfl
  rw [hn]
  rcases rd with r | r <;> cases r <;> rfl

/-- A command other than SET decodes where its word does and it has no payload. -/
theorem isOk_decode_plain {wd : Width} {c : Command} {op : BitVec 5} {x : Except DecodeError Instr}
    (ho : fieldOf c.word 11 5 = op) (hne : op ≠ 1#5) (hp : c.payload.length = 0)
    (hx : decodePlain c.word = x) (h : x.isOk = true) : (decode wd c).isOk = true := by
  have hop : ¬ (fieldOf c.word 11 5).toNat = 1 := fun e => hne (by rw [← ho]; exact BitVec.eq_of_toNat_eq e)
  rw [decode, if_neg hop, hx]
  exact isOk_bind h fun _ _ => isOk_bind (isOk_iff.mpr ⟨(), requirePayload_eq_ok.mpr hp⟩) fun _ _ => rfl

/-- One case per row of the opcode map (30_encoding.md R63): the mask fixes the opcode and the zero bits, the classes and the
further constraint make the operand fields decode. -/
theorem isOk_decode_of_accepts {wd : Width} {c : Command} {r : MapRow} (hr : r ∈ opcodeMap)
    (h : r.accepts wd c = true) : (decode wd c).isOk = true := by
  obtain ⟨hw, hd, hs, ht, hf, hp⟩ := accepts_iff.mp h
  simp only [opcodeMap, List.cons_append, List.nil_append, List.mem_cons, List.not_mem_nil, or_false] at hr
  rcases hr with rfl | rfl | rfl | rfl | rfl | rfl | rfl | rfl | rfl | rfl | rfl | rfl | rfl | rfl | rfl | rfl | rfl |
    rfl | rfl | rfl | rfl | rfl | rfl | rfl | rfl | rfl | rfl <;>
    have ho := fieldOf_of_match hw 11 5 rfl
  · exact isOk_decode_set ho (fieldOf_of_match hw 0 8 rfl) hd hp
  · exact isOk_decode_plain ho (by decide) hp (by rw [decodePlain, ho]; rfl)
      (isOk_map _ (isOk_Z1 (fieldOf_of_match hw 0 8 rfl) (isOk_decodeReg hd)))
  · exact isOk_decode_plain ho (by decide) hp (by rw [decodePlain, ho]; rfl)
      (isOk_R2 (fieldOf_of_match hw 0 5 rfl) (isOk_decodeReg hd) (isOk_decodeReg hs))
  · exact isOk_decode_plain ho (by decide) hp (by rw [decodePlain, ho]; rfl)
      (isOk_R2 (fieldOf_of_match hw 0 5 rfl) (isOk_decodeSingle hd) (isOk_decodeDouble hs))
  · exact isOk_decode_plain ho (by decide) hp (by rw [decodePlain, ho]; rfl)
      (isOk_R2 (fieldOf_of_match hw 0 5 rfl) (isOk_decodeSingle hd) (isOk_decodeDouble hs))
  · exact isOk_decode_plain ho (by decide) hp (by rw [decodePlain, ho]; rfl)
      (isOk_R2 (fieldOf_of_match hw 0 5 rfl) (isOk_decodeDouble hd) (isOk_decodeSingle hs))
  · exact isOk_decode_plain ho (by decide) hp (by rw [decodePlain, ho]; rfl)
      (isOk_R2 (fieldOf_of_match hw 0 5 rfl) (isOk_decodeDouble hd) (isOk_decodeSingle hs))
  · exact isOk_decode_plain ho (by decide) hp (by rw [decodePlain, ho]; rfl)
      (isOk_R2 (fieldOf_of_match hw 0 5 rfl) (isOk_decodeReg hd) (isOk_decodeReg hs))
  · exact isOk_decode_plain ho (by decide) hp (by rw [decodePlain, ho]; rfl)
      (isOk_R2 (fieldOf_of_match hw 0 5 rfl) (isOk_decodeReg hd) (isOk_decodeReg hs))
  · exact isOk_decode_plain ho (by decide) hp (by rw [decodePlain, ho]; rfl)
      (isOk_decodeRH (fieldOf_of_match hw 1 4 rfl) hd hs)
  · exact isOk_decode_plain ho (by decide) hp (by rw [decodePlain, ho]; rfl)
      (isOk_decodeRH (fieldOf_of_match hw 1 4 rfl) hd hs)
  · exact isOk_decode_plain ho (by decide) hp (by rw [decodePlain, ho]; rfl)
      (isOk_decodeShl (fieldOf_of_match hw 7 1 rfl) hd)
  · exact isOk_decode_plain ho (by decide) hp (by rw [decodePlain, ho]; rfl)
      (isOk_decodeShr hd hf)
  · exact isOk_decode_plain ho (by decide) hp (by rw [decodePlain, ho]; rfl)
      (isOk_map _ (isOk_Z1 (fieldOf_of_match hw 0 8 rfl) (isOk_decodeReg hd)))
  · exact isOk_decode_plain ho (by decide) hp (by rw [decodePlain, ho]; rfl)
      (isOk_map _ (isOk_Z1 (fieldOf_of_match hw 0 8 rfl) (isOk_decodeReg hd)))
  · exact isOk_decode_plain ho (by decide) hp (by rw [decodePlain, ho]; rfl)
      (isOk_decodeBI hd)
  · exact isOk_decode_plain ho (by decide) hp (by rw [decodePlain, ho]; rfl)
      (isOk_decodeBI hd)
  · exact isOk_decode_plain ho (by decide) hp (by rw [decodePlain, ho]; rfl)
      (isOk_decodeBI hd)
  · exact isOk_decode_plain ho (by decide) hp (by rw [decodePlain, ho]; rfl)
      (isOk_decodeMul hd hs ht (by rw [fieldOf_of_match hw 0 2 rfl]; decide))
  · exact isOk_decode_plain ho (by decide) hp (by rw [decodePlain, ho]; rfl)
      (isOk_decodeMul hd hs ht (by rw [fieldOf_of_match hw 0 2 rfl]; decide))
  · exact isOk_decode_plain ho (by decide) hp (by rw [decodePlain, ho]; rfl)
      (isOk_decodeMul hd hs ht (by rw [fieldOf_of_match hw 0 2 rfl]; decide))
  · exact isOk_decode_plain ho (by decide) hp (by rw [decodePlain, ho]; rfl)
      (isOk_decodeDiv hd hs ht hf)
  · exact isOk_decode_plain (x := .ok (decodeFM c.word)) ho (by decide) hp (by rw [decodePlain, ho]; rfl) rfl
  · exact isOk_decode_plain ho (by decide) hp (by rw [decodePlain, ho]; rfl)
      (isOk_map _ (isOk_Z1 (fieldOf_of_match hw 0 8 rfl) (isOk_decodeSingle hd)))
  · exact isOk_decode_plain ho (by decide) hp (by rw [decodePlain, ho]; rfl)
      (isOk_map _ (isOk_Z1 (fieldOf_of_match hw 0 8 rfl) (isOk_decodeSingle hd)))
  · exact isOk_decode_plain ho (by decide) hp (by rw [decodePlain, ho]; rfl)
      (isOk_map _ (isOk_Z1 (fieldOf_of_match hw 0 8 rfl) (isOk_decodeSingle hd)))
  · exact isOk_decode_plain ho (by decide) hp (by rw [decodePlain, ho]; rfl)
      (isOk_decodeGS (fieldOf_of_match hw 3 8 rfl) hf)

end Sys2Proof.Machine
end

section

open Sys2Proof Sys2Proof.Machine

/-- Settles O3: a command that decodes is the command of its instruction, whose row accepts it; a row that accepts a command
makes its fields decode. -/
theorem decoderAcceptsExactlyTheOpcodeMap : Obligations.DecoderAcceptsExactlyTheOpcodeMap := by
  refine fun wd c => ⟨⟨fun ⟨i, h⟩ => ?_, fun h => ?_⟩, fun i h => row_accepts_of_decode h⟩
  · obtain ⟨r, hr, hacc⟩ := Option.map_eq_some_iff.mp (row_accepts_of_decode h)
    exact List.any_eq_true.mpr ⟨r, List.mem_of_getElem? hr, hacc⟩
  · obtain ⟨r, hr, hacc⟩ := List.any_eq_true.mp h
    exact isOk_iff.mp (isOk_decode_of_accepts hr hacc)

/-- Settles O4: nine commands, decoded. -/
theorem specWordsDecode : Obligations.SpecWordsDecode :=
  ⟨rfl, rfl, rfl, rfl, rfl, rfl, rfl, rfl, rfl⟩

end


section
/-! The remaining encoding formats with every field at its own bit of the word (30_encoding.md R61). -/

namespace Sys2Proof.Machine

open Sys2Proof

variable (op : BitVec 5) (rd rs rt : Reg)

theorem encR2_eq_placed : encR2 op rd rs = placed op 11 ||| placed rd.spec 8 ||| placed rs.spec 5 := by
  calc encR2 op rd rs = placed (op ++ rd.spec ++ rs.spec ++ 0#5) 0 := (placed_word _).symm
    _ = _ := by rw [placed_append, placed_append, placed_append, placed_zero, BitVec.or_zero]

theorem encRH_eq_placed (t : Bool) : encRH op rd rs t =
    placed op 11 ||| placed rd.spec 8 ||| placed rs.spec 5 ||| placed (BitVec.ofBool t) 0 := by
  calc encRH op rd rs t = placed (op ++ rd.spec ++ rs.spec ++ 0#4 ++ BitVec.ofBool t) 0 := (placed_word _).symm
    _ = _ := by rw [placed_append, placed_append, placed_append, placed_append, placed_zero, BitVec.or_zero]

theorem encR3_eq_placed (fn : BitVec 2) : encR3 op rd rs rt fn =
    placed op 11 ||| placed rd.spec 8 ||| placed rs.spec 5 ||| placed rt.spec 2 ||| placed fn 0 := by
  calc encR3 op rd rs rt fn = placed (op ++ rd.spec ++ rs.spec ++ rt.spec ++ fn) 0 := (placed_word _).symm
    _ = _ := by rw [placed_append, placed_append, placed_append, placed_append]

/-- The opcode and the function of a word of format R3, taken together, before its registers. -/
theorem encR3_eq_placed_fn (fn : BitVec 2) : encR3 op rd rs rt fn =
    (placed op 11 ||| placed fn 0) ||| placed rd.spec 8 ||| placed rs.spec 5 ||| placed rt.spec 2 := by
  rw [encR3_eq_placed]
  ac_rfl

theorem encSH_eq_placed (fm : BitVec 2) (amt : BitVec 6) :
    encSH op rd fm amt = placed op 11 ||| placed rd.spec 8 ||| placed fm 6 ||| placed amt 0 := by
  calc encSH op rd fm amt = placed (op ++ rd.spec ++ fm ++ amt) 0 := (placed_word _).symm
    _ = _ := by rw [placed_append, placed_append, placed_append]

theorem encFM_eq_placed (h : Bool) (bu : BitVec 6) (dw : BitVec 4) :
    encFM op h bu dw = placed op 11 ||| placed (BitVec.ofBool h) 10 ||| placed bu 4 ||| placed dw 0 := by
  calc encFM op h bu dw = placed (op ++ BitVec.ofBool h ++ bu ++ dw) 0 := (placed_word _).symm
    _ = _ := by rw [placed_append, placed_append, placed_append]

theorem encGS_eq_placed (sel : BitVec 3) : encGS op sel = placed op 11 ||| placed sel 0 := by
  calc encGS op sel = placed (op ++ 0#8 ++ sel) 0 := (placed_word _).symm
    _ = _ := by rw [placed_append, placed_append, placed_zero, BitVec.or_zero]

end Sys2Proof.Machine
end


section
/-! The working register as one integer: what its one-bit shift and a change of its high half do, and how the multiplications
accumulate the product in it (42_multiply.md R150 to R155). -/

namespace Sys2Proof.Machine

open Sys2Proof

/-! ### The working register as an integer -/

section

variable {n : Nat}

theorem vec_toInt (hn : 0 < n) (k : Work n) : k.vec.toInt = k.H.toInt * 2 ^ n + k.L.toNat := by
  rw [Work.vec, BitVec.toInt_append, if_neg (by simp; omega), mul_comm]

/-- The vector with any integer in its high half, reduced to the width. -/
theorem vec_ofInt (h : Int) (L : BitVec n) :
    ({ H := BitVec.ofInt n h, L := L } : Work n).vec = BitVec.ofInt (n + n) (h * 2 ^ n + L.toNat) := by
  have hp : (0 : Int) < 2 ^ n := by positivity
  have hL : (L.toNat : Int) < 2 ^ n := by exact_mod_cast L.isLt
  have hr := Int.emod_nonneg h hp.ne'
  have hr' := Int.emod_lt_of_pos h hp
  have hsplit : h * 2 ^ n + L.toNat = h % 2 ^ n * 2 ^ n + L.toNat + 2 ^ (n + n) * (h / 2 ^ n) := by
    conv_lhs => rw [← Int.emod_add_mul_ediv h (2 ^ n)]
    ring
  have hmod : (h * 2 ^ n + L.toNat) % 2 ^ (n + n) = h % 2 ^ n * 2 ^ n + L.toNat := by
    rw [hsplit, Int.add_mul_emod_self_left]
    exact Int.emod_eq_of_lt (by positivity) (by rw [pow_add]; nlinarith)
  apply BitVec.eq_of_toNat_eq
  zify
  rw [Work.vec, BitVec.toNat_append, ← Nat.shiftLeft_add_eq_or_of_lt L.isLt, Nat.shiftLeft_eq, BitVec.toNat_ofInt,
    BitVec.toNat_ofInt]
  push_cast
  rw [hmod, Int.toNat_of_nonneg hr, Int.toNat_of_nonneg (by positivity)]

/-- The one-bit shift of an exact sum, its sign entering at the top, halves the sum (R152, R153). -/
theorem shr1_toInt (hn : 0 < n) (t : Int) (L : BitVec n) (hlo : -2 ^ n ≤ t) (hhi : t < 2 ^ n) :
    (({ H := BitVec.ofInt n t, L := L } : Work n).shr1 (decide (t < 0))).vec.toInt = (t * 2 ^ n + L.toNat) / 2 := by
  have hvec : (({ H := BitVec.ofInt n t, L := L } : Work n).shr1 (decide (t < 0))).vec =
      (BitVec.cons (decide (t < 0)) ({ H := BitVec.ofInt n t, L := L } : Work n).vec).extractLsb' 1 (n + n) :=
    BitVec.extractLsb'_append_extractLsb'_eq_extractLsb' (by omega)
  have hL : (L.toNat : Int) < 2 ^ n := by exact_mod_cast L.isLt
  obtain ⟨m, hm⟩ : ∃ m : Nat, 2 ^ (n + n) = 2 * m := ⟨2 ^ (n + n - 1), by rw [← pow_succ']; congr 1; omega⟩
  have hpow : (2 : Int) ^ n * 2 ^ n = 2 * m := by rw [← pow_add]; exact_mod_cast hm
  have hX : -(2 * m : Int) ≤ t * 2 ^ n + L.toNat := by nlinarith
  have hX' : t * 2 ^ n + L.toNat < (2 * m : Int) := by nlinarith
  have hsign : t < 0 ↔ t * 2 ^ n + L.toNat < (0 : Int) := by
    constructor <;> intro h <;> nlinarith
  rw [hvec, vec_ofInt]
  generalize t * 2 ^ n + (L.toNat : Int) = X at *
  rw [BitVec.toInt_eq_toNat_cond, BitVec.extractLsb'_toNat, BitVec.toNat_cons,
    ← Nat.shiftLeft_add_eq_or_of_lt (BitVec.isLt _), BitVec.toNat_ofInt, Nat.shiftLeft_eq, Nat.shiftRight_eq_div_pow, hm,
    pow_one]
  by_cases ht : t < 0
  · have hx : X % ((2 * m : Nat) : Int) = X + 2 * m := by
      rw [← Int.add_emod_right]
      exact Int.emod_eq_of_lt (by omega) (by omega)
    have hlt : (1 * (2 * m) + (X + 2 * m).toNat) / 2 < 2 * m := by omega
    rw [hx, decide_eq_true ht, Bool.toNat_true, Nat.mod_eq_of_lt hlt]
    split <;> omega
  · have hx : X % ((2 * m : Nat) : Int) = X := Int.emod_eq_of_lt (by omega) (by omega)
    have hlt : (0 * (2 * m) + X.toNat) / 2 < 2 * m := by omega
    rw [hx, decide_eq_false ht, Bool.toNat_false, Nat.mod_eq_of_lt hlt]
    split <;> omega

end

end Sys2Proof.Machine
end


section
/-! The loops of the multiplications (42_multiply.md R152 to R154): each iteration adds one digit's multiple of the multiplicand
and shifts; after it the working register holds the multiplicand times the multiplier bits used, and below it the bits still
to be used. -/

namespace Sys2Proof.Machine

open Sys2Proof

/-! ### Accumulating a product digit by digit -/

/-- After `i` bits of the multiplier `b`, which count as the number `used`, the working register holds `a * used` at its place
and below it the bits of `b` that are left. -/
def Accumulates {n : Nat} (a used : Int) (b i : Nat) (k : Work n) : Prop :=
  k.vec.toInt = a * used * 2 ^ (n - i) + (b / 2 ^ i : Nat)

section

variable {n : Nat} {a used : Int} {b i : Nat} {k : Work n}

theorem accumulates_zero {b : BitVec n} (hn : 0 < n) : Accumulates a 0 b.toNat 0 ({ H := 0, L := b } : Work n) := by
  simp [Accumulates, vec_toInt hn]

/-- The bits that the next digit reads are bits of the multiplier. -/
theorem Accumulates.low_bits (h : Accumulates a used b i k) {j : Nat} (hn : 0 < n) (hij : i + j ≤ n) :
    k.L.toNat % 2 ^ j = b / 2 ^ i % 2 ^ j := by
  have hvec := vec_toInt hn k
  rw [h] at hvec
  have hH : (2 : Int) ^ n = 2 ^ j * 2 ^ (n - j) := by rw [← pow_add]; congr 1; omega
  have hA : (2 : Int) ^ (n - i) = 2 ^ j * 2 ^ (n - i - j) := by rw [← pow_add]; congr 1; omega
  rw [hH, hA] at hvec
  have hmod := congrArg (· % (2 : Int) ^ j) hvec
  rw [show a * used * (2 ^ j * 2 ^ (n - i - j)) = 2 ^ j * (a * used * 2 ^ (n - i - j)) by ring,
    show k.H.toInt * (2 ^ j * 2 ^ (n - j)) = 2 ^ j * (k.H.toInt * 2 ^ (n - j)) by ring,
    Int.mul_add_emod_self_left, Int.mul_add_emod_self_left] at hmod
  exact_mod_cast hmod.symm

/-- One digit: its multiple of the multiplicand enters at the high half and the whole moves right by the digit's bits. -/
theorem Accumulates.next (h : Accumulates a used b i k) {j : Nat} {d : Int} {k' : Work n} (hn : 0 < n) (hij : i + j ≤ n)
    (hk : k'.vec.toInt = ((k.H.toInt + d * a) * 2 ^ n + k.L.toNat) / 2 ^ j) :
    Accumulates a (used + d * 2 ^ i) b (i + j) k' := by
  have hvec := vec_toInt hn k
  rw [h] at hvec
  have hN : (2 : Int) ^ n = 2 ^ i * 2 ^ (n - (i + j)) * 2 ^ j := by rw [← pow_add, ← pow_add]; congr 1; omega
  have hA : (2 : Int) ^ (n - i) = 2 ^ (n - (i + j)) * 2 ^ j := by rw [← pow_add]; congr 1; omega
  have hsum : (k.H.toInt + d * a) * 2 ^ n + k.L.toNat =
      (b / 2 ^ i : Nat) + a * (used + d * 2 ^ i) * 2 ^ (n - (i + j)) * 2 ^ j := by
    calc (k.H.toInt + d * a) * 2 ^ n + k.L.toNat = k.H.toInt * 2 ^ n + k.L.toNat + d * a * 2 ^ n := by ring
      _ = a * used * 2 ^ (n - i) + (b / 2 ^ i : Nat) + d * a * 2 ^ n := by rw [← hvec]
      _ = _ := by rw [hA, hN]; ring
  rw [Accumulates, hk, hsum, Int.add_mul_ediv_right _ _ (by positivity), pow_add, ← Nat.div_div_eq_div_mul]
  push_cast
  ring

/-- After all bits the register holds the product of the multiplicand and the number that the bits counted as. -/
theorem Accumulates.vec_eq {b : BitVec n} {k : Work n} (h : Accumulates a used b.toNat n k) :
    k.vec = BitVec.ofInt (n + n) (a * used) := by
  rw [← BitVec.ofInt_toInt (x := k.vec), h, Nat.sub_self, pow_zero, mul_one, Nat.div_eq_of_lt b.isLt]
  simp

/-- Adding a multiple of the multiplicand at the high half after the last digit. -/
theorem Accumulates.vec_correct {b : BitVec n} {k : Work n} (h : Accumulates a used b.toNat n k) (hn : 0 < n) (d : Int) :
    ({ H := BitVec.ofInt n (k.H.toInt + d * a), L := k.L } : Work n).vec =
      BitVec.ofInt (n + n) (a * (used + d * 2 ^ n)) := by
  have hsum : (k.H.toInt + d * a) * 2 ^ n + k.L.toNat = k.vec.toInt + a * (d * 2 ^ n) := by
    rw [vec_toInt hn]
    ring
  rw [vec_ofInt, hsum, BitVec.ofInt_add, BitVec.ofInt_toInt, h.vec_eq, ← BitVec.ofInt_add, ← mul_add]

end

/-! ### The state between two iterations of a loop -/

theorem runSteps_succ {σ : Type} (step : Nat → σ → σ × StepRecord) (j i : Nat) (k : σ) :
    (runSteps step (j + 1) i k).1 = (step (i + j) (runSteps step j i k).1).1 := by
  induction j generalizing i k with
  | zero => rfl
  | succ j ih =>
    rw [runSteps, ih, runSteps]
    congr 2
    omega

/-- The record of each iteration is the one its step makes in the state that the iterations before it left. -/
theorem runSteps_getElem? {σ : Type} (step : Nat → σ → σ × StepRecord) {j steps : Nat} (hj : j < steps) (i : Nat) (k : σ) :
    (runSteps step steps i k).2[j]? = some (step (i + j) (runSteps step j i k).1).2 := by
  induction j generalizing i k steps with
  | zero =>
    obtain ⟨steps, rfl⟩ := Nat.exists_eq_succ_of_ne_zero hj.ne'
    rfl
  | succ j ih =>
    obtain ⟨steps, rfl⟩ := Nat.exists_eq_succ_of_ne_zero (Nat.ne_zero_of_lt hj)
    rw [runSteps, List.getElem?_cons_succ, ih (by omega), runSteps]
    congr 3
    omega

/-- An invariant of a loop holds in the state after any number of its iterations that stays within its bound. -/
theorem runSteps_induction {σ : Type} {step : Nat → σ → σ × StepRecord} {P : Nat → σ → Prop} {bound : Nat} {i : Nat} {k : σ}
    (h0 : P 0 k) (h : ∀ j < bound, ∀ k, P j k → P (j + 1) (step (i + j) k).1) {j : Nat} (hj : j ≤ bound) :
    P j (runSteps step j i k).1 := by
  induction j with
  | zero => exact h0
  | succ j ih =>
    rw [runSteps_succ]
    exact h j hj _ (ih (by omega))

/-! ### MULC (R152) -/

section

variable {w : Nat} (a b : BitVec (8 * w))

theorem getLsbD_zero_toNat {n : Nat} (v : BitVec n) : (v.getLsbD 0).toNat = v.toNat % 2 := by
  rw [BitVec.getLsbD, Nat.testBit_zero]
  rcases Nat.mod_two_eq_zero_or_one v.toNat with h | h <;> simp [h]

/-- The fill of MULC is the sign of the exact sum. -/
theorem mulcStep_vec (hw : 0 < w) (i : Nat) (k : Work (8 * w))
    (hsign : k.L.getLsbD 0 = true → (k.H.toInt + a.toInt < 0 ↔ a.toInt < 0)) :
    (mulcStep a i k).1.vec.toInt =
      ((k.H.toInt + ((k.L.getLsbD 0).toNat : Int) * a.toInt) * 2 ^ (8 * w) + k.L.toNat) / 2 := by
  have hH := @BitVec.two_mul_toInt_lt _ k.H
  have hH' := @BitVec.le_two_mul_toInt _ k.H
  have ha := @BitVec.two_mul_toInt_lt _ a
  have ha' := @BitVec.le_two_mul_toInt _ a
  cases hb : k.L.getLsbD 0 with
  | true =>
    have hstep : (mulcStep a i k).1 = ({ H := BitVec.ofInt (8 * w) (k.H.toInt + a.toInt), L := k.L } : Work (8 * w)).shr1
        (decide (k.H.toInt + a.toInt < 0)) := by
      rw [mulcStep, BitVec.ofInt_add, BitVec.ofInt_toInt, BitVec.ofInt_toInt, decide_eq_decide.mpr (hsign hb),
        ← BitVec.msb_eq_toInt]
      simp [hb]
    rw [hstep, shr1_toInt (by omega) _ _ (by omega) (by omega)]
    simp
  | false =>
    have hstep : (mulcStep a i k).1 = ({ H := BitVec.ofInt (8 * w) k.H.toInt, L := k.L } : Work (8 * w)).shr1
        (decide (k.H.toInt < 0)) := by
      rw [mulcStep, BitVec.ofInt_toInt, ← BitVec.msb_eq_toInt]
      simp [hb]
    rw [hstep, shr1_toInt (by omega) _ _ (by omega) (by omega)]
    simp

/-- The high half of MULC's register has the multiplicand's sign, or is zero. -/
theorem Accumulates.high_sign {n : Nat} {a : Int} {u b i : Nat} {k : Work n} (h : Accumulates a u b i k) (hn : 0 < n)
    (hb : b < 2 ^ n) : (k.H.toInt + a < 0 ↔ a < 0) := by
  have hvec := vec_toInt hn k
  rw [h] at hvec
  have hL : (k.L.toNat : Int) < 2 ^ n := by exact_mod_cast k.L.isLt
  have hy : ((b / 2 ^ i : Nat) : Int) < 2 ^ n := by exact_mod_cast (Nat.div_le_self _ _).trans_lt hb
  have hp : (0 : Int) < 2 ^ n := by positivity
  constructor
  · intro hlt
    by_contra hnonneg
    have hterm : 0 ≤ a * u * 2 ^ (n - i) := mul_nonneg (mul_nonneg (by omega) (by positivity)) (by positivity)
    nlinarith
  · intro hneg
    have hterm : a * u * 2 ^ (n - i) ≤ 0 :=
      mul_nonpos_of_nonpos_of_nonneg (mul_nonpos_of_nonpos_of_nonneg hneg.le (by positivity)) (by positivity)
    have hH : k.H.toInt < 1 := by
      by_contra hge
      nlinarith
    omega

/-- What one iteration of MULC carries on: the low bits count as unsigned. -/
theorem mulcStep_accumulates (hw : 0 < w) (idx : Nat) {i : Nat} (hi : i < 8 * w) {k : Work (8 * w)}
    (h : Accumulates a.toInt (b.toNat % 2 ^ i : Nat) b.toNat i k) :
    Accumulates a.toInt (b.toNat % 2 ^ (i + 1) : Nat) b.toNat (i + 1) (mulcStep a idx k).1 := by
  have hbit : (k.L.getLsbD 0).toNat = b.toNat / 2 ^ i % 2 := by
    simpa [getLsbD_zero_toNat] using h.low_bits (j := 1) (by omega) (by omega)
  have hstep := mulcStep_vec a hw idx k fun _ => h.high_sign (by omega) b.isLt
  rw [hbit] at hstep
  have hnext := h.next (j := 1) (k' := (mulcStep a idx k).1) (by omega) (by omega) (by rw [hstep, pow_one])
  have hused : ((b.toNat % 2 ^ (i + 1) : Nat) : Int) =
      (b.toNat % 2 ^ i : Nat) + ((b.toNat / 2 ^ i % 2 : Nat) : Int) * 2 ^ i := by
    rw [Nat.mod_pow_succ]
    push_cast
    ring
  rwa [hused]

/-- The state of MULC after `i` iterations. -/
theorem mulc_loop (hw : 0 < w) {i : Nat} (hi : i ≤ 8 * w) :
    Accumulates a.toInt (b.toNat % 2 ^ i : Nat) b.toNat i (runSteps (mulcStep a) i 1 { H := 0, L := b }).1 :=
  runSteps_induction (P := fun i k => Accumulates a.toInt (b.toNat % 2 ^ i : Nat) b.toNat i k)
    (by simpa [Nat.mod_one] using accumulates_zero (a := a.toInt) (b := b) (by omega))
    (fun _ hj _ h => mulcStep_accumulates a b hw _ hj h) hi

/-- MULC computes the signed product: its loop takes the multiplier as unsigned, its correction takes the sign bit into
account (R152). -/
theorem mulcRun_vec (hw : 0 < w) : (mulcRun a b).1.vec = BitVec.ofInt (8 * w + 8 * w) (a.toInt * b.toInt) := by
  have hloop := mulc_loop a b hw le_rfl
  rw [Nat.mod_eq_of_lt b.isLt] at hloop
  rw [mulcRun, mulcCorrect]
  cases hb : b.msb with
  | false =>
    rw [if_neg Bool.false_ne_true, hloop.vec_eq, BitVec.toInt_eq_toNat_of_msb hb]
  | true =>
    have hcorr := hloop.vec_correct (by omega) (-1)
    rw [BitVec.ofInt_add, BitVec.ofInt_toInt, neg_one_mul, BitVec.ofInt_neg, BitVec.ofInt_toInt] at hcorr
    have hb' : b.toInt = (b.toNat : Int) + -1 * 2 ^ (8 * w) := by
      rw [BitVec.toInt_eq_msb_cond, if_pos hb]
      push_cast
      ring
    rw [if_pos rfl, hcorr, hb']

end

/-! ### MULB (R153) -/

section

variable {w : Nat} (a b : BitVec (8 * w))

/-- The low `i` bits read as two's complement: their top bit counts negative. -/
theorem bmod_two_pow (b i : Nat) :
    (b : Int).bmod (2 ^ i) = (b % 2 ^ i : Nat) - if 2 ^ i ≤ 2 * (b % 2 ^ i) then 2 ^ i else 0 := by
  have hlt := Nat.mod_lt b (Nat.two_pow_pos i)
  rw [Int.bmod]
  push_cast
  generalize hr : b % 2 ^ i = r at *
  have hr' : (b : Int) % 2 ^ i = r := by exact_mod_cast congrArg Nat.cast hr
  have hp : ((2 ^ i : Nat) : Int) = 2 ^ i := by push_cast; rfl
  rw [hr', ← hp]
  generalize 2 ^ i = p at *
  split <;> split <;> omega

/-- One bit more, read as two's complement. -/
theorem bmod_two_pow_succ (b i : Nat) : (b : Int).bmod (2 ^ (i + 1)) =
    (b % 2 ^ i : Nat) - ((b / 2 ^ i % 2 : Nat) : Int) * 2 ^ i := by
  have hlt := Nat.mod_lt b (Nat.two_pow_pos i)
  have hp : ((2 ^ i : Nat) : Int) = 2 ^ i := by push_cast; rfl
  rw [bmod_two_pow, Nat.mod_pow_succ, pow_succ, pow_succ, ← hp]
  generalize b % 2 ^ i = r at *
  generalize 2 ^ i = p at *
  rcases Nat.mod_two_eq_zero_or_one (b / p) with h | h <;> rw [h] <;> split <;> push_cast <;> omega

/-- The fill of MULB is the sign of the exact sum, in which the multiplicand counts with the digit `prev - cur`. -/
theorem mulbStep_vec (hw : 0 < w) (i : Nat) (k : BoothState (8 * w)) :
    (mulbStep a i k).1.work.vec.toInt = ((k.work.H.toInt +
      ((k.prev.toNat : Int) - ((k.work.L.getLsbD 0).toNat : Int)) * a.toInt) * 2 ^ (8 * w) + k.work.L.toNat) / 2 := by
  have hH := @BitVec.two_mul_toInt_lt _ k.work.H
  have hH' := @BitVec.le_two_mul_toInt _ k.work.H
  have ha := @BitVec.two_mul_toInt_lt _ a
  have ha' := @BitVec.le_two_mul_toInt _ a
  have hstep (t : Int) (ht : t = if !k.prev && k.work.L.getLsbD 0 then k.work.H.toInt - a.toInt
      else if k.prev && !k.work.L.getLsbD 0 then k.work.H.toInt + a.toInt else k.work.H.toInt) :
      (mulbStep a i k).1.work = ({ H := BitVec.ofInt (8 * w) t, L := k.work.L } : Work (8 * w)).shr1 (decide (t < 0)) := by
    rw [ht]
    rfl
  rw [hstep _ rfl]
  cases k.prev <;> cases k.work.L.getLsbD 0 <;>
    rw [shr1_toInt (by omega) _ _ (by simp; omega) (by simp; omega)] <;> simp [sub_eq_add_neg]

/-- What MULB carries from iteration to iteration: the low bits count as two's complement, and the previous bit is their top
bit. -/
def BoothHolds (i : Nat) (k : BoothState (8 * w)) : Prop :=
  Accumulates a.toInt ((b.toNat : Int).bmod (2 ^ i)) b.toNat i k.work ∧ k.prev = decide (2 ^ i ≤ 2 * (b.toNat % 2 ^ i))

theorem mulbStep_boothHolds (hw : 0 < w) (idx : Nat) {i : Nat} (hi : i < 8 * w) {k : BoothState (8 * w)}
    (h : BoothHolds a b i k) : BoothHolds a b (i + 1) (mulbStep a idx k).1 := by
  obtain ⟨hacc, hprev⟩ := h
  have hbit : (k.work.L.getLsbD 0).toNat = b.toNat / 2 ^ i % 2 := by
    simpa [getLsbD_zero_toNat] using hacc.low_bits (j := 1) (by omega) (by omega)
  have hnext := hacc.next (j := 1) (k' := (mulbStep a idx k).1.work) (by omega) (by omega)
    (by rw [mulbStep_vec a hw, pow_one])
  have hprev' : ((k.prev.toNat : Int)) * 2 ^ i = if 2 ^ i ≤ 2 * (b.toNat % 2 ^ i) then 2 ^ i else 0 := by
    rw [hprev]
    split <;> simp [*]
  have hused : (b.toNat : Int).bmod (2 ^ (i + 1)) = (b.toNat : Int).bmod (2 ^ i) +
      ((k.prev.toNat : Int) - ((k.work.L.getLsbD 0).toNat : Int)) * 2 ^ i := by
    rw [bmod_two_pow_succ, bmod_two_pow, hbit, sub_mul, hprev']
    ring
  have hlt := Nat.mod_lt b.toNat (Nat.two_pow_pos i)
  refine ⟨by rwa [hused], ?_⟩
  change k.work.L.getLsbD 0 = _
  rw [Nat.mod_pow_succ, ← hbit, pow_succ]
  cases k.work.L.getLsbD 0 <;> simp <;> omega

/-- The state of MULB after `i` iterations. -/
theorem mulb_loop (hw : 0 < w) {i : Nat} (hi : i ≤ 8 * w) :
    BoothHolds a b i (runSteps (mulbStep a) i 1 { work := { H := 0, L := b }, prev := false }).1 := by
  refine runSteps_induction (P := BoothHolds a b) ⟨?_, ?_⟩ (fun _ hj _ h => mulbStep_boothHolds a b hw _ hj h) hi
  · simpa [Nat.mod_one] using accumulates_zero (a := a.toInt) (b := b) (by omega)
  · simp [Nat.mod_one]

/-- MULB computes the signed product, with no correction (R153). -/
theorem mulbRun_vec (hw : 0 < w) : (mulbRun a b).1.vec = BitVec.ofInt (8 * w + 8 * w) (a.toInt * b.toInt) := by
  obtain ⟨hacc, -⟩ := mulb_loop a b hw le_rfl
  rw [← BitVec.toInt_eq_toNat_bmod] at hacc
  exact hacc.vec_eq

end

/-! ### MULF (R154) -/

section

variable {w : Nat} (a b : BitVec (8 * w))

/-- The digit of a code, and the correction bit it hands on, together count the two bits and the correction bit read. -/
theorem fastDigit_eq {low : Nat} (hlow : low < 4) (c : Bool) :
    fastDigit ((low + c.toNat) % 4) = low + c.toNat - 4 * ((fastCorr ((low + c.toNat) % 4) c).toNat : Int) ∧
    (fastCorr ((low + c.toNat) % 4) c = true → 2 ≤ low) := by
  interval_cases low <;> cases c <;> decide

theorem fastDigit_bounds (code : Nat) : -1 ≤ fastDigit code ∧ fastDigit code ≤ 2 := by
  unfold fastDigit
  split <;> decide

theorem four_pow (j : Nat) : 4 ^ j = 2 ^ (2 * j) := by
  rw [pow_mul]
  rfl

/-- One iteration of MULF adds the digit's multiple exactly and shifts two bits with the sign. -/
theorem mulfStep_vec (hw : 0 < w) (i : Nat) (k : FastState (8 * w)) :
    (mulfStep a i k).1.work.vec.toInt = ((k.work.H.toInt +
      fastDigit ((k.work.L.toNat % 4 + k.corr.toNat) % 4) * a.toInt) * 2 ^ (8 * w) + k.work.L.toNat) / 2 ^ 2 := by
  have hH := @BitVec.two_mul_toInt_lt _ k.work.H
  have hH' := @BitVec.le_two_mul_toInt _ k.work.H
  have ha := @BitVec.two_mul_toInt_lt _ a
  have ha' := @BitVec.le_two_mul_toInt _ a
  have hlow : (k.work.L.extractLsb' 0 2).toNat = k.work.L.toNat % 4 := by simp
  have hvec : (mulfStep a i k).1.work.vec = BitVec.ofInt (8 * w + 8 * w) (((k.work.H.toInt +
      fastDigit ((k.work.L.toNat % 4 + k.corr.toNat) % 4) * a.toInt) * 2 ^ (8 * w) + k.work.L.toNat) / 4) := by
    rw [← hlow]
    exact (BitVec.extractLsb'_append_extractLsb'_eq_extractLsb' (by omega)).trans BitVec.extractLsb'_eq_self
  obtain ⟨hd, hd'⟩ := fastDigit_bounds ((k.work.L.toNat % 4 + k.corr.toNat) % 4)
  generalize fastDigit ((k.work.L.toNat % 4 + k.corr.toNat) % 4) = d at *
  have hL : (k.work.L.toNat : Int) < 2 ^ (8 * w) := by exact_mod_cast k.work.L.isLt
  have hcases : d = -1 ∨ d = 0 ∨ d = 1 ∨ d = 2 := by omega
  have hsum : -2 * 2 ^ (8 * w) ≤ k.work.H.toInt + d * a.toInt ∧ k.work.H.toInt + d * a.toInt < 2 * 2 ^ (8 * w) := by
    rcases hcases with rfl | rfl | rfl | rfl <;> omega
  obtain ⟨m, hm⟩ : ∃ m : Nat, 2 ^ (8 * w + 8 * w) = 4 * m :=
    ⟨2 ^ (8 * w + 8 * w - 2), by rw [show (4 : Nat) = 2 ^ 2 by rfl, ← pow_add]; congr 1; omega⟩
  have hpow : (2 : Int) ^ (8 * w) * 2 ^ (8 * w) = 4 * m := by rw [← pow_add]; exact_mod_cast hm
  have hlo : -(8 * m : Int) ≤ (k.work.H.toInt + d * a.toInt) * 2 ^ (8 * w) + k.work.L.toNat := by nlinarith
  have hhi : (k.work.H.toInt + d * a.toInt) * 2 ^ (8 * w) + k.work.L.toNat < (8 * m : Int) := by nlinarith
  rw [hvec, BitVec.toInt_ofInt, hm]
  exact Int.bmod_eq_of_le (by omega) (by omega)

/-- What MULF carries from iteration to iteration: the low `2j` bits count as unsigned less the correction bit, which is only
handed on from a pair of bits whose upper one is 1. -/
def FastHolds (j : Nat) (k : FastState (8 * w)) : Prop :=
  Accumulates a.toInt ((b.toNat % 4 ^ j : Nat) - (k.corr.toNat : Int) * 4 ^ j) b.toNat (2 * j) k.work ∧
  (k.corr = true → 4 ^ j ≤ 2 * (b.toNat % 4 ^ j))

theorem mulfStep_fastHolds (hw : 0 < w) (idx : Nat) {j : Nat} (hj : 2 * (j + 1) ≤ 8 * w) {k : FastState (8 * w)}
    (h : FastHolds a b j k) : FastHolds a b (j + 1) (mulfStep a idx k).1 := by
  obtain ⟨hacc, -⟩ := h
  have hlow : k.work.L.toNat % 4 = b.toNat / 4 ^ j % 4 := by
    rw [four_pow]
    exact hacc.low_bits (j := 2) (by omega) (by omega)
  have hcorr : (mulfStep a idx k).1.corr = fastCorr ((k.work.L.toNat % 4 + k.corr.toNat) % 4) k.corr := by
    simp [mulfStep]
  obtain ⟨hdigit, hhigh⟩ := fastDigit_eq (Nat.mod_lt k.work.L.toNat (by decide : 0 < 4)) k.corr
  have hnext := hacc.next (j := 2) (k' := (mulfStep a idx k).1.work) (by omega) (by omega) (mulfStep_vec a hw idx k)
  rw [← hcorr] at hdigit hhigh
  have hused : ((b.toNat % 4 ^ (j + 1) : Nat) : Int) - ((mulfStep a idx k).1.corr.toNat : Int) * 4 ^ (j + 1) =
      (b.toNat % 4 ^ j : Nat) - (k.corr.toNat : Int) * 4 ^ j +
        fastDigit ((k.work.L.toNat % 4 + k.corr.toNat) % 4) * 2 ^ (2 * j) := by
    rw [hdigit, Nat.mod_pow_succ, ← hlow, pow_mul]
    push_cast
    ring
  refine ⟨by rwa [hused], fun hc => ?_⟩
  have htwo := Nat.mul_le_mul_left (4 ^ j) (hhigh hc)
  rw [Nat.mod_pow_succ, ← hlow, pow_succ]
  omega

/-- The state of MULF after `j` iterations. -/
theorem mulf_loop (hw : 0 < w) {j : Nat} (hj : j ≤ 8 * w / 2) :
    FastHolds a b j (runSteps (mulfStep a) j 1 { work := { H := 0, L := b }, corr := false }).1 := by
  refine runSteps_induction (P := FastHolds a b) (bound := 8 * w / 2) ⟨?_, by simp⟩
    (fun _ hj _ h => mulfStep_fastHolds a b hw _ (by omega) h) hj
  simpa [Nat.mod_one] using accumulates_zero (a := a.toInt) (b := b) (by omega)

/-- After the loop a correction bit is handed on only by a negative multiplier. -/
theorem FastHolds.msb_of_corr {k : FastState (8 * w)} (h : FastHolds a b (8 * w / 2) k) (hc : k.corr = true) :
    b.msb = true := by
  obtain ⟨-, hhigh⟩ := h
  rw [four_pow, show 2 * (8 * w / 2) = 8 * w by omega, Nat.mod_eq_of_lt b.isLt] at hhigh
  rw [BitVec.msb_eq_true_iff_two_mul_ge]
  exact hhigh hc

/-- The correction of MULF: a subtraction exactly for a negative multiplier whose loop handed no correction bit on. -/
theorem mulfCorrect_eq {k : FastState (8 * w)} (h : k.corr = true → b.msb = true) :
    (mulfCorrect a b k).1.vec = (⟨BitVec.ofInt (8 * w) (k.work.H.toInt + ((k.corr.toNat : Int) - b.msb.toNat) * a.toInt),
        k.work.L⟩ : Work (8 * w)).vec ∧
      ∀ r ∈ (mulfCorrect a b k).2, r.action = .sub ∧ b.msb = true := by
  cases hb : b.msb <;> cases hc : k.corr
  · simp [mulfCorrect, hb, hc]
  · simp [h hc] at hb
  · simp [mulfCorrect, hb, hc, BitVec.ofInt_add, BitVec.ofInt_neg, BitVec.sub_eq_add_neg]
  · simp [mulfCorrect, hb, hc]

/-- MULF computes the signed product: its correction is the digit that the sign extension of the multiplier would give
(R154). -/
theorem mulfRun_vec (hw : 0 < w) : (mulfRun a b).1.vec = BitVec.ofInt (8 * w + 8 * w) (a.toInt * b.toInt) := by
  have hloop := mulf_loop a b hw le_rfl
  obtain ⟨hcorrect, -⟩ := mulfCorrect_eq a b (hloop.msb_of_corr a b)
  obtain ⟨hacc, -⟩ := hloop
  have hfour : (4 : Int) ^ (8 * w / 2) = 2 ^ (8 * w) := by
    rw [show (4 : Int) = 2 ^ 2 by rfl, ← pow_mul]
    congr 1
    omega
  rw [four_pow, hfour, show 2 * (8 * w / 2) = 8 * w by omega, Nat.mod_eq_of_lt b.isLt] at hacc
  have hb : b.toInt = (b.toNat : Int) - (b.msb.toNat : Int) * 2 ^ (8 * w) := by
    rw [BitVec.toInt_eq_msb_cond]
    cases b.msb <;> simp
  rw [mulfRun, hcorrect, hacc.vec_correct (by omega), hb]
  congr 2
  ring

end

end Sys2Proof.Machine
end


section
/-! What the multiplication commands write and record, as values of registers (42_multiply.md R155, 10_state.md R24). -/

namespace Sys2Proof.Machine

open Sys2Proof

theorem zero_lt_bytes (wd : Width) : 0 < wd.bytes := by
  have := Width.bytes_pos wd
  omega

/-! ### Snapshots and bytes of integers -/

theorem snap2_ofInt {w : Nat} (v : Int) : snap2 (BitVec.ofInt (8 * w + 8 * w) v) = intBytes (2 * w) v := by
  simp [snap2, intBytes, BitVec.toNat_ofInt, show 8 * (2 * w) = 8 * w + 8 * w by ring]

@[simp] theorem signed_snap1 {w : Nat} (v : BitVec (8 * w)) : signed (snap1 v) = v.toInt := by
  rw [← toVec_toInt (n := 8 * w) (by simp), toVec, unsigned_snap1, BitVec.ofNat_toNat, BitVec.setWidth_eq]

@[simp] theorem signed_snap2 {w : Nat} (v : BitVec (8 * w + 8 * w)) : signed (snap2 v) = v.toInt := by
  rw [← toVec_toInt (n := 8 * w + 8 * w) (by simp; omega), toVec, unsigned_snap2, BitVec.ofNat_toNat, BitVec.setWidth_eq]

/-- An integer in the range of `w` bytes is the signed value of its bytes. -/
theorem signed_intBytes {w : Nat} (hw : 0 < w) {v : Int} (hlo : -2 ^ (8 * w - 1) ≤ v) (hhi : v < 2 ^ (8 * w - 1)) :
    signed (intBytes w v) = v := by
  have hp : 2 ^ (8 * w) = 2 * 2 ^ (8 * w - 1) := by
    rw [← pow_succ']
    congr 1
    omega
  have hc : ((2 ^ (8 * w - 1) : Nat) : Int) = 2 ^ (8 * w - 1) := by push_cast; rfl
  rw [← snap1_ofInt, signed_snap1, BitVec.toInt_ofInt, hp]
  exact Int.bmod_eq_of_le (by omega) (by omega)

/-- The product of two numbers of `n` bits has a value of `2n` bits. -/
theorem product_range {n : Nat} (hn : 0 < n) (a b : BitVec n) :
    -2 ^ (2 * n - 1) ≤ a.toInt * b.toInt ∧ a.toInt * b.toInt < 2 ^ (2 * n - 1) := by
  have ha := @BitVec.toInt_lt _ a
  have ha' := @BitVec.le_toInt _ a
  have hb := @BitVec.toInt_lt _ b
  have hb' := @BitVec.le_toInt _ b
  have hp : (2 : Int) ^ (2 * n - 1) = 2 * (2 ^ (n - 1) * 2 ^ (n - 1)) := by
    rw [← pow_add, ← pow_succ']
    congr 1
    omega
  have hpos : (0 : Int) < 2 ^ (n - 1) := by positivity
  have habs : |a.toInt * b.toInt| ≤ 2 ^ (n - 1) * 2 ^ (n - 1) := by
    rw [abs_mul]
    exact mul_le_mul (abs_le.mpr ⟨ha', ha.le⟩) (abs_le.mpr ⟨hb', hb.le⟩) (abs_nonneg _) hpos.le
  obtain ⟨hlo, hhi⟩ := abs_le.mp habs
  rw [hp]
  constructor <;> nlinarith

theorem operand_toNat {s : State} (hs : s.RegsSized) (r : SReg) : (s.operand r).toNat = s.value (.single r) :=
  Nat.mod_eq_of_lt (value_lt hs (.single r))

/-! ### The write-back -/

/-- A run that computes the product writes it to the destination. -/
theorem finishMul_product {s : State} (hs : s.RegsSized) (rd : DReg) (rs rt : SReg)
    {r : Work (8 * s.params.width.bytes) × List StepRecord}
    (h : r.1.vec = BitVec.ofInt _ ((s.operand rs).toInt * (s.operand rt).toInt)) :
    finishMul s rd r = (s.setDouble rd (intBytes (2 * s.params.width.bytes)
      (signed (s.single rs) * signed (s.single rt)))).record r.2 := by
  rw [finishMul, h, snap2_ofInt, operand_toInt hs, operand_toInt hs]

/-- The bytes of the product of two single-width registers hold that product. -/
theorem signed_product {s : State} (hs : s.RegsSized) (rs rt : SReg) :
    signed (intBytes (2 * s.params.width.bytes) (signed (s.single rs) * signed (s.single rt))) =
      signed (s.single rs) * signed (s.single rt) := by
  have hw := zero_lt_bytes s.params.width
  obtain ⟨hlo, hhi⟩ := product_range (by omega) (s.operand rs) (s.operand rt)
  rw [operand_toInt hs, operand_toInt hs] at hlo hhi
  have e : 8 * (2 * s.params.width.bytes) - 1 = 2 * (8 * s.params.width.bytes) - 1 := by omega
  exact signed_intBytes (by omega) (by rw [e]; exact hlo) (by rw [e]; exact hhi)

/-! ### The records -/

section

variable {w : Nat} (a b : BitVec (8 * w))

/-- The record of an iteration shows the working register after it. -/
theorem mulcRun_record {i : Nat} (h1 : 1 ≤ i) (hi : i ≤ 8 * w) : ∃ r, (mulcRun a b).2[i - 1]? = some r ∧
    r.after = snap2 (runSteps (mulcStep a) i 1 { H := 0, L := b }).1.vec := by
  obtain ⟨j, rfl⟩ := Nat.exists_eq_add_of_le' h1
  have hget := runSteps_getElem? (mulcStep a) (Nat.lt_of_succ_le hi) 1 { H := 0, L := b }
  refine ⟨_, (List.getElem?_append_left (List.getElem?_eq_some_iff.mp hget).1).trans hget, ?_⟩
  rw [runSteps_succ]
  rfl

theorem mulbRun_record {i : Nat} (h1 : 1 ≤ i) (hi : i ≤ 8 * w) : ∃ r, (mulbRun a b).2[i - 1]? = some r ∧
    r.after = snap2 (runSteps (mulbStep a) i 1 { work := { H := 0, L := b }, prev := false }).1.work.vec := by
  obtain ⟨j, rfl⟩ := Nat.exists_eq_add_of_le' h1
  refine ⟨_, runSteps_getElem? (mulbStep a) (Nat.lt_of_succ_le hi) 1 _, ?_⟩
  rw [runSteps_succ]
  rfl

theorem mulfRun_record {j : Nat} (h1 : 1 ≤ j) (hj : j ≤ 8 * w / 2) : ∃ r, (mulfRun a b).2[j - 1]? = some r ∧
    r.after = snap2 (runSteps (mulfStep a) j 1 { work := { H := 0, L := b }, corr := false }).1.work.vec ∧
    r.corrOut = some (runSteps (mulfStep a) j 1 { work := { H := 0, L := b }, corr := false }).1.corr := by
  obtain ⟨i, rfl⟩ := Nat.exists_eq_add_of_le' h1
  have hget := runSteps_getElem? (mulfStep a) (Nat.lt_of_succ_le hj) 1 { work := { H := 0, L := b }, corr := false }
  refine ⟨_, (List.getElem?_append_left (List.getElem?_eq_some_iff.mp hget).1).trans hget, ?_, ?_⟩ <;>
    rw [runSteps_succ] <;> rfl

/-- Each algorithm names itself in its records (10_state.md R24). -/
theorem mulcRun_alg : ∀ r ∈ (mulcRun a b).2, r.alg = .mulc := by
  have hloop := runSteps_forall (step := mulcStep a) (P := fun r => r.alg = .mulc) (fun _ _ => rfl) (8 * w) 1
    { H := 0, L := b }
  cases hb : b.msb <;> simpa [mulcRun, mulcCorrect, hb, or_imp, forall_and] using hloop

theorem mulbRun_alg : ∀ r ∈ (mulbRun a b).2, r.alg = .mulb :=
  runSteps_forall (step := mulbStep a) (P := fun r => r.alg = .mulb) (fun _ _ => rfl) _ _ _

/-- The record of MULF's correction says that it subtracts, and there is one for a negative multiplier only (R154). -/
theorem mulfRun_correction (hw : 0 < w) :
    ∀ r ∈ (mulfRun a b).2, r.kind = .correction → r.action = .sub ∧ b.msb = true := by
  intro r hr hk
  rw [mulfRun, List.mem_append] at hr
  rcases hr with hr | hr
  · have hiter := runSteps_forall (step := mulfStep a) (P := fun r => r.kind = .iter) (fun _ _ => rfl) _ _ _ r hr
    rw [hiter] at hk
    cases hk
  · exact (mulfCorrect_eq a b ((mulf_loop a b hw le_rfl).msb_of_corr a b)).2 r hr

theorem mulfRun_alg : ∀ r ∈ (mulfRun a b).2, r.alg = .mulf := by
  have hloop := runSteps_forall (step := mulfStep a) (P := fun r => r.alg = .mulf) (fun _ _ => rfl) (8 * w / 2) 1
    { work := { H := 0, L := b }, corr := false }
  simp only [mulfRun, mulfCorrect]
  split
  · simpa [or_imp, forall_and] using hloop
  · split
    · simpa [or_imp, forall_and] using hloop
    · simpa using hloop

end

theorem getElem?_after {α : Type} (log recs : List α) (j : Nat) : (log ++ recs)[log.length + j]? = recs[j]? := by
  rw [List.getElem?_append_right (Nat.le_add_right _ _), Nat.add_sub_cancel_left]

/-- Records of different algorithms make different logs. -/
theorem trace_ne_of_alg {log rs qs : List StepRecord} {x y : Alg} (hxy : x ≠ y) (hrs : rs ≠ [])
    (hx : ∀ r ∈ rs, r.alg = x) (hy : ∀ r ∈ qs, r.alg = y) : log ++ rs ≠ log ++ qs := by
  intro h
  obtain rfl := List.append_cancel_left h
  obtain ⟨r, hr⟩ := List.exists_mem_of_ne_nil _ hrs
  exact hxy ((hx r hr).symm.trans (hy r hr))

end Sys2Proof.Machine
end

section

open Sys2Proof Sys2Proof.Machine

/-- Settles O41: the loop of MULC with its correction computes the product. -/
theorem mulcWritesTheProduct : Obligations.MulcWritesTheProduct := fun s rd rs rt hs hf =>
  ⟨encR3_eq_placed_fn 19#5 (.double rd) (.single rs) (.single rt) 0#2, _, by
    rw [exec_mulc_ok hf, finishMul_product hs rd rs rt (mulcRun_vec _ _ (zero_lt_bytes _))]⟩

/-- Settles O42: the loop of MULB computes the product. -/
theorem mulbWritesTheProduct : Obligations.MulbWritesTheProduct := fun s rd rs rt hs hf =>
  ⟨encR3_eq_placed_fn 19#5 (.double rd) (.single rs) (.single rt) 1#2, _, by
    rw [exec_mulb_ok hf, finishMul_product hs rd rs rt (mulbRun_vec _ _ (zero_lt_bytes _))]⟩

/-- Settles O43: the loop of MULF with its correction computes the product. -/
theorem mulfWritesTheProduct : Obligations.MulfWritesTheProduct := fun s rd rs rt hs hf =>
  ⟨encR3_eq_placed_fn 19#5 (.double rd) (.single rs) (.single rt) 2#2, _, by
    rw [exec_mulf_ok hf, finishMul_product hs rd rs rt (mulfRun_vec _ _ (zero_lt_bytes _))]⟩

/-- Settles O44: all three write the bytes of the product; each names itself in its records. -/
theorem threeMultiplicationsAgree : Obligations.ThreeMultiplicationsAgree := by
  intro s rd rs rt hs hf
  have hw := zero_lt_bytes s.params.width
  have hc := mulcRun_vec (s.operand rs) (s.operand rt) hw
  have hb := mulbRun_vec (s.operand rs) (s.operand rt) hw
  have hm := mulfRun_vec (s.operand rs) (s.operand rt) hw
  obtain ⟨rc, hrc, -⟩ := mulcRun_record (s.operand rs) (s.operand rt) le_rfl (by omega)
  obtain ⟨rb, hrb, -⟩ := mulbRun_record (s.operand rs) (s.operand rt) le_rfl (by omega)
  refine ⟨_, _, _, exec_mulc_ok hf rd rs rt, exec_mulb_ok hf rd rs rt, exec_mulf_ok hf rd rs rt, ?_⟩
  simp only [finishMul_product hs rd rs rt hc, finishMul_product hs rd rs rt hb, finishMul_product hs rd rs rt hm,
    record_double, setDouble_double, if_true, signed_product hs rs rt, record_f, setDouble_f, record_c, setDouble_c,
    record_trace, setDouble_trace, hf, true_and]
  have hcne : (mulcRun (s.operand rs) (s.operand rt)).2 ≠ [] := fun h => by simp [h] at hrc
  have hbne : (mulbRun (s.operand rs) (s.operand rt)).2 ≠ [] := fun h => by simp [h] at hrb
  exact ⟨trace_ne_of_alg (by decide) hcne (mulcRun_alg _ _) (mulbRun_alg _ _),
    trace_ne_of_alg (by decide) hbne (mulbRun_alg _ _) (mulfRun_alg _ _),
    trace_ne_of_alg (by decide) hcne (mulcRun_alg _ _) (mulfRun_alg _ _)⟩

/-- Settles O46: the record of an iteration shows the working register after it, of which the loop's invariant speaks. -/
theorem multiplicationTraceShowsPartialProducts : Obligations.MultiplicationTraceShowsPartialProducts := by
  intro s rd rs rt i hs hf h1
  have hw := zero_lt_bytes s.params.width
  have hb : (s.operand rt).toNat = s.value (.single rt) := operand_toNat hs rt
  refine ⟨_, _, _, exec_mulc_ok hf rd rs rt, exec_mulb_ok hf rd rs rt, exec_mulf_ok hf rd rs rt, fun hi => ?_, fun hi => ?_,
    fun hi => ?_⟩ <;> rw [finishMul_trace, getElem?_after]
  · obtain ⟨r, hr, hafter⟩ := mulcRun_record (s.operand rs) (s.operand rt) h1 hi
    refine ⟨r, hr, ?_⟩
    rw [hafter, signed_snap2, mulc_loop (s.operand rs) (s.operand rt) hw hi, operand_toInt hs, hb]
    rfl
  · obtain ⟨r, hr, hafter⟩ := mulbRun_record (s.operand rs) (s.operand rt) h1 hi
    refine ⟨r, hr, ?_⟩
    rw [hafter, signed_snap2, (mulb_loop (s.operand rs) (s.operand rt) hw hi).1, operand_toInt hs, hb]
    rfl
  · have hi' : i ≤ 8 * s.params.width.bytes / 2 := by
      change 2 * i ≤ 8 * s.params.width.bytes at hi
      omega
    obtain ⟨r, hr, hafter, hcorr⟩ := mulfRun_record (s.operand rs) (s.operand rt) h1 hi'
    refine ⟨r, hr, ?_⟩
    have hused (c : Bool) : (c.toNat : Int) * 4 ^ i = if some c = some true then 4 ^ i else 0 := by cases c <;> simp
    rw [hafter, signed_snap2, (mulf_loop (s.operand rs) (s.operand rt) hw hi').1, operand_toInt hs, hb, hcorr, hused, four_pow]
    rfl

/-- Settles O47: the records of MULF's correction step. -/
theorem mulfNeverAddsAfterTheLoop : Obligations.MulfNeverAddsAfterTheLoop := by
  intro s t rd rs rt hs hf hexec r hr hk
  obtain rfl := Host.Outcome.next.inj ((exec_mulf_ok hf rd rs rt).symm.trans hexec)
  rw [finishMul_trace, List.drop_left] at hr
  have hw := zero_lt_bytes s.params.width
  obtain ⟨hsub, hmsb⟩ := mulfRun_correction _ _ hw r hr hk
  rw [operand_msb hs] at hmsb
  exact ⟨hsub, of_decide_eq_true hmsb⟩

end


section
/-! The division loop (43_divide.md R181 to R185): each step doubles an exact number and takes the divider from it or adds it, so
that the cursor always shows what of the dividend the quotient bits leave. -/

namespace Sys2Proof.Machine

open Sys2Proof

/-! ### The cursor as one number over the quotient bits -/

/-- After `j` shifts the cursor holds the exact number `X` above `j` quotient bits, whose unsigned value is `Q`. -/
def CursorHolds {n : Nat} (j : Nat) (X Q : Int) (k : Cursor n) : Prop :=
  ∃ R : Int, 0 ≤ R ∧ 0 ≤ Q ∧ Q < 2 ^ j ∧ (k.L.toNat : Int) = R * 2 ^ j + Q ∧ X = k.h * 2 ^ n + R * 2 ^ j

section

variable {n j : Nat} {X Q : Int} {k : Cursor n}

theorem signOf_eq_iff {x y : Int} : signOf x = signOf y ↔ (x < 0 ↔ y < 0) := by
  simp [signOf]

/-- The high part of the cursor has the sign of the whole. -/
theorem CursorHolds.signOf_h (h : CursorHolds j X Q k) : signOf k.h = signOf X := by
  obtain ⟨R, hR, hQ, -, hL, rfl⟩ := h
  have hlt : (k.L.toNat : Int) < 2 ^ n := by exact_mod_cast k.L.isLt
  have hRj : 0 ≤ R * 2 ^ j := by positivity
  have hp : (0 : Int) < 2 ^ n := by positivity
  rw [signOf_eq_iff]
  constructor <;> intro hneg <;> nlinarith

theorem shift_putBit_toNat (hn : 0 < n) (L : BitVec n) (q : Bool) :
    ((L <<< 1 ||| (BitVec.ofBool q).setWidth n).toNat : Int) = 2 * L.toNat - (L.msb.toNat : Int) * 2 ^ n + q.toNat := by
  have hL := L.isLt
  obtain ⟨m, hm⟩ : ∃ m : Nat, 2 ^ n = 2 * m := ⟨2 ^ (n - 1), by rw [← pow_succ']; congr 1; omega⟩
  have hmsb : L.msb = decide (m ≤ L.toNat) := by
    rw [BitVec.msb_eq_decide, show 2 ^ (n - 1) = m by rw [← Nat.pow_div (by omega) (by decide), hm]; simp]
  have hshift : L.toNat <<< 1 % 2 ^ n = (L.toNat % m) <<< 1 := by
    rw [Nat.shiftLeft_eq, Nat.shiftLeft_eq, hm, pow_one, mul_comm, Nat.mul_mod_mul_left, mul_comm]
  have hq : (BitVec.ofBool q).toNat % 2 ^ n = q.toNat := by
    rw [BitVec.toNat_ofBool, Nat.mod_eq_of_lt]
    have : q.toNat ≤ 1 := by cases q <;> simp
    omega
  have hq' : q.toNat < 2 ^ 1 := by cases q <;> simp
  have hp : (2 : Int) ^ n = 2 * m := by exact_mod_cast hm
  rw [BitVec.toNat_or, BitVec.toNat_shiftLeft, BitVec.toNat_setWidth, hq, hshift, ← Nat.shiftLeft_add_eq_or_of_lt hq',
    Nat.shiftLeft_eq, hp, hmsb]
  rw [hm] at hL
  by_cases hc : m ≤ L.toNat
  · rw [Nat.mod_eq_sub_mod hc, Nat.mod_eq_of_lt (by omega), decide_eq_true hc]
    simp
    omega
  · rw [Nat.mod_eq_of_lt (by omega), decide_eq_false hc]
    simp
    omega

/-- One step of the division: the number is doubled and the divider taken from it or added at the high half; one quotient bit
enters below (R182, R184). -/
theorem CursorHolds.step (h : CursorHolds j X Q k) (hj : j < n) (sub : Bool) (d : Int) (q : Bool) :
    CursorHolds (j + 1) (2 * X - (if sub then d else -d) * 2 ^ n) (2 * Q + q.toNat)
      ((k.shift.apply sub d).putBit q) := by
  obtain ⟨R, hR, hQ, hQ', hL, rfl⟩ := h
  have hbit := shift_putBit_toNat (by omega) k.L q
  have hp : (0 : Int) < 2 ^ (j + 1) := by positivity
  have hpow : (2 : Int) ^ n = 2 ^ (n - (j + 1)) * 2 ^ (j + 1) := by rw [← pow_add]; congr 1; omega
  have hq : (q.toNat : Int) ≤ 1 := by cases q <;> simp
  have hL' : ((k.L <<< 1 ||| (BitVec.ofBool q).setWidth n).toNat : Int) =
      (R - k.L.msb.toNat * 2 ^ (n - (j + 1))) * 2 ^ (j + 1) + (2 * Q + q.toNat) := by
    rw [hbit, hL, hpow]
    ring
  refine ⟨R - k.L.msb.toNat * 2 ^ (n - (j + 1)), ?_, by omega, by rw [pow_succ]; omega, hL', ?_⟩
  · by_contra hneg
    have : (R - k.L.msb.toNat * 2 ^ (n - (j + 1))) * 2 ^ (j + 1) ≤ -1 * 2 ^ (j + 1) :=
      mul_le_mul_of_nonneg_right (by omega) hp.le
    rw [pow_succ] at *
    omega
  · have hh : ((k.shift.apply sub d).putBit q).h = 2 * k.h + k.L.msb.toNat - if sub then d else -d := by
      cases sub <;> simp [Cursor.putBit, Cursor.apply, Cursor.shift]
    rw [hh, hpow]
    ring

/-! ### The seed and the trial step (R181 to R183) -/

/-- The number the cursor starts from: the dividend, with the divider added where the signs differ. -/
def seedValue (a d : Int) : Int := if signOf a = signOf d then a else a + d

theorem msb_eq_signOf {n : Nat} (v : BitVec n) : v.msb = signOf v.toInt := BitVec.msb_eq_toInt

theorem divSeed_holds (hn : 0 < n) (A : BitVec (n + n)) (D : BitVec n) :
    CursorHolds 0 (seedValue A.toInt D.toInt) 0 (divSeed A D) := by
  have hA := @BitVec.two_mul_toInt_lt _ A
  have hA' := @BitVec.le_two_mul_toInt _ A
  have hD := @BitVec.two_mul_toInt_lt _ D
  have hD' := @BitVec.le_two_mul_toInt _ D
  have hle : (2 : Int) ^ n ≤ 2 ^ (n + n) := pow_le_pow_right₀ (by decide) (by omega)
  have hval : (if A.msb != D.msb then A + D.signExtend (n + n) else A).toInt = seedValue A.toInt D.toInt := by
    rw [seedValue, msb_eq_signOf, msb_eq_signOf]
    by_cases h : signOf A.toInt = signOf D.toInt
    · simp [h]
    · have hext : (D.signExtend (n + n)).toInt = D.toInt := BitVec.toInt_signExtend_of_le (by omega)
      rw [if_pos (by simpa using h), if_neg h, BitVec.toInt_add, hext]
      rw [signOf_eq_iff] at h
      have hc : ((2 ^ (n + n) : Nat) : Int) = 2 ^ (n + n) := by push_cast; rfl
      exact Int.bmod_eq_of_le (by omega) (by omega)
  have hsplit (v : BitVec (n + n)) : v.toInt = (v.extractLsb' n n).toInt * 2 ^ n + (v.extractLsb' 0 n).toNat := by
    rw [← vec_toInt hn ⟨v.extractLsb' n n, v.extractLsb' 0 n⟩, Work.vec,
      BitVec.extractLsb'_append_extractLsb'_eq_extractLsb' (by omega), BitVec.extractLsb'_eq_self]
  refine ⟨_, Int.natCast_nonneg ((divSeed A D).L.toNat), le_rfl, by simp, by simp, ?_⟩
  rw [← hval, hsplit, pow_zero, mul_one]
  rfl

/-- The number after the trial step's subtraction or addition. -/
def trialValue (n : Nat) (a d : Int) : Int :=
  2 * seedValue a d - (if signOf a = signOf d then d else -d) * 2 ^ n

theorem divTrial_holds (hn : 0 < n) (A : BitVec (n + n)) (D : BitVec n) (q : Bool) :
    CursorHolds 1 (trialValue n A.toInt D.toInt) q.toNat
      ((((divSeed A D).shift).apply (A.msb == D.msb) D.toInt).putBit q) := by
  have h := (divSeed_holds hn A D).step hn (A.msb == D.msb) D.toInt q
  simpa [trialValue, msb_eq_signOf] using h

/-- The validity check in closed form: the trial step flips the sign exactly for the operands that DIV accepts (R183). -/
theorem signOf_trialValue (hn : 0 < n) {a d : Int} (hd : d ≠ 0) :
    signOf (trialValue n a d) ≠ signOf a ↔ divAccepts (2 ^ (n - 1)) a d := by
  have hp : (2 : Int) ^ n = 2 * 2 ^ (n - 1) := by rw [← pow_succ']; congr 1; omega
  generalize (2 : Int) ^ (n - 1) = K at *
  have h1 : -d * (K + 1) = -(d * K) - d := by ring
  have h2 : -(-d * K) = d * K := by ring
  have h3 : -(d * (K + 1)) = -(d * K) - d := by ring
  have h4 : d * (2 * K) = 2 * (d * K) := by ring
  have h5 : -d * (2 * K) = -(2 * (d * K)) := by ring
  rw [Ne, signOf_eq_iff, trialValue, seedValue, hp, divAccepts, h1, h2, h3]
  by_cases hs : signOf a = signOf d
  · rw [if_pos hs, if_pos hs, h4]
    rw [signOf_eq_iff] at hs
    omega
  · rw [if_neg hs, if_neg hs, h5]
    rw [signOf_eq_iff] at hs
    omega

/-! ### The loop and the restoring correction (R184, R185) -/

/-- 1 where the signs of dividend and divider differ: the weight of the first quotient bit's sign. -/
def signsDiffer (a d : Int) : Int := if signOf a = signOf d then 0 else 1

/-- What the division carries from step to step, with `X` the cursor's number and `Q` its quotient bits: the first bit says
whether the signs differ; `X` is what the bits leave of the dividend, the last one counting only in the next step; and `X` is
bounded by the divider on the dividend's side of zero. -/
structure Divides (n : Nat) (a d : Int) (j : Nat) (X Q : Int) : Prop where
  first : signsDiffer a d * 2 ^ j ≤ 2 * Q ∧ 2 * Q < (1 + signsDiffer a d) * 2 ^ j
  left : X = 2 ^ j * (a + signsDiffer a d * d) -
    d * 2 ^ n * (Q - (if signOf X = signOf d then 1 else 0) + 1 - signsDiffer a d * 2 ^ j)
  below : -(|d| * 2 ^ n + if a < 0 then 0 else |d| * 2 ^ j) ≤ X
  above : X < |d| * 2 ^ n + if a < 0 then |d| * 2 ^ j else 0

theorem signsDiffer_eq (a d : Int) : signsDiffer a d = 0 ∨ signsDiffer a d = 1 := by
  rw [signsDiffer]
  split
  · exact .inl rfl
  · exact .inr rfl

/-- Whichever its sign, the divider is applied so that the number moves toward zero. -/
theorem divider_toward {x d : Int} (hd : d ≠ 0) :
    (if signOf x = signOf d then d else -d) * 2 ^ n = if x < 0 then -(|d| * 2 ^ n) else |d| * 2 ^ n := by
  rw [← neg_mul, ← ite_mul]
  congr 1
  simp only [signOf_eq_iff]
  rcases lt_or_gt_of_ne hd with h | h
  · rw [abs_of_neg h]
    split <;> split <;> omega
  · rw [abs_of_pos h]
    split <;> split <;> omega

/-- The seed passes the dividend's side of zero by less than the divider. -/
theorem seedValue_bounds (a : Int) {d : Int} (hd : d ≠ 0) : if a < 0 then seedValue a d < |d| else -|d| ≤ seedValue a d := by
  simp only [seedValue, signOf_eq_iff]
  rcases lt_or_gt_of_ne hd with h | h
  · rw [abs_of_neg h]
    split <;> split <;> omega
  · rw [abs_of_pos h]
    split <;> split <;> omega

/-- An accepted trial step makes the first quotient bit. -/
theorem divides_trial {a d : Int} (h : signOf (trialValue n a d) ≠ signOf a) (hd : d ≠ 0) :
    Divides n a d 1 (trialValue n a d) (if signOf (trialValue n a d) = signOf d then 1 else 0) := by
  have hdiff : (if signOf (trialValue n a d) = signOf d then (1 : Int) else 0) = signsDiffer a d := by
    rw [signsDiffer]
    rw [Ne, signOf_eq_iff] at h
    simp only [signOf_eq_iff]
    split <;> split <;> omega
  have hp : (0 : Int) < 2 ^ n := by positivity
  rw [hdiff]
  refine ⟨?_, ?_, ?_, ?_⟩
  · rw [signsDiffer]
    split <;> norm_num
  · rw [hdiff]
    simp only [trialValue, seedValue, signsDiffer]
    split <;> ring
  all_goals
    rw [Ne, signOf_eq_iff] at h
    have hseed := seedValue_bounds a hd
    have hN : 0 ≤ |d| * 2 ^ n := by positivity
    rw [trialValue, divider_toward hd] at h ⊢
    generalize |d| * 2 ^ n = N at *
    generalize seedValue a d = v at *
    by_cases ha : a < 0
    · simp only [ha, if_true, iff_true, not_lt, pow_one] at h hseed ⊢
      omega
    · simp only [ha, if_false, iff_false, not_not, pow_one] at h hseed ⊢
      omega

/-- One step of the loop makes one quotient bit: the divider is taken away where the number has its sign, and else added. -/
theorem Divides.step {a d : Int} {j : Nat} (h : Divides n a d j X Q) (hd : d ≠ 0) (hj : 1 ≤ j) {X' : Int}
    (hX : X' = 2 * X - (if signOf X = signOf d then d else -d) * 2 ^ n) :
    Divides n a d (j + 1) X' (2 * Q + if signOf X' = signOf d then 1 else 0) := by
  obtain ⟨hfirst, hleft, hbelow, habove⟩ := h
  have hlast : (0 : Int) ≤ (if signOf X' = signOf d then 1 else 0) ∧ (if signOf X' = signOf d then (1 : Int) else 0) ≤ 1 := by
    split <;> decide
  refine ⟨?_, ?_, ?_, ?_⟩
  · obtain ⟨i, rfl⟩ := Nat.exists_eq_add_of_le' hj
    simp only [pow_succ] at hfirst ⊢
    rcases signsDiffer_eq a d with hδ | hδ <;> rw [hδ] at hfirst ⊢ <;> omega
  · generalize (if signOf X' = signOf d then (1 : Int) else 0) = q
    rw [hX, pow_succ]
    by_cases hs : signOf X = signOf d
    · rw [if_pos hs] at hleft ⊢
      rw [hleft]
      ring
    · rw [if_neg hs] at hleft ⊢
      rw [hleft]
      ring
  all_goals
    rw [divider_toward hd] at hX
    rw [hX, pow_succ]
    have hN : 0 ≤ |d| * 2 ^ n := by positivity
    have hM : 0 ≤ |d| * 2 ^ j := by positivity
    rw [← mul_assoc]
    generalize |d| * 2 ^ n = N at *
    generalize |d| * 2 ^ j = M at *
    by_cases ha : a < 0 <;> by_cases hx : X < 0 <;> simp only [ha, hx, if_true, if_false] at hbelow habove ⊢ <;> omega

/-- The cursor between two steps of the division. -/
def DivState (a d : Int) (j : Nat) (k : Cursor n) : Prop := ∃ X Q, CursorHolds j X Q k ∧ Divides n a d j X Q

end

section

variable {w : Nat} {a : Int} {D : BitVec (8 * w)}

theorem toNat_beq_signOf (x y : Int) : (((signOf x == signOf y).toNat : Nat) : Int) = if signOf x = signOf y then 1 else 0 := by
  by_cases h : signOf x = signOf y <;> simp [h]

theorem divStep_divState (hd : D.toInt ≠ 0) (idx : Nat) {j : Nat} (h1 : 1 ≤ j) (hj : j < 8 * w) {k : Cursor (8 * w)}
    (h : DivState a D.toInt j k) : DivState a D.toInt (j + 1) (divStep D idx k).1 := by
  obtain ⟨X, Q, hk, hX⟩ := h
  have hnext := fun q => hk.step hj (signOf k.h == D.msb) D.toInt q
  have hsub : (if (signOf k.h == D.msb) = true then D.toInt else -D.toInt) =
      if signOf X = signOf D.toInt then D.toInt else -D.toInt := by
    rw [hk.signOf_h, msb_eq_signOf]
    simp
  rw [hsub] at hnext
  have hsign : signOf (k.shift.apply (signOf k.h == D.msb) D.toInt).h = _ := (hnext false).signOf_h
  have hq : CursorHolds (j + 1) _ _ (divStep D idx k).1 :=
    hnext (signOf (k.shift.apply (signOf k.h == D.msb) D.toInt).h == D.msb)
  have hbit := toNat_beq_signOf (k.shift.apply (signOf k.h == D.msb) D.toInt).h D.toInt
  rw [← msb_eq_signOf D] at hbit
  rw [hbit, hsign, msb_eq_signOf] at hq
  exact ⟨_, _, hq, hX.step hd h1 rfl⟩

/-- After the loop the cursor's high part and its quotient make up the dividend, but for the last quotient bit. -/
theorem DivState.result {d : Int} {k : Cursor (8 * w)} (h : DivState a d (8 * w) k) :
    k.h = a + (if signOf a = signOf d then 0 else d) - k.L.toInt * d - (if signOf k.h = signOf d then 0 else d) ∧
    -(|d| + if a < 0 then 0 else |d|) ≤ k.h ∧ k.h < |d| + if a < 0 then |d| else 0 := by
  obtain ⟨X, Q, hk, hfirst, hleft, hbelow, habove⟩ := h
  have hsign := hk.signOf_h
  obtain ⟨R, hR, hQ, hQ', hL, hX⟩ := hk
  have hlt : (k.L.toNat : Int) < 2 ^ (8 * w) := by exact_mod_cast k.L.isLt
  have hp : (0 : Int) < 2 ^ (8 * w) := by positivity
  obtain rfl : R = 0 := by nlinarith
  rw [zero_mul, zero_add] at hL
  rw [zero_mul, add_zero] at hX
  have hLint : k.L.toInt = Q - signsDiffer a d * 2 ^ (8 * w) := by
    have hc : ((2 ^ (8 * w) : Nat) : Int) = 2 ^ (8 * w) := by push_cast; rfl
    rw [BitVec.toInt_eq_toNat_cond]
    rcases signsDiffer_eq a d with hδ | hδ <;> rw [hδ] at hfirst ⊢ <;> split <;> omega
  rw [← hsign] at hleft
  refine ⟨?_, ?_, ?_⟩
  · have hdiff : (if signOf a = signOf d then 0 else d) = signsDiffer a d * d := by
      rw [signsDiffer]
      split <;> ring
    have hlast : (if signOf k.h = signOf d then 0 else d) = (1 - if signOf k.h = signOf d then 1 else 0) * d := by
      split <;> ring
    apply mul_right_cancel₀ hp.ne'
    rw [← hX, hleft, hLint, hdiff, hlast]
    ring
  · have hfactor : -(|d| * 2 ^ (8 * w) + if a < 0 then 0 else |d| * 2 ^ (8 * w)) =
        -(|d| + if a < 0 then 0 else |d|) * 2 ^ (8 * w) := by
      split <;> ring
    rw [hX, hfactor] at hbelow
    exact le_of_mul_le_mul_right hbelow hp
  · have hfactor : (|d| * 2 ^ (8 * w) + if a < 0 then |d| * 2 ^ (8 * w) else 0) =
        (|d| + if a < 0 then |d| else 0) * 2 ^ (8 * w) := by
      split <;> ring
    rw [hX, hfactor] at habove
    exact lt_of_mul_lt_mul_right habove hp.le

end

section

variable {wd : Width} {a : Int} {D : BitVec (8 * wd.bytes)}

/-- The restoring correction makes the high part the remainder of the quotient, at most the divider in magnitude. -/
theorem restore_result {a d h L : Int} (hd : d ≠ 0)
    (hh : h = a + (if signOf a = signOf d then 0 else d) - L * d - (if signOf h = signOf d then 0 else d))
    (hlow : -(|d| + if a < 0 then 0 else |d|) ≤ h) (hhigh : h < |d| + if a < 0 then |d| else 0) {r : Int}
    (hr : r = if signOf h = signOf a then h else if signOf h = signOf d then h - d else h + d) :
    L * d + r = a ∧ -|d| ≤ r ∧ r < |d| := by
  simp only [signOf_eq_iff] at hh hr
  generalize L * d = P at *
  rcases lt_or_gt_of_ne hd with hneg | hpos
  · rw [abs_of_neg hneg] at *
    split at hlow <;> split_ifs at hh hr <;> omega
  · rw [abs_of_pos hpos] at *
    split at hlow <;> split_ifs at hh hr <;> omega

theorem divCorrect_result (hd : D.toInt ≠ 0) {k : Cursor (8 * wd.bytes)} (h : DivState a D.toInt (8 * wd.bytes) k) :
    (divCorrect (signOf a) D k).1.L.toInt * D.toInt + (divCorrect (signOf a) D k).1.h = a ∧
    -|D.toInt| ≤ (divCorrect (signOf a) D k).1.h ∧ (divCorrect (signOf a) D k).1.h < |D.toInt| := by
  obtain ⟨hh, hlow, hhigh⟩ := h.result
  rcases divCorrect_cases (signOf a) D k with ⟨hs, hc⟩ | ⟨hs, r, hc, -⟩ <;> rw [hc]
  · exact restore_result hd hh hlow hhigh (if_pos hs).symm
  · refine restore_result hd hh hlow hhigh ?_
    rw [if_neg hs, msb_eq_signOf]
    by_cases hsd : signOf k.h = signOf D.toInt <;> simp [Cursor.apply, hsd]

end

end Sys2Proof.Machine
end


section
/-! What a division computes: where its validity check refuses, the quotient and the remainder before the fix-up stage, and
what the fix-up stage makes of them (43_divide.md R183 to R188). -/

namespace Sys2Proof.Machine

open Sys2Proof

/-! ### The run (R180 to R185) -/

section

variable {wd : Width} (fixup : Bool) {A : BitVec (8 * wd.bytes + 8 * wd.bytes)} {D : BitVec (8 * wd.bytes)}

/-- The sign that the trial step leaves. -/
theorem signOf_trial (A : BitVec (8 * wd.bytes + 8 * wd.bytes)) (D : BitVec (8 * wd.bytes)) :
    signOf (((divSeed A D).shift).apply (A.msb == D.msb) D.toInt).h =
      signOf (trialValue (8 * wd.bytes) A.toInt D.toInt) := by
  have hw := zero_lt_bytes wd
  exact (divTrial_holds (by omega) A D false).signOf_h

/-- Outside the closed form of the validity check the run ends in `DivInvalid`. -/
theorem divRun_rejected (hd : D.toInt ≠ 0) (h : ¬ divAccepts (2 ^ (8 * wd.bytes - 1)) A.toInt D.toInt) :
    divRun fixup A D = .error .divInvalid := by
  have hw := zero_lt_bytes wd
  rw [← signOf_trialValue (by omega) hd, not_not, ← signOf_trial, ← msb_eq_signOf] at h
  rcases divTrial_cases A D with ⟨-, ht⟩ | ⟨hs, -⟩
  · rw [divRun, if_neg hd, ht]
    rfl
  · exact absurd h hs

/-- After an accepted trial step the run is the loop and the correction, whose result the fix-up stage, where there is one,
takes. -/
theorem divRun_of_trial (hd : D.toInt ≠ 0) {k : Cursor (8 * wd.bytes)} {trial : StepRecord}
    (ht : divTrial A D = .ok (k, trial)) :
    let loop := runSteps (divStep D) (8 * wd.bytes - 1) 1 k
    let last := divCorrect A.msb D loop.1
    let recs := trial :: loop.2 ++ last.2
    divRun fixup A D =
      if fixup then
        (divFixup (8 * wd.bytes) A.toInt D.toInt ⟨last.1.L.toInt, last.1.h, false⟩).map fun u => (u, recs ++ fixupRecord D u)
      else .ok (⟨last.1.L.toInt, last.1.h, false⟩, recs) := by
  rw [divRun, if_neg hd, ht]
  cases fixup <;> rfl

/-- On accepted operands the run makes an exact quotient and a remainder at most the divider in magnitude, and hands them to
the fix-up stage where there is one. -/
theorem divRun_accepted (hd : D.toInt ≠ 0) (h : divAccepts (2 ^ (8 * wd.bytes - 1)) A.toInt D.toInt) :
    ∃ (L : BitVec (8 * wd.bytes)) (r : Int) (recs : List StepRecord),
      L.toInt * D.toInt + r = A.toInt ∧ -|D.toInt| ≤ r ∧ r < |D.toInt| ∧
      divRun fixup A D =
        if fixup then (divFixup (8 * wd.bytes) A.toInt D.toInt ⟨L.toInt, r, false⟩).map fun u => (u, recs ++ fixupRecord D u)
        else .ok (⟨L.toInt, r, false⟩, recs) := by
  have hw := zero_lt_bytes wd
  rw [← signOf_trialValue (by omega) hd] at h
  have htrial := divTrial_holds (by omega) A D
    (signOf (((divSeed A D).shift).apply (A.msb == D.msb) D.toInt).h == D.msb)
  have hq : (((signOf (((divSeed A D).shift).apply (A.msb == D.msb) D.toInt).h == D.msb).toNat : Nat) : Int) =
      if signOf (trialValue (8 * wd.bytes) A.toInt D.toInt) = signOf D.toInt then 1 else 0 := by
    rw [signOf_trial, msb_eq_signOf D, toNat_beq_signOf]
  rw [hq] at htrial
  rcases divTrial_cases A D with ⟨hs, -⟩ | ⟨-, rec, ht, -⟩
  · rw [signOf_trial, msb_eq_signOf] at hs
    exact absurd hs h
  generalize (((divSeed A D).shift).apply (A.msb == D.msb) D.toInt).putBit
    (signOf (((divSeed A D).shift).apply (A.msb == D.msb) D.toInt).h == D.msb) = k at htrial ht
  have hloop := runSteps_induction (step := divStep D) (P := fun j k => DivState A.toInt D.toInt (j + 1) k)
    (bound := 8 * wd.bytes - 1) (i := 1) ⟨_, _, htrial, divides_trial h hd⟩
    (fun j hj _ hk => divStep_divState hd _ (by omega) (by omega) hk) le_rfl
  rw [show 8 * wd.bytes - 1 + 1 = 8 * wd.bytes by omega] at hloop
  obtain ⟨hsum, hlow, hhigh⟩ := divCorrect_result hd hloop
  rw [← msb_eq_signOf] at hsum hlow hhigh
  exact ⟨_, _, _, hsum, hlow, hhigh, divRun_of_trial fixup hd ht⟩

end

/-! ### The fix-up stage (R186) -/

theorem fixupSign_r (a d : Int) (v : QuoRem) : (fixupSign a d v).r = if v.r ≠ 0 ∧ signOf v.r ≠ signOf a then
    (if signOf v.r = signOf d then v.r - d else v.r + d) else v.r := by
  unfold fixupSign
  split_ifs <;> rfl

theorem fixupWhole_r (d : Int) (v : QuoRem) : (fixupWhole d v).r = if v.r = d ∨ v.r = -d then 0 else v.r := by
  unfold fixupWhole
  split_ifs <;> simp_all

/-- The first repair gives the remainder the dividend's sign, or makes it zero. -/
theorem fixupSign_range {a d : Int} (hd : d ≠ 0) {v : QuoRem} (hlow : -|d| ≤ v.r) (hhigh : v.r < |d|) :
    if a < 0 then -|d| ≤ (fixupSign a d v).r ∧ (fixupSign a d v).r ≤ 0
    else 0 ≤ (fixupSign a d v).r ∧ (fixupSign a d v).r < |d| := by
  simp only [fixupSign_r, Ne, signOf_eq_iff]
  rcases lt_or_gt_of_ne hd with hneg | hpos
  · rw [abs_of_neg hneg] at *
    split_ifs <;> omega
  · rw [abs_of_pos hpos] at *
    split_ifs <;> omega

/-- The second repair makes the remainder smaller than the divider. -/
theorem fixupWhole_range {a d : Int} (hd : d ≠ 0) {v : QuoRem}
    (h : if a < 0 then -|d| ≤ v.r ∧ v.r ≤ 0 else 0 ≤ v.r ∧ v.r < |d|) :
    if a < 0 then -|d| < (fixupWhole d v).r ∧ (fixupWhole d v).r ≤ 0
    else 0 ≤ (fixupWhole d v).r ∧ (fixupWhole d v).r < |d| := by
  simp only [fixupWhole_r]
  rcases lt_or_gt_of_ne hd with hneg | hpos
  · rw [abs_of_neg hneg] at *
    split_ifs at h ⊢ <;> omega
  · rw [abs_of_pos hpos] at *
    split_ifs at h ⊢ <;> omega

/-- The fix-up stage makes the truncated quotient and its remainder of any exact pair whose remainder is at most the divider in
magnitude (R188). -/
theorem fixup_truncates {a d : Int} (hd : d ≠ 0) {v : QuoRem} (hv : v.q * d + v.r = a) (hlow : -|d| ≤ v.r)
    (hhigh : v.r < |d|) :
    (fixupWhole d (fixupSign a d v)).q = a.tdiv d ∧ (fixupWhole d (fixupSign a d v)).r = a.tmod d := by
  have hsum := fixup_invariant a d v
  rw [hv] at hsum
  have hrange : if a < 0 then -|d| < (fixupWhole d (fixupSign a d v)).r ∧ (fixupWhole d (fixupSign a d v)).r ≤ 0
      else 0 ≤ (fixupWhole d (fixupSign a d v)).r ∧ (fixupWhole d (fixupSign a d v)).r < |d| := by
    exact fixupWhole_range hd (fixupSign_range hd hlow hhigh)
  generalize fixupWhole d (fixupSign a d v) = u at *
  have heq : u.r + d * u.q = a := by rw [← hsum]; ring
  rw [← Int.natCast_natAbs] at hrange
  by_cases ha : a < 0
  · rw [if_pos ha] at hrange
    obtain ⟨hq, hr⟩ := (Int.tdiv_tmod_unique' (q := u.q) (r := u.r) ha.le hd).mpr ⟨heq, hrange⟩
    exact ⟨hq.symm, hr.symm⟩
  · rw [if_neg ha] at hrange
    obtain ⟨hq, hr⟩ := (Int.tdiv_tmod_unique (q := u.q) (r := u.r) (by omega) hd).mpr ⟨heq, hrange⟩
    exact ⟨hq.symm, hr.symm⟩

theorem tmod_nonpos (d : Int) {a : Int} (ha : a < 0) : a.tmod d ≤ 0 := by
  have h := Int.tmod_nonneg d (a := -a) (by omega)
  rw [Int.neg_tmod] at h
  omega

/-- The accepted operands have a quotient in range, or one outside that only two classes of operands reach (R183, R186). -/
theorem tdiv_range {K a d : Int} (hK : 0 < K) (h : divAccepts K a d) :
    (-K ≤ a.tdiv d ∧ a.tdiv d < K) ∨ (quotientOutside K a d ∧ (a.tdiv d = K ∨ a.tdiv d = -K - 1)) := by
  have hsum := Int.mul_tdiv_add_tmod a d
  have hpos : 0 ≤ a → 0 ≤ a.tmod d := Int.tmod_nonneg d
  have hneg : a < 0 → a.tmod d ≤ 0 := tmod_nonpos d
  have hlt : d ≠ 0 → |a.tmod d| < |d| := fun hd => by
    rw [Int.abs_eq_natAbs, Int.abs_eq_natAbs, Int.natAbs_tmod]
    exact_mod_cast Nat.mod_lt _ (Int.natAbs_pos.mpr hd)
  generalize a.tdiv d = q at *
  generalize a.tmod d = r at *
  rw [quotientOutside]
  rcases h with ⟨ha, hd, hacc⟩ | ⟨ha, hd, hacc⟩ | ⟨ha, hd, hacc⟩ | ⟨ha, hd, hacc⟩
  · have hr := hpos ha
    have hr' := abs_lt.mp (hlt hd.ne')
    rw [abs_of_pos hd] at hr'
    have h1 : q < K := by nlinarith
    have h2 : -1 < q := by nlinarith
    omega
  · have hr := hpos ha
    have hr' := abs_lt.mp (hlt hd.ne)
    rw [abs_of_neg hd] at hr'
    have h1 : -(K + 1) < q := by nlinarith
    have h2 : q < 1 := by nlinarith
    omega
  · have hr := hneg ha
    have hr' := abs_lt.mp (hlt hd.ne)
    rw [abs_of_neg hd] at hr'
    have h1 : q ≤ K := by nlinarith
    have h2 : -1 < q := by nlinarith
    rcases h1.lt_or_eq with h1 | rfl
    · omega
    · exact .inr ⟨.inl ⟨hd, by linarith⟩, .inl rfl⟩
  · have hr := hneg ha
    have hr' := abs_lt.mp (hlt hd.ne')
    rw [abs_of_pos hd] at hr'
    have h1 : -(K + 1) ≤ q := by nlinarith
    have h2 : q < 1 := by nlinarith
    rcases h1.lt_or_eq with h1 | rfl
    · omega
    · exact .inr ⟨.inr ⟨hd, by linarith⟩, .inr (by ring)⟩

/-! ### The command (R180, R187) -/

theorem takeFault_inj {x y : Cause} {w : Word} {s : State} (h : takeFault x w s = takeFault y w s) : x = y := by
  have hcode : x.code = y.code := congrArg State.cause h
  revert hcode
  cases x <;> cases y <;> decide

/-- The state a completed DIV leaves. -/
def divResult (s : State) (rd rem : SReg) (q r : Int) (recs : List StepRecord) : State :=
  ((s.setSingle rd (intBytes s.params.width.bytes q)).setSingle rem (intBytes s.params.width.bytes r)).record recs

theorem finishDiv_eq (s : State) (rd rem : SReg) (u : QuoRem × List StepRecord) :
    finishDiv s rd rem u = divResult s rd rem u.1.q u.1.r u.2 := by
  rw [finishDiv, snap1_ofInt, snap1_ofInt]
  rfl

@[simp] theorem divResult_f (s : State) (rd rem : SReg) (q r : Int) (recs : List StepRecord) :
    (divResult s rd rem q r recs).f = s.f := by
  simp [divResult]

/-- A command that completes has not faulted. -/
theorem not_takeFault_of_divResult {s : State} (hf : s.f = false) {i : Instr} {rd rem : SReg} {q r : Int}
    {recs : List StepRecord} {x : Cause} {w : Word} (hdone : exec i s = .next (divResult s rd rem q r recs)) :
    exec i s ≠ .next (takeFault x w s) := fun hfault => by
  have hflag := congrArg State.f (Host.Outcome.next.inj (hdone.symm.trans hfault))
  simp [hf] at hflag

theorem divResult_rd (s : State) {rd rem : SReg} (h : rd ≠ rem) (q r : Int) (recs : List StepRecord) :
    (divResult s rd rem q r recs).single rd = intBytes s.params.width.bytes q := by
  simp [divResult, h]

theorem divResult_rem (s : State) (rd rem : SReg) (q r : Int) (recs : List StepRecord) :
    (divResult s rd rem q r recs).single rem = intBytes s.params.width.bytes r := by
  simp [divResult]

section

variable {s : State} (hs : s.RegsSized) (hf : s.f = false) {rd rem : SReg} (hne : rd ≠ rem) (rs : DReg) {rt : SReg}
  (hd : signed (s.single rt) ≠ 0)

include hs hf hne hd

theorem exec_div_rejected (h : ¬ divAccepts (2 ^ (s.nBits - 1)) (signed (s.double rs)) (signed (s.single rt))) :
    exec (.div rd rs rt rem) s = .next (takeFault .divInvalid (encodeWord (.div rd rs rt rem)) s) := by
  rw [← operand_toInt hs] at hd
  rw [← operand_toInt hs, ← operand2_toInt hs] at h
  rw [exec_div_of_ne hne, divRun_rejected s.params.divFixup hd h]
  exact runCommand_error hf

/-- Without the fix-up stage DIV completes on every accepted operand pair (R186). -/
theorem exec_div_literal (h : divAccepts (2 ^ (s.nBits - 1)) (signed (s.double rs)) (signed (s.single rt)))
    (hfix : s.params.divFixup = false) : ∃ q r recs, (-2 ^ (s.nBits - 1) ≤ q ∧ q < 2 ^ (s.nBits - 1)) ∧
      q * signed (s.single rt) + r = signed (s.double rs) ∧ -|signed (s.single rt)| ≤ r ∧ r < |signed (s.single rt)| ∧
      exec (.div rd rs rt rem) s = .next (divResult s rd rem q r recs) := by
  rw [← operand_toInt hs, ← operand2_toInt hs] at *
  obtain ⟨L, r, recs, hsum, hlow, hhigh, hrun⟩ := divRun_accepted s.params.divFixup hd h
  refine ⟨L.toInt, r, recs, ⟨BitVec.le_toInt L, BitVec.toInt_lt⟩, hsum, hlow, hhigh, ?_⟩
  rw [exec_div_of_ne hne, hrun, hfix]
  exact (runCommand_ok hf).trans (congrArg Host.Outcome.next (finishDiv_eq ..))

/-- With the fix-up stage DIV completes with the truncated quotient and its remainder, or finds the quotient outside its range
(R186, R188). -/
theorem exec_div_fixup (h : divAccepts (2 ^ (s.nBits - 1)) (signed (s.double rs)) (signed (s.single rt)))
    (hfix : s.params.divFixup = true) :
    (¬ (-2 ^ (s.nBits - 1) ≤ (signed (s.double rs)).tdiv (signed (s.single rt)) ∧
        (signed (s.double rs)).tdiv (signed (s.single rt)) < 2 ^ (s.nBits - 1)) ∧
      exec (.div rd rs rt rem) s = .next (takeFault .internalCheck (encodeWord (.div rd rs rt rem)) s)) ∨
    ((-2 ^ (s.nBits - 1) ≤ (signed (s.double rs)).tdiv (signed (s.single rt)) ∧
        (signed (s.double rs)).tdiv (signed (s.single rt)) < 2 ^ (s.nBits - 1)) ∧
      ∃ recs, exec (.div rd rs rt rem) s = .next (divResult s rd rem ((signed (s.double rs)).tdiv (signed (s.single rt)))
        ((signed (s.double rs)).tmod (signed (s.single rt))) recs)) := by
  rw [← operand_toInt hs, ← operand2_toInt hs] at *
  obtain ⟨L, r, recs, hsum, hlow, hhigh, hrun⟩ := divRun_accepted s.params.divFixup hd h
  obtain ⟨hq, hr⟩ := fixup_truncates (v := ⟨L.toInt, r, false⟩) hd hsum hlow hhigh
  rw [hfix, if_pos rfl] at hrun
  have hn : s.nBits = 8 * s.params.width.bytes := rfl
  have hcases := divFixup_cases (8 * s.params.width.bytes) (s.operand2 rs).toInt (s.operand rt).toInt ⟨L.toInt, r, false⟩
  generalize fixupWhole _ _ = u at hq hr hcases
  rw [exec_div_of_ne hne, hfix, hrun, hn, ← hq, ← hr]
  rcases hcases with ⟨hcheck, hout⟩ | ⟨hcheck, hin⟩ <;> rw [hcheck]
  · exact .inl ⟨by omega, runCommand_error hf⟩
  · exact .inr ⟨by omega, recs ++ fixupRecord (s.operand rt) u,
      (runCommand_ok hf).trans (congrArg Host.Outcome.next (finishDiv_eq ..))⟩

end

end Sys2Proof.Machine
end


section

open Sys2Proof Sys2Proof.Machine

/-- Settles O48: outside the two classes the quotient is in range, so the fix-up stage's internal check passes. -/
theorem divWritesTruncatedQuotientAndRemainder : Obligations.DivWritesTruncatedQuotientAndRemainder := by
  intro s rd rs rt rem hs hf hne hfix a d K w hd hacc hout
  refine ⟨encR3_eq_placed 20#5 (.single rd) (.double rs) (.single rt) _, ?_⟩
  have hrange : -K ≤ a.tdiv d ∧ a.tdiv d < K :=
    (tdiv_range (by positivity) hacc).resolve_right fun h => hout h.1
  rcases exec_div_fixup hs hf hne rs hd hacc hfix with ⟨hnot, -⟩ | ⟨-, recs, hexec⟩
  · exact absurd hrange hnot
  · exact ⟨hrange.1, hrange.2, recs, hexec⟩

/-- Settles O49: a DIV that does not fault had accepted operands; its destinations hold the quotient and the remainder that the
fix-up stage made, or that the loop made where there is no such stage. -/
theorem divResultLaw : Obligations.DivResultLaw := by
  intro s t rd rs rt rem hs hf hne hexec ht a d q r
  have hw := zero_lt_bytes s.params.width
  have hd : d ≠ 0 := by
    intro hz
    have hz' : (s.operand rt).toInt = 0 := (operand_toInt hs rt).trans hz
    rw [exec_div_of_ne hne, divRun_divZero s.params.divFixup (s.operand2 rs) hz'] at hexec
    obtain rfl := Host.Outcome.next.inj ((runCommand_error hf).symm.trans hexec)
    simp at ht
  have hacc : divAccepts (2 ^ (s.nBits - 1)) a d := by
    by_contra hacc
    obtain rfl := Host.Outcome.next.inj ((exec_div_rejected hs hf hne rs hd hacc).symm.trans hexec)
    simp at ht
  have hdr : |d| ≤ 2 ^ (s.nBits - 1) := by
    rw [show d = (s.operand rt).toInt from (operand_toInt hs rt).symm]
    exact abs_le.mpr ⟨BitVec.le_toInt _, BitVec.toInt_lt.le⟩
  have hread {q' r' : Int} {recs : List StepRecord} (hq : -2 ^ (s.nBits - 1) ≤ q' ∧ q' < 2 ^ (s.nBits - 1))
      (hr : -|d| ≤ r' ∧ r' < |d|) (h : t = divResult s rd rem q' r' recs) : q = q' ∧ r = r' := by
    subst h
    constructor
    · exact (congrArg signed (divResult_rd s hne ..)).trans (signed_intBytes hw hq.1 hq.2)
    · exact (congrArg signed (divResult_rem s rd rem ..)).trans
        (signed_intBytes hw (le_trans (neg_le_neg hdr) hr.1) (lt_of_lt_of_le hr.2 hdr))
  cases hfix : s.params.divFixup with
  | false =>
    obtain ⟨q', r', recs, hq, hsum, hlow, hhigh, hdone⟩ := exec_div_literal hs hf hne rs hd hacc hfix
    obtain ⟨rfl, rfl⟩ := hread hq ⟨hlow, hhigh⟩ (Host.Outcome.next.inj (hexec.symm.trans hdone))
    refine ⟨hsum, nofun, fun _ => ?_⟩
    zify
    exact abs_le.mpr ⟨hlow, hhigh.le⟩
  | true =>
    have hlt : (a.tmod d).natAbs < d.natAbs := by
      rw [Int.natAbs_tmod]
      exact Nat.mod_lt _ (Int.natAbs_pos.mpr hd)
    rcases exec_div_fixup hs hf hne rs hd hacc hfix with ⟨-, hfault⟩ | ⟨hq, recs, hdone⟩
    · obtain rfl := Host.Outcome.next.inj (hfault.symm.trans hexec)
      simp at ht
    · have hr : |a.tmod d| < |d| := by zify at hlt; exact hlt
      obtain ⟨hq, hr⟩ := hread hq ⟨(abs_lt.mp hr).1.le, (abs_lt.mp hr).2⟩ (Host.Outcome.next.inj (hexec.symm.trans hdone))
      rw [hq, hr]
      refine ⟨by rw [mul_comm]; exact Int.mul_tdiv_add_tmod a d, fun _ => ⟨rfl, hlt, ?_⟩, nofun⟩
      by_cases ha : a < 0
      · have hnonpos := tmod_nonpos d ha
        omega
      · have hnonneg := Int.tmod_nonneg d (not_lt.mp ha)
        omega

/-- Settles O50: without the fix-up stage nothing can fault after the validity check. -/
theorem literalDivCompletesWhereAccepted : Obligations.LiteralDivCompletesWhereAccepted := by
  intro s rd rs rt rem hs hf hne hfix a d w hd hacc
  obtain ⟨q, r, recs, -, hsum, hlow, hhigh, hexec⟩ := exec_div_literal hs hf hne rs hd hacc hfix
  refine ⟨q, r, recs, hsum, ?_, hexec⟩
  zify
  exact abs_le.mpr ⟨hlow, hhigh.le⟩

/-- Settles O52: on accepted operands DIV completes or raises `InternalCheck`, on others it raises `DivInvalid`. -/
theorem divInvalidExactlyWhereNotAccepted : Obligations.DivInvalidExactlyWhereNotAccepted := by
  intro s rd rs rt rem hs hf hne a d hd
  refine ⟨fun hfault hacc => ?_, exec_div_rejected hs hf hne rs hd⟩
  cases hfix : s.params.divFixup with
  | false =>
    obtain ⟨_, _, _, -, -, -, -, hdone⟩ := exec_div_literal hs hf hne rs hd hacc hfix
    exact not_takeFault_of_divResult hf hdone hfault
  | true =>
    rcases exec_div_fixup hs hf hne rs hd hacc hfix with ⟨-, hcheck⟩ | ⟨-, _, hdone⟩
    · cases takeFault_inj (Host.Outcome.next.inj (hcheck.symm.trans hfault))
    · exact not_takeFault_of_divResult hf hdone hfault

/-- Settles O53: the internal check fails exactly for a quotient out of range, which accepted operands have in two classes. -/
theorem internalCheckExactlyOneOutside : Obligations.InternalCheckExactlyOneOutside := by
  intro s rd rs rt rem hs hf hne a d K hd hacc
  cases hfix : s.params.divFixup with
  | false =>
    obtain ⟨_, _, _, -, -, -, -, hdone⟩ := exec_div_literal hs hf hne rs hd hacc hfix
    exact ⟨fun hfault => absurd hfault (not_takeFault_of_divResult hf hdone), nofun⟩
  | true =>
    have hrange := tdiv_range (K := K) (by positivity) hacc
    rcases exec_div_fixup hs hf hne rs hd hacc hfix with ⟨hout, hcheck⟩ | ⟨hin, _, hdone⟩
    · exact ⟨fun _ => ⟨rfl, (hrange.resolve_left hout).2⟩, fun _ => hcheck⟩
    · refine ⟨fun hfault => absurd hfault (not_takeFault_of_divResult hf hdone), fun ⟨_, hq⟩ => ?_⟩
      change -K ≤ a.tdiv d ∧ a.tdiv d < K at hin
      omega

end


section
/-! What each register command computes, from the rules of its operand forms (41_register_ops.md, 44_mantissa.md, 45_system.md).
Each command is first written as a run of the template of R110. -/

namespace Sys2Proof.Machine

open Sys2Proof

/-! ### The commands as runs of the template (R110) -/

theorem exec_set (rd : Reg) (lit : List Byte) (s : State) : exec (.set rd lit) s = runCommand (encodeWord (.set rd lit)) s
    (if lit.length = s.widthOf rd then .ok (s.setReg rd lit) else .error .illegalCommand) := rfl

theorem exec_get (rd : Reg) (s : State) :
    exec (.get rd) s = runCommand (encodeWord (.get rd)) s (.ok (s.emit (s.reg rd))) := rfl

theorem exec_copy (rd rs : Reg) (s : State) : exec (.copy rd rs) s = runCommand (encodeWord (.copy rd rs)) s
    (requireSameWidth s rd rs >>= fun _ => .ok (s.setReg rd (s.reg rs))) := rfl

theorem exec_geth (rd : SReg) (rs : DReg) (s : State) :
    exec (.geth rd rs) s = runCommand (encodeWord (.geth rd rs)) s (.ok (s.setSingle rd (s.high rs))) := rfl

theorem exec_getl (rd : SReg) (rs : DReg) (s : State) :
    exec (.getl rd rs) s = runCommand (encodeWord (.getl rd rs)) s (.ok (s.setSingle rd (s.low rs))) := rfl

theorem exec_puth (rd : DReg) (rs : SReg) (s : State) :
    exec (.puth rd rs) s = runCommand (encodeWord (.puth rd rs)) s (.ok (s.setHigh rd (s.single rs))) := rfl

theorem exec_putl (rd : DReg) (rs : SReg) (s : State) :
    exec (.putl rd rs) s = runCommand (encodeWord (.putl rd rs)) s (.ok (s.setLow rd (s.single rs))) := rfl

theorem exec_add (rd rs : Reg) (s : State) :
    exec (.add rd rs) s = runCommand (encodeWord (.add rd rs)) s (addSub badd rd rs s) := rfl

theorem exec_sub (rd rs : Reg) (s : State) :
    exec (.sub rd rs) s = runCommand (encodeWord (.sub rd rs)) s (addSub bsub rd rs s) := rfl

theorem exec_addh (rd : DReg) (rs : Reg) (trunc : Bool) (s : State) : exec (.addh rd rs trunc) s =
    runCommand (encodeWord (.addh rd rs trunc)) s (addSubHigh badd rd rs trunc s) := rfl

theorem exec_subh (rd : DReg) (rs : Reg) (trunc : Bool) (s : State) : exec (.subh rd rs trunc) s =
    runCommand (encodeWord (.subh rd rs trunc)) s (addSubHigh bsub rd rs trunc s) := rfl

theorem exec_shl (rd : Reg) (fill : Bool) (amt : BitVec 6) (s : State) : exec (.shl rd fill amt) s =
    runCommand (encodeWord (.shl rd fill amt)) s (.ok ((s.setReg rd (shiftLeftBy fill amt.toNat s.c (s.reg rd)).2).setCarry
      (shiftLeftBy fill amt.toNat s.c (s.reg rd)).1)) := rfl

theorem exec_shr (rd : Reg) (fill : ShrFill) (amt : BitVec 6) (s : State) : exec (.shr rd fill amt) s =
    runCommand (encodeWord (.shr rd fill amt)) s (.ok ((s.setReg rd (shiftRightBy fill amt.toNat s.c (s.reg rd)).2).setCarry
      (shiftRightBy fill amt.toNat s.c (s.reg rd)).1)) := rfl

theorem exec_btst (rd : Reg) (bi k : BitVec 4) (s : State) : exec (.btst rd bi k) s =
    runCommand (encodeWord (.btst rd bi k)) s (requireByte s rd bi.toNat >>= fun _ =>
      bget (byteAt (s.reg rd) bi.toNat) k.toNat >>= fun b => .ok (s.setCarry b)) := rfl

theorem exec_setfmt (h : Bool) (bu : BitVec 6) (dw : BitVec 4) (s : State) : exec (.setfmt h bu dw) s =
    runCommand (encodeWord (.setfmt h bu dw)) s (if 1 ≤ dw.toNat ∧ dw.toNat ≤ bu.toNat ∧ bu.toNat ≤ s.nBits
      then .ok (s.setMfmt h bu dw) else .error .operandRange) := rfl

theorem exec_norm (rd : SReg) (s : State) : exec (.norm rd) s = runCommand (encodeWord (.norm rd)) s
    (.ok ((s.setSingle rd (normLoop s.nBits s.digitWidth (digitCount s.bitsUsed s.digitWidth) 0 (s.single rd)).2).setCnt
      (normLoop s.nBits s.digitWidth (digitCount s.bitsUsed s.digitWidth) 0 (s.single rd)).1)) := rfl

theorem exec_unhide (rd : SReg) (s : State) : exec (.unhide rd) s = runCommand (encodeWord (.unhide rd)) s
    (.ok (if s.hiddenOne then (s.setSingle rd (shiftRight1 true (s.single rd)).2).setCarry
      (shiftRight1 true (s.single rd)).1 else s)) := rfl

theorem exec_hide (rd : SReg) (s : State) : exec (.hide rd) s = runCommand (encodeWord (.hide rd)) s
    (.ok (if s.hiddenOne then (s.setSingle rd (shiftLeft1 false (s.single rd)).2).setCarry
      (shiftLeft1 false (s.single rd)).1 else s)) := rfl

section

variable {s : State}

theorem reg_ne_nil (hs : s.RegsSized) (r : Reg) : s.reg r ≠ [] := by
  have hw := zero_lt_bytes s.params.width
  have hl := reg_length hs r
  intro h
  rcases r with r | r <;> simp [h] at hl <;> omega

theorem high_eq_toBytes (hs : s.RegsSized) (r : DReg) :
    s.high r = toBytes s.params.width.bytes (s.value (.double r) / 2 ^ s.nBits) := by
  rw [← toBytes_unsigned (s.high r), high_length hs, unsigned_high hs]

theorem low_eq_toBytes (hs : s.RegsSized) (r : DReg) :
    s.low r = toBytes s.params.width.bytes (s.value (.double r) % 2 ^ s.nBits) := by
  rw [← toBytes_unsigned (s.low r), low_length hs, unsigned_low hs]

/-! ### ADD, SUB, ADDH and SUBH (R118 to R121) -/

theorem addSub_error (op : Byte → Byte → Bool → Bool × Byte) {rd rs : Reg} (h : s.widthOf rd < s.widthOf rs) :
    addSub op rd rs s = .error .widthMismatch := by
  rcases requireNotWider_cases s rd rs with ⟨hle, -⟩ | ⟨-, he⟩
  · omega
  · rw [addSub, he]
    rfl

theorem addSub_ok (op : Byte → Byte → Bool → Bool × Byte) {rd rs : Reg} (h : s.widthOf rs ≤ s.widthOf rd) :
    addSub op rd rs s = .ok ((s.setReg rd (performBinOp s.params.ext op (s.reg rd) (s.reg rs)).2).setCarry
      (performBinOp s.params.ext op (s.reg rd) (s.reg rs)).1) := by
  rcases requireNotWider_cases s rd rs with ⟨-, he⟩ | ⟨hlt, -⟩
  · rw [addSub, he]
    rfl
  · omega

/-- All that ADDH and SUBH do: the fault, or the chain over the high half. -/
theorem addSubHigh_cases (hs : s.RegsSized) (op : Byte → Byte → Bool → Bool × Byte) (rd : DReg) (rs : Reg) (trunc : Bool) :
    (2 ^ s.nBits ≤ s.value rs ∧ trunc = false → addSubHigh op rd rs trunc s = .error .highOverflow) ∧
    (¬ (2 ^ s.nBits ≤ s.value rs ∧ trunc = false) → ∃ o : Register, o.length = (s.high rd).length ∧
      unsigned o = s.value rs % 2 ^ s.nBits ∧
      addSubHigh op rd rs trunc s = .ok ((s.setHigh rd (performBinOp s.params.ext op (s.high rd) o).2).setCarry
        (performBinOp s.params.ext op (s.high rd) o).1)) := by
  rcases highOperand_cases hs rs trunc with ⟨hbig, ht, he⟩ | ⟨hno, o, he, hl, hu⟩
  · refine ⟨fun _ => ?_, fun h => absurd ⟨hbig, ht⟩ h⟩
    rw [addSubHigh, he]
    rfl
  · refine ⟨fun h => absurd h hno, fun _ => ⟨o, hl.trans (high_length hs rd).symm, hu, ?_⟩⟩
    rw [addSubHigh, he]
    rfl

/-! ### SHL and SHR (R122, R123) -/

theorem shiftLeftBy_eq (fill : Bool) (k : Nat) (c : Bool) {v : Register} (hv : v ≠ []) : shiftLeftBy fill k c v =
    (if k = 0 then c else if k ≤ 8 * v.length then (unsigned v).testBit (8 * v.length - k) else fill,
      toBytes v.length ((unsigned v * 2 ^ k + if fill then 2 ^ k - 1 else 0) % 2 ^ (8 * v.length))) := by
  refine Prod.ext (shiftLeftBy_out fill k c v hv) (eq_toBytes (by simp) ?_)
  rw [unsigned_shiftLeftBy, pow_256, Nat.mod_mod]

theorem shiftRightBy_eq (fill : ShrFill) (k : Nat) (c : Bool) {v : Register} (hv : v ≠ []) : shiftRightBy fill k c v =
    (if k = 0 then c else if k ≤ 8 * v.length then (unsigned v).testBit (k - 1) else shrFillBit fill v,
      toBytes v.length (unsigned v / 2 ^ k +
        if shrFillBit fill v then 2 ^ (8 * v.length) - 2 ^ (8 * v.length - min k (8 * v.length)) else 0)) := by
  refine Prod.ext (shiftRightBy_out fill k c v hv) (eq_toBytes (by simp) ?_)
  have hlt := unsigned_lt (shiftRightBy fill k c v).2
  rw [length_shiftRightBy] at hlt
  rw [← unsigned_shiftRightBy fill k c v hv, Nat.mod_eq_of_lt hlt]

theorem intBytes_natCast (w m : Nat) : intBytes w (m : Int) = toBytes w m := by
  have h : ((m : Int) % 2 ^ (8 * w)).toNat = m % 256 ^ w := by
    rw [pow_256]
    norm_cast
  rw [intBytes, h, toBytes_mod]

theorem intBytes_of_add {w m : Nat} {x : Int} (h : x + 2 ^ (8 * w) = m) : intBytes w x = toBytes w m := by
  rw [← intBytes_natCast, ← h, intBytes, intBytes, Int.add_emod_right]

/-- The sign fill makes the floor division of the signed value (R123). -/
theorem intBytes_signed_div (k : Nat) (v : Register) : intBytes v.length (signed v / 2 ^ k) =
    toBytes v.length (unsigned v / 2 ^ k +
      if msb v then 2 ^ (8 * v.length) - 2 ^ (8 * v.length - min k (8 * v.length)) else 0) := by
  have hlt : unsigned v < 2 ^ (8 * v.length) := by simpa [pow_256] using unsigned_lt v
  cases hm : msb v with
  | false =>
    rw [signed_of_msb_false hm, ← intBytes_natCast]
    simp
  | true =>
    rw [signed_of_msb_true hm]
    refine intBytes_of_add ?_
    generalize 8 * v.length = n at hlt ⊢
    have hsub : 2 ^ (n - min k n) ≤ 2 ^ n := Nat.pow_le_pow_right (by norm_num) (by omega)
    simp only [if_true]
    push_cast [hsub]
    rcases le_total k n with hk | hk
    · have hpow : (2 : Int) ^ n = 2 ^ (n - k) * 2 ^ k := by rw [← pow_add, Nat.sub_add_cancel hk]
      have hdiv : ((unsigned v : Int) - 2 ^ n) / 2 ^ k = unsigned v / 2 ^ k - 2 ^ (n - k) := by
        rw [hpow, Int.sub_mul_ediv_right _ _ (by positivity)]
      rw [hdiv, min_eq_left hk]
      ring
    · have hlt' : (unsigned v : Int) < 2 ^ n := by exact_mod_cast hlt
      have hpow : (2 : Int) ^ n ≤ 2 ^ k := pow_le_pow_right₀ (by norm_num) hk
      have hneg : ((unsigned v : Int) - 2 ^ n) / 2 ^ k = -1 := by
        rw [Int.ediv_eq_iff_of_pos (by positivity)]
        omega
      rw [hneg, min_eq_right hk, Int.ediv_eq_zero_of_lt (by positivity) (by omega)]
      simp
      ring

end

end Sys2Proof.Machine
end


section
/-! The halves of a register written back, the format that SETFMT writes, the loop of NORM on a state, and the control
registers as bytes (44_mantissa.md R201, R202; 45_system.md R215). -/

namespace Sys2Proof.Machine

open Sys2Proof

/-- The fill of SHL stands in the low bit of its field (30_encoding.md R64). -/
theorem placed_shlFill (fill : Bool) : placed (0#1 ++ BitVec.ofBool fill) 6 = placed (BitVec.ofBool fill) 6 := by
  rw [placed_append, placed_zero, BitVec.zero_or]

theorem getLsbD_encFM (op : BitVec 5) (h : Bool) (bu : BitVec 6) (dw : BitVec 4) (i : Nat) :
    (encFM op h bu dw).getLsbD i = if i < 11 then (BitVec.ofBool h ++ bu ++ dw).getLsbD i else op.getLsbD (i - 11) := by
  have hbit : (encFM op h bu dw).getLsbD i = (op ++ BitVec.ofBool h ++ bu ++ dw).getLsbD i := rfl
  rw [hbit]
  simp only [BitVec.getLsbD_append]
  split_ifs <;> grind

/-- The low 11 bits of a word of format FM are its format (R201). -/
theorem encFM_format (op : BitVec 5) (h : Bool) (bu : BitVec 6) (dw : BitVec 4) :
    encFM op h bu dw &&& 0x07FF#16 = encFM 0#5 h bu dw := by
  apply BitVec.eq_of_getLsbD_eq
  intro i hi
  rw [BitVec.getLsbD_and, getLsbD_encFM, getLsbD_encFM]
  split_ifs with hlow
  · interval_cases i <;> simp
  · interval_cases i <;> simp at hlow ⊢

/-- STATUS as a number (10_state.md R17). -/
theorem status_eq (s : State) : s.status = BitVec.ofNat 8 (2 * s.f.toNat + s.c.toNat) := by
  unfold State.status
  cases s.f <;> cases s.c <;> rfl

theorem wordBytes_eq (w : Word) : wordBytes w = [BitVec.ofNat 8 (w.toNat / 256), BitVec.ofNat 8 (w.toNat % 256)] := by
  have hhigh : w.extractLsb' 8 8 = BitVec.ofNat 8 (w.toNat / 256) := by
    apply BitVec.eq_of_toNat_eq
    simp [Nat.shiftRight_eq_div_pow]
  have hlow : w.extractLsb' 0 8 = BitVec.ofNat 8 (w.toNat % 256) := by
    apply BitVec.eq_of_toNat_eq
    simp
  rw [wordBytes, hhigh, hlow]

theorem setSingle_self (s : State) (r : SReg) : s.setSingle r (s.single r) = s := by cases r <;> rfl

@[simp] theorem nBits_setSingle_setCarry (s : State) (r : SReg) (v : Register) (b : Bool) :
    ((s.setSingle r v).setCarry b).nBits = s.nBits := by simp [State.nBits]

@[simp] theorem value_setSingle_setCarry (s : State) (r : SReg) (n : Nat) (b : Bool) :
    ((s.setSingle r (toBytes s.params.width.bytes n)).setCarry b).value (.single r) = n % 2 ^ s.nBits := by
  simp [State.value, pow_256, State.nBits, Width.bits]

/-- A format has at most as many digits as bits (R200). -/
theorem digitCount_le {bu dw : Nat} (hdw : 1 ≤ dw) (hle : dw ≤ bu) : digitCount bu dw ≤ bu := by
  rw [digitCount]
  refine Nat.div_le_of_le_mul ?_
  obtain ⟨e, rfl⟩ := Nat.exists_eq_add_of_le hdw
  obtain ⟨b, rfl⟩ := Nat.exists_eq_add_of_le (hdw.trans hle)
  ring_nf
  omega

section

variable {s : State} (hs : s.RegsSized)

include hs

theorem value_single_lt (r : SReg) : s.value (.single r) < 2 ^ s.nBits := value_lt hs (.single r)

theorem toBytes_value_single (r : SReg) : toBytes s.params.width.bytes (s.value (.single r)) = s.single r :=
  toBytes_value hs (.single r)

/-- All that the loop of NORM does to a register under a legal format (R202). -/
theorem normLoop_state (hfmt : s.FormatLegal) (rd : SReg) : ∃ cnt ≤ digitCount s.bitsUsed s.digitWidth,
    normLoop s.nBits s.digitWidth (digitCount s.bitsUsed s.digitWidth) 0 (s.single rd) =
      (cnt, toBytes s.params.width.bytes (s.value (.single rd) * 2 ^ (s.digitWidth * cnt))) ∧
    s.value (.single rd) * 2 ^ (s.digitWidth * cnt) < 2 ^ s.nBits ∧
    (∀ j < cnt, s.value (.single rd) * 2 ^ (s.digitWidth * j) < 2 ^ (s.nBits - s.digitWidth)) ∧
    (cnt = digitCount s.bitsUsed s.digitWidth ∨
      2 ^ (s.nBits - s.digitWidth) ≤ s.value (.single rd) * 2 ^ (s.digitWidth * cnt)) := by
  obtain ⟨-, -, hle, hbits⟩ := hfmt
  have hlen := single_length hs rd
  have hn : 8 * (s.single rd).length = s.nBits := by rw [hlen]; rfl
  obtain ⟨cnt, hcnt, hloop, hlt, hbefore, hend⟩ :=
    normLoop_spec s.digitWidth (digitCount s.bitsUsed s.digitWidth) 0 (s.single rd) (by omega)
  rw [hn] at hloop hlt hbefore hend
  rw [hlen, Nat.zero_add] at hloop
  exact ⟨cnt, hcnt, hloop, hlt, hbefore, hend⟩

end

theorem digitCount_le_63 {s : State} (hfmt : s.FormatLegal) : digitCount s.bitsUsed s.digitWidth ≤ 63 := by
  obtain ⟨-, hdw, hle, -⟩ := hfmt
  have hbu : s.bitsUsed < 64 := BitVec.isLt _
  have := digitCount_le hdw hle
  omega

/-! ### UNHIDE and HIDE under a hidden-one format (R203, R204) -/

section

variable {s : State} (hs : s.RegsSized) (hf : s.f = false) (hh : s.hiddenOne = true) (rd : SReg)

include hs hf hh

theorem exec_unhide_hidden : exec (.unhide rd) s = .next ((s.setSingle rd (toBytes s.params.width.bytes
    (2 ^ (s.nBits - 1) + s.value (.single rd) / 2))).setCarry ((s.value (.single rd)).testBit 0)) := by
  obtain ⟨hout, hval⟩ := shiftRight1_out true (reg_ne_nil hs (.single rd))
  have hlen := single_length hs rd
  have hlt := unsigned_lt (shiftRight1 true (s.single rd)).2
  rw [reg_single] at hout hval
  rw [hval, length_shiftRight1, hlen, Bool.toNat_true, mul_one, Nat.add_comm] at hlt
  rw [hlen, Bool.toNat_true, mul_one, Nat.add_comm] at hval
  have hbytes := eq_toBytes (hlen ▸ length_shiftRight1 true (s.single rd)) (hval.trans (Nat.mod_eq_of_lt hlt).symm)
  rw [exec_unhide, runCommand_ok hf, if_pos hh, hbytes, hout]
  rfl

theorem exec_hide_hidden : exec (.hide rd) s = .next ((s.setSingle rd (toBytes s.params.width.bytes
    (2 * s.value (.single rd) % 2 ^ s.nBits))).setCarry ((s.value (.single rd)).testBit (s.nBits - 1))) := by
  have hshift : shiftLeft1 false (s.reg (.single rd)) = _ := shiftLeftBy_eq false 1 false (reg_ne_nil hs (.single rd))
  rw [reg_single] at hshift
  have hlen := single_length hs rd
  have hbits : 1 ≤ 8 * s.params.width.bytes := by
    have := zero_lt_bytes s.params.width
    omega
  rw [exec_hide, runCommand_ok hf, if_pos hh, hshift, hlen, if_neg one_ne_zero, if_pos hbits]
  simp only [Bool.false_eq_true, if_false, pow_one, add_zero, Nat.mul_comm _ 2]
  rfl

end

end Sys2Proof.Machine
end

section

open Sys2Proof Sys2Proof.Machine

/-! ### Moving data -/

/-- Settles O25: SET completes exactly on a payload of the register's width. -/
theorem setLoadsItsPayload : Obligations.SetLoadsItsPayload := by
  intro s rd lit hf
  refine ⟨encZ1_eq_placed 1#5 rd, fun h => ?_, fun h => ?_⟩ <;> rw [exec_set]
  · rw [if_pos h, runCommand_ok hf]
  · rw [if_neg h, runCommand_error hf]

/-- Settles O26: the bytes of a register are its value in bytes. -/
theorem getEmitsTheRegister : Obligations.GetEmitsTheRegister := by
  intro s rd hs hf
  refine ⟨encZ1_eq_placed 2#5 rd, ?_⟩
  rw [exec_get, runCommand_ok hf, toBytes_value hs]

/-- Settles O27: the width rule decides between the copy and the fault. -/
theorem copyMovesEqualWidths : Obligations.CopyMovesEqualWidths := by
  intro s rd rs hf
  refine ⟨encR2_eq_placed 3#5 rd rs, fun h => ?_, fun h => ?_⟩ <;> rw [exec_copy, requireSameWidth_eq]
  · rw [if_pos h]
    exact runCommand_ok hf
  · rw [if_neg h]
    exact runCommand_error hf

/-- Settles O28: the halves by value. -/
theorem halvesAreReadByValue : Obligations.HalvesAreReadByValue := by
  intro s rd rs hs hf
  refine ⟨encR2_eq_placed 4#5 (.single rd) (.double rs), encR2_eq_placed 5#5 (.single rd) (.double rs), ?_, ?_⟩
  · rw [exec_geth, runCommand_ok hf, high_eq_toBytes hs]
  · rw [exec_getl, runCommand_ok hf, low_eq_toBytes hs]

/-- Settles O29: a write through the view of one half. -/
theorem halvesAreWrittenInPlace : Obligations.HalvesAreWrittenInPlace := by
  intro s rd rs hs hf
  refine ⟨encR2_eq_placed 6#5 (.double rd) (.single rs), encR2_eq_placed 7#5 (.double rd) (.single rs), ?_, ?_⟩
  · rw [exec_puth, runCommand_ok hf, setHigh_eq hs rd (single_length hs rs)]
    rfl
  · rw [exec_putl, runCommand_ok hf, setLow_eq hs rd (single_length hs rs)]
    rfl

/-! ### Add and subtract -/

/-- Settles O30: the width rule, then the carry chain of `badd` on the extended operand. -/
theorem addComputesSumAndCarry : Obligations.AddComputesSumAndCarry := by
  intro s rd rs hs hf w n a b
  refine ⟨encR2_eq_placed 8#5 rd rs, fun h => ?_, fun h => ?_⟩ <;> rw [exec_add]
  · rw [addSub_error badd h, runCommand_error hf]
  · have hle : (s.reg rs).length ≤ (s.reg rd).length := by rwa [reg_length hs, reg_length hs]
    rw [addSub_ok badd h, runCommand_ok hf, performBinOp_badd _ _ _ hle, reg_length hs, ← toBytes_mod, pow_256]
    rfl

/-- Settles O31: the width rule, then the borrow chain of `bsub` on the extended operand. -/
theorem subComputesDifferenceAndBorrow : Obligations.SubComputesDifferenceAndBorrow := by
  intro s rd rs hs hf w n a b
  refine ⟨encR2_eq_placed 9#5 rd rs, fun h => ?_, fun h => ?_⟩ <;> rw [exec_sub]
  · rw [addSub_error bsub h, runCommand_error hf]
  · have hle : (s.reg rs).length ≤ (s.reg rd).length := by rwa [reg_length hs, reg_length hs]
    rw [addSub_ok bsub h, runCommand_ok hf, performBinOp_bsub _ _ _ hle, reg_length hs, ← toBytes_mod, pow_256]
    rfl

/-- Settles O32: the operand check, then the carry chain of `badd` over the high half. -/
theorem addhAddsIntoTheHighHalf : Obligations.AddhAddsIntoTheHighHalf := by
  intro s rd rs trunc hs hf m h l o
  obtain ⟨hfault, hdone⟩ := addSubHigh_cases hs badd rd rs trunc
  refine ⟨encRH_eq_placed 10#5 (.double rd) rs trunc, fun hb => ?_, fun hb => ?_⟩ <;> rw [exec_addh]
  · rw [hfault hb, runCommand_error hf]
  · obtain ⟨v, hlen, hval, hrun⟩ := hdone hb
    have hext : extValue s.params.ext v (s.high rd).length = o := by rw [← hlen, extValue_same, hval]
    rw [hrun, runCommand_ok hf, performBinOp_badd _ _ _ hlen.le, hext, unsigned_high hs, high_length hs, pow_256,
      setHigh_eq hs rd (length_toBytes _ _), unsigned_toBytes, pow_256]
    rfl

/-- Settles O33: the operand check, then the borrow chain of `bsub` over the high half. -/
theorem subhSubtractsFromTheHighHalf : Obligations.SubhSubtractsFromTheHighHalf := by
  intro s rd rs trunc hs hf m h l o
  obtain ⟨hfault, hdone⟩ := addSubHigh_cases hs bsub rd rs trunc
  refine ⟨encRH_eq_placed 11#5 (.double rd) rs trunc, fun hb => ?_, fun hb => ?_⟩ <;> rw [exec_subh]
  · rw [hfault hb, runCommand_error hf]
  · obtain ⟨v, hlen, hval, hrun⟩ := hdone hb
    have hext : extValue s.params.ext v (s.high rd).length = o := by rw [← hlen, extValue_same, hval]
    rw [hrun, runCommand_ok hf, performBinOp_bsub _ _ _ hlen.le, hext, unsigned_high hs, high_length hs, pow_256,
      setHigh_eq hs rd (length_toBytes _ _), unsigned_toBytes, pow_256]
    rfl

/-! ### Shifts and bits -/

/-- Settles O36: the repeated one-bit shift in closed form. -/
theorem shlShiftsAndReportsTheLastBit : Obligations.ShlShiftsAndReportsTheLastBit := by
  intro s rd fill amt hs hf w n v k
  refine ⟨(encSH_eq_placed 12#5 rd _ amt).trans (by rw [placed_shlFill]; rfl), ?_⟩
  rw [exec_shl, runCommand_ok hf, shiftLeftBy_eq fill amt.toNat s.c (reg_ne_nil hs rd), reg_length hs]
  rfl

/-- Settles O37: the repeated one-bit shift in closed form; under the sign fill it is the floor division of the signed value. -/
theorem shrShiftsAndReportsTheLastBit : Obligations.ShrShiftsAndReportsTheLastBit := by
  intro s rd fill amt hs hf w n v k
  refine ⟨encSH_eq_placed 13#5 rd fill.field amt, ?_⟩
  have hsign := intBytes_signed_div amt.toNat (s.reg rd)
  rw [reg_length hs] at hsign
  rw [exec_shr, runCommand_ok hf, shiftRightBy_eq fill amt.toNat s.c (reg_ne_nil hs rd), reg_length hs]
  cases fill with
  | zero => rfl
  | one => rfl
  | sign =>
    rw [hsign]
    rfl

/-- Settles O38: the two index checks, then the bit of the whole register. -/
theorem btstCopiesTheBit : Obligations.BtstCopiesTheBit := by
  intro s rd bi k hs hf w
  have hlen := reg_length hs rd
  refine ⟨encBI_eq_placed 16#5 rd bi k, fun h => ?_, fun ⟨hbi, hk⟩ => ?_⟩ <;> rw [exec_btst] <;>
    rcases requireByte_cases s rd bi.toNat with ⟨hin, he⟩ | ⟨hout, he⟩ <;> rw [he]
  · rw [except_ok_bind, bget_error _ (by omega)]
    exact runCommand_error hf
  · exact runCommand_error hf
  · rw [except_ok_bind, bget_ok _ hk, byteAt_testBit _ (by omega) hk, hlen]
    exact runCommand_ok hf
  · omega

/-! ### Mantissa and control registers -/

/-- Settles O55: the range check, then the low 11 bits of the word. -/
theorem setfmtWritesALegalFormat : Obligations.SetfmtWritesALegalFormat := by
  intro s h bu dw hf
  refine ⟨encFM_eq_placed 21#5 h bu dw, fun hr => ?_, fun hr => ?_⟩ <;> rw [exec_setfmt]
  · rw [if_pos hr, runCommand_ok hf, encodeWord, encFM_format]
    rfl
  · rw [if_neg hr, runCommand_error hf]

/-- Settles O56: the loop of NORM in closed form. -/
theorem normShiftsToTheFirstDigit : Obligations.NormShiftsToTheFirstDigit := by
  intro s rd hwf hf v dw digits
  obtain ⟨hs, hfmt, -, -⟩ := hwf
  obtain ⟨cnt, hcnt, hloop, hlt, hbefore, hend⟩ := normLoop_state hs hfmt rd
  refine ⟨encZ1_eq_placed 22#5 (.single rd), cnt, hcnt, hbefore, hend, hlt, ?_⟩
  rw [exec_norm, runCommand_ok hf, hloop]
  rfl

/-- Settles O57: the loop of NORM stops at once on a non-zero top digit, and runs to the digit count on zero. -/
theorem normIsIdempotent : Obligations.NormIsIdempotent := by
  intro s rd hwf hf v dw digits
  obtain ⟨hs, hfmt, -, -⟩ := hwf
  obtain ⟨cnt, hcnt, hloop, hlt, hbefore, hend⟩ := normLoop_state hs hfmt rd
  have hexec : exec (.norm rd) s = .next ((s.setSingle rd
      (toBytes s.params.width.bytes (v * 2 ^ (dw * cnt)))).setCnt cnt) := by
    rw [exec_norm, runCommand_ok hf, hloop]
  have hself : s.setSingle rd (toBytes s.params.width.bytes v) = s := by
    rw [toBytes_value_single hs, setSingle_self]
  have hpow : 0 < 2 ^ (s.nBits - dw) := by positivity
  have hval : ((s.setSingle rd (toBytes s.params.width.bytes (v * 2 ^ (dw * cnt)))).setCnt cnt).value (.single rd) =
      v * 2 ^ (dw * cnt) := by
    simp only [State.value, setCnt_reg, setSingle_reg, if_true, unsigned_toBytes, pow_256]
    exact Nat.mod_eq_of_lt hlt
  have hcount : (BitVec.ofNat 8 cnt).toNat = cnt := by
    have := digitCount_le_63 hfmt
    rw [BitVec.toNat_ofNat, Nat.mod_eq_of_lt (by omega)]
  refine ⟨fun htop => ?_, fun hzero => ?_, _, hexec, ?_, ?_⟩
  · have hcnt0 : cnt = 0 := by
      by_contra hne
      have := hbefore 0 (Nat.pos_of_ne_zero hne)
      simp only [mul_zero, pow_zero, mul_one] at this
      exact absurd htop (not_le.mpr this)
    rw [hexec, hcnt0, mul_zero, pow_zero, mul_one, hself]
    rfl
  · have hfull : cnt = digits := hend.resolve_right (by
      rw [show s.value (.single rd) = 0 from hzero, zero_mul]
      exact not_le.mpr hpow)
    rw [hexec, hzero, zero_mul, ← hfull, ← hzero, hself]
    rfl
  · rw [setCnt_cnt, hcount, hval]
    exact hend.symm
  · rw [setCnt_cnt, hcount, hval]

/-- Settles O58: one right shift with a 1 on top. -/
theorem unhideRestoresTheLeadingOne : Obligations.UnhideRestoresTheLeadingOne := by
  intro s rd hs hf v
  refine ⟨encZ1_eq_placed 23#5 (.single rd), fun h => exec_unhide_hidden hs hf h rd, fun h => ?_⟩
  rw [exec_unhide, runCommand_ok hf, State.hiddenOne, h]
  rfl

/-- Settles O59: one left shift with a 0 below; after UNHIDE the bit that leaves is the one that UNHIDE put there. -/
theorem hideDropsTheLeadingBit : Obligations.HideDropsTheLeadingBit := by
  intro s rd hs hf v
  refine ⟨encZ1_eq_placed 24#5 (.single rd), fun h => exec_hide_hidden hs hf h rd, fun h => ?_, fun h => ?_⟩
  · rw [exec_hide, runCommand_ok hf, State.hiddenOne, h]
    rfl
  · have hsized : ((s.setSingle rd (toBytes s.params.width.bytes (2 ^ (s.nBits - 1) + v / 2))).setCarry
        (v.testBit 0)).RegsSized := setReg_regsSized hs (.single rd) (length_toBytes _ _)
    refine ⟨_, _, exec_unhide_hidden hs hf h rd, exec_hide_hidden hsized (by simpa using hf)
      (by simpa [State.hiddenOne] using h) rd, ?_⟩
    have hn : 2 ^ s.nBits = 2 * 2 ^ (s.nBits - 1) := by
      rw [← pow_succ', Nat.sub_add_cancel]
      have := zero_lt_bytes s.params.width
      simp only [State.nBits, Width.bits]
      omega
    have hv : v < 2 ^ s.nBits := value_single_lt hs rd
    simp only [value_setSingle_setCarry, nBits_setSingle_setCarry]
    rw [hn] at hv ⊢
    generalize 2 ^ (s.nBits - 1) = m at hv ⊢
    have hmod : (m + v / 2) % (2 * m) = m + v / 2 := Nat.mod_eq_of_lt (by omega)
    rw [hmod, show 2 * (m + v / 2) = v / 2 * 2 + 2 * m by ring, Nat.add_mod_right, Nat.mod_mod]
    exact Nat.mod_eq_of_lt (by omega)

/-- Settles O60: the bytes of each control register. -/
theorem getsAppendsTheControlRegister : Obligations.GetsAppendsTheControlRegister := by
  intro s sel
  refine ⟨encGS_eq_placed 25#5 sel.field, ?_⟩
  rw [exec_gets]
  cases sel with
  | status => rw [State.control, status_eq]; rfl
  | cause => rfl
  | cnt => rfl
  | mfmt => rw [State.control, wordBytes_eq]; rfl
  | fcmd => rw [State.control, wordBytes_eq]; rfl

end


section
/-! What one command and one step can do, seen from the state they answer; what they leave as it was (70_reset_and_hazards.md
R266, 10_state.md sections 4 to 8) and which faults they raise (60_exceptions.md R234). -/

namespace Sys2Proof.Machine

open Sys2Proof

/-- The state a command answers is one it completes in, the fault state before it included, or its fault entry. -/
theorem exec_completes_or_faults {i : Instr} {s t : State} (h : exec i s = .next t) :
    Completes i s t ∨ (s.f = false ∧ ∃ x, t = takeFault x (encodeWord i) s ∧
      (x ∈ Instr.mayRaise i ∨ (x = .illegalCommand ∧ i.wellFormed s.params.width = false))) := by
  rcases exec_cases i s with ⟨sel, rfl, hx⟩ | ⟨-, -, hx⟩ | ⟨-, -, u, hx, hu⟩ | ⟨-, hf, x, hx, hmay⟩ <;>
    obtain rfl := Host.Outcome.next.inj (hx.symm.trans h)
  · exact .inl (completes_emit s _ rfl)
  · exact .inl (completes_refl i s)
  · exact .inl hu
  · exact .inr ⟨hf, x, rfl, hmay⟩

theorem exec_answers (i : Instr) (s : State) : ∃ t, exec i s = .next t := by
  rcases exec_cases i s with ⟨_, -, hx⟩ | ⟨-, -, hx⟩ | ⟨-, -, _, hx, -⟩ | ⟨-, -, _, hx, -⟩ <;> exact ⟨_, hx⟩

theorem rejectCommand_answers (w : Word) (s : State) :
    (s.f = true ∧ rejectCommand w s = .next s) ∨
    (s.f = false ∧ rejectCommand w s = .next (takeFault .illegalCommand w s)) := by
  cases hf : s.f with
  | true => exact .inl ⟨rfl, rejectCommand_ignored hf w⟩
  | false => exact .inr ⟨rfl, runCommand_error hf⟩

/-- The state a step answers: the same, the reset state, what an instruction makes of the state in which its command has been
taken, or what the rejection of a command makes of it. -/
theorem step_answers {s t : State} (h : step s = .next t) :
    (s.pending = [] ∧ t = s) ∨
    (∃ rest, s.pending = .reset :: rest ∧ t = applyReset { s with pending := rest }) ∨
    (∃ c rest, s.pending = .command c :: rest ∧
      ((∃ i, exec i (s.taken rest 1) = .next t) ∨ rejectCommand c.word (s.taken rest 1) = .next t)) := by
  rcases step_cases s with ⟨hp, hx⟩ | ⟨rest, hp, hx⟩ | ⟨c, rest, i, hp, -, hx⟩ | ⟨c, rest, -, hp, -, hx⟩
  · exact .inl ⟨hp, Host.Outcome.next.inj (h.symm.trans hx)⟩
  · exact .inr (.inl ⟨rest, hp, Host.Outcome.next.inj (h.symm.trans hx)⟩)
  · exact .inr (.inr ⟨c, rest, hp, .inl ⟨i, hx.symm.trans h⟩⟩)
  · exact .inr (.inr ⟨c, rest, hp, .inr (hx.symm.trans h)⟩)

/-- A property that does not see the host's list, and that reset, instructions and fault entries keep, is kept by a step. -/
theorem step_keeps {P : State → Prop} (htaken : ∀ s rest n, P s → P (s.taken rest n)) (hreset : ∀ s, P (applyReset s))
    (hexec : ∀ {i s t}, P s → exec i s = .next t → P t) (hfault : ∀ s w, P s → P (takeFault .illegalCommand w s))
    {s t : State} (hs : P s) (h : step s = .next t) : P t := by
  rcases step_answers h with ⟨-, rfl⟩ | ⟨rest, -, rfl⟩ | ⟨c, rest, -, ⟨i, hx⟩ | hx⟩
  · exact hs
  · exact hreset _
  · exact hexec (htaken s rest 1 hs) hx
  · rcases rejectCommand_answers c.word (s.taken rest 1) with ⟨-, he⟩ | ⟨-, he⟩ <;>
      obtain rfl := Host.Outcome.next.inj (he.symm.trans hx)
    · exact htaken s rest 1 hs
    · exact hfault _ _ (htaken s rest 1 hs)

/-- No command changes the parameters or the host's list and count. -/
theorem exec_keeps_host {i : Instr} {s t : State} (h : exec i s = .next t) :
    t.params = s.params ∧ t.pending = s.pending ∧ t.index = s.index := by
  rcases exec_completes_or_faults h with hc | ⟨-, x, rfl, -⟩
  · exact ⟨hc.params, hc.pending, hc.index⟩
  · exact ⟨rfl, rfl, rfl⟩

theorem rejectCommand_keeps_host {w : Word} {s t : State} (h : rejectCommand w s = .next t) :
    t.params = s.params ∧ t.pending = s.pending ∧ t.index = s.index := by
  rcases rejectCommand_answers w s with ⟨-, hx⟩ | ⟨-, hx⟩ <;> obtain rfl := Host.Outcome.next.inj (hx.symm.trans h) <;>
    exact ⟨rfl, rfl, rfl⟩

theorem illegalCommand_notMem_mayRaise (i : Instr) : Cause.illegalCommand ∉ Instr.mayRaise i := by
  cases i <;> simp [Instr.mayRaise]

/-- The two terms that are no command: SET with a payload of another length, DIV with one destination (R227). -/
theorem exec_of_not_wellFormed {i : Instr} {s : State} (hf : s.f = false) (h : i.wellFormed s.params.width = false) :
    exec i s = .next (takeFault .illegalCommand (encodeWord i) s) := by
  cases i with
  | set rd lit =>
    obtain ⟨-, -, hbad⟩ := setLoadsItsPayload s rd lit hf
    exact hbad (by simpa [Instr.wellFormed, State.widthOf] using h)
  | div rd rs rt rem =>
    obtain rfl : rd = rem := by simpa [Instr.wellFormed] using h
    exact (congrArg (runCommand _ s) (if_pos rfl)).trans (runCommand_error hf)
  | _ => simp [Instr.wellFormed] at h

end Sys2Proof.Machine
end

section

open Sys2Proof Sys2Proof.Machine

/-! ### Steps -/

/-- Settles O5: the decoder's answer is what the step carries out. -/
theorem stepRunsTheDecodedCommand : Obligations.StepRunsTheDecodedCommand := by
  intro s c rest i hp hd
  rw [step_command hp, stepCommand_ok (s := s.taken rest 1) hd]

/-- Settles O7: the step takes `rst` off the list and applies it. -/
theorem stepTakesReset : Obligations.StepTakesReset := by
  intro s rest hp
  rw [step, fetch, hp]
  rfl

/-- Settles O12: a command keeps parameters, list and count, so a step changes them only by taking an event. -/
theorem stepTakesOneEventInOrder : Obligations.StepTakesOneEventInOrder := by
  refine ⟨fun s t h => ?_, fun s hp => by rw [step, fetch, hp]⟩
  rcases step_answers h with ⟨hp, rfl⟩ | ⟨rest, hp, rfl⟩ | ⟨c, rest, hp, ⟨i, hx⟩ | hx⟩ <;> rw [hp]
  · exact ⟨rfl, rfl, rfl⟩
  · exact ⟨rfl, rfl, rfl⟩
  · exact exec_keeps_host hx
  · exact rejectCommand_keeps_host hx

/-- Settles O13: each of the things a command or a step can do answers a state. -/
theorem everyCommandAnswersANextState : Obligations.EveryCommandAnswersANextState := by
  refine ⟨exec_answers, fun s => ?_⟩
  rcases step_cases s with ⟨-, hx⟩ | ⟨_, -, hx⟩ | ⟨c, rest, i, -, -, hx⟩ | ⟨c, rest, -, -, -, hx⟩
  · exact ⟨_, hx⟩
  · exact ⟨_, hx⟩
  · rw [hx]
    exact exec_answers i _
  · rw [hx]
    rcases rejectCommand_answers c.word (s.taken rest 1) with ⟨-, he⟩ | ⟨-, he⟩ <;> exact ⟨_, he⟩

/-! ### Faults -/

/-- Settles O17: a fault that a command raises is of its row unless the term is ill formed. -/
theorem commandRaisesOnlyItsOwnFaults : Obligations.CommandRaisesOnlyItsOwnFaults := by
  refine fun i s hf => ⟨fun hwf x h => ?_, exec_of_not_wellFormed hf⟩
  rcases exec_completes_or_faults h with hc | ⟨-, y, he, hmay | ⟨-, hbad⟩⟩
  · exact absurd hc.fault (by simp [hf])
  · exact takeFault_inj he ▸ hmay
  · exact absurd hwf (by simp [hbad])

/-- Settles O6: the decoder refuses exactly the commands no row accepts, and a command that decodes is well formed, so it
raises only faults of its row. -/
theorem malformedCommandRaisesIllegalCommand : Obligations.MalformedCommandRaisesIllegalCommand := by
  intro s c rest hp hf
  obtain ⟨hiff, -⟩ := decoderAcceptsExactlyTheOpcodeMap s.params.width c
  rw [step_command hp]
  refine ⟨fun hno => ?_, fun hyes => ?_⟩
  · cases hd : decode s.params.width c with
    | ok i => exact absurd (hiff.mp ⟨i, hd⟩) (by simp [hno])
    | error e =>
      rw [stepCommand_error (s := s.taken rest 1) hd]
      exact runCommand_error (s := s.taken rest 1) hf
  · obtain ⟨i, hd⟩ := hiff.mpr hyes
    obtain ⟨-, hwf⟩ := encodeOfDecodeIsTheCommand s.params.width c i hd
    refine ⟨i, stepCommand_ok (s := s.taken rest 1) hd, fun h => ?_⟩
    rw [← encodeWord_of_decode hd] at h
    obtain ⟨hown, -⟩ := commandRaisesOnlyItsOwnFaults i (s.taken rest 1) hf
    exact illegalCommand_notMem_mayRaise i (hown hwf _ h)

/-! ### Frames -/

/-- Settles O18: a completed command writes only its destinations, a fault entry no register. -/
theorem onlyNamedDestinationsChange : Obligations.OnlyNamedDestinationsChange := by
  intro i s t h r hr
  rcases exec_completes_or_faults h with hc | ⟨-, x, rfl, -⟩
  · exact hc.regs r hr
  · exact takeFault_reg s x _ r

/-- Settles O19: a completed command outside the list and a fault entry leave C. -/
theorem carryChangesOnlyWhereListed : Obligations.CarryChangesOnlyWhereListed := by
  refine ⟨fun i s t h hw => ?_, status_eq⟩
  rcases exec_completes_or_faults h with hc | ⟨-, x, rfl, -⟩
  · exact hc.carry hw
  · rfl

/-- Settles O20: a completed command leaves CAUSE and FCMD; a fault entry changes F. -/
theorem controlRegistersChangeOnlyWhereListed : Obligations.ControlRegistersChangeOnlyWhereListed := by
  intro i s t h
  rcases exec_completes_or_faults h with hc | ⟨hf, x, rfl, -⟩
  · exact ⟨hc.cnt, hc.mfmt, fun _ => ⟨hc.cause, hc.fcmd⟩⟩
  · exact ⟨fun _ => rfl, fun _ => rfl, fun hkept => by simp [hf] at hkept⟩

/-- Settles O21: what a completed command appends; a command that ends with F = 1 was ignored, is GETS, or has faulted. -/
theorem logsOnlyGrow : Obligations.LogsOnlyGrow := by
  intro i s t h
  rcases exec_completes_or_faults h with hc | ⟨-, x, rfl, -⟩
  · obtain ⟨out, hout, hemits⟩ := hc.dout
    obtain ⟨recs, hrecs, htraces⟩ := hc.trace
    refine ⟨⟨out, hout⟩, ⟨recs, hrecs⟩, fun he => by rw [hout, hemits he, List.append_nil],
      fun ht => by rw [hrecs, htraces ht, List.append_nil], fun hf => ?_⟩
    by_cases hi : ∃ sel, i = .gets sel
    · obtain ⟨sel, rfl⟩ := hi
      rw [hrecs, htraces rfl, List.append_nil]
    · obtain rfl := Host.Outcome.next.inj ((exec_ignored (hc.fault ▸ hf) (not_exists.mp hi)).symm.trans h)
      rfl
  · exact ⟨⟨[], by simp⟩, ⟨[], by simp⟩, fun _ => rfl, fun _ => rfl, fun _ => rfl⟩

end


section
/-! The invariant of a command boundary and the shape of TRACE, kept by every command and every step (10_state.md sections 2, 5
and 7). -/

namespace Sys2Proof.Machine

open Sys2Proof

/-! ### After reset -/

theorem resetWith_formatLegal (p : Params) : (State.resetWith p).FormatLegal := by
  have hdigits : (State.resetWith p).digitWidth = 4 := by
    rw [State.digitWidth, resetWith_mfmt]
    decide
  have hbits : (State.resetWith p).bitsUsed = 12 := by
    rw [State.bitsUsed, resetWith_mfmt]
    decide
  refine ⟨by rw [resetWith_mfmt]; decide, by omega, by omega, ?_⟩
  have := Width.bytes_pos p.width
  rw [hbits, State.nBits, resetWith_params, Width.bits]
  omega

theorem resetWith_wf (p : Params) : (State.resetWith p).WF := by
  refine ⟨(regsSized_iff _).mpr fun r => ?_, resetWith_formatLegal p, Nat.zero_le _, fun _ => ⟨rfl, rfl⟩, fun h => ?_⟩
  · rw [resetWith_reg, List.length_replicate, State.widthOf, resetWith_params]
  · simp at h

/-- The invariant does not see the host's list and count, so a reset in any state establishes it. -/
theorem applyReset_wf (s : State) : (applyReset s).WF := resetWith_wf s.params

/-! ### Register widths -/

section

variable {s : State} (hs : s.RegsSized)

include hs

theorem setSingle_regsSized (r : SReg) {v : Register} (hv : v.length = s.params.width.bytes) :
    (s.setSingle r v).RegsSized := setReg_regsSized hs (.single r) hv

theorem setDouble_regsSized (r : DReg) {v : Register} (hv : v.length = 2 * s.params.width.bytes) :
    (s.setDouble r v).RegsSized := setReg_regsSized hs (.double r) hv

theorem finishDiv_regsSized (rd rem : SReg) (u : QuoRem × List StepRecord) : (finishDiv s rd rem u).RegsSized :=
  setSingle_regsSized (setSingle_regsSized hs rd (length_snap1 _)) rem (by simp)

/-- Under a legal format every command that is carried out leaves the registers their widths: the closed forms of the commands
write as many bytes as the register has. -/
theorem exec_sized (hfmt : s.FormatLegal) (hf : s.f = false) (i : Instr) : ∃ t, exec i s = .next t ∧ t.RegsSized := by
  cases i with
  | set rd lit =>
    obtain ⟨-, hok, hbad⟩ := setLoadsItsPayload s rd lit hf
    by_cases h : lit.length = s.widthOf rd
    · exact ⟨_, hok h, setReg_regsSized hs rd h⟩
    · exact ⟨_, hbad h, hs⟩
  | get rd => exact ⟨_, (getEmitsTheRegister s rd hs hf).2, hs⟩
  | copy rd rs =>
    obtain ⟨-, hok, hbad⟩ := copyMovesEqualWidths s rd rs hf
    by_cases h : s.widthOf rd = s.widthOf rs
    · exact ⟨_, hok h, setReg_regsSized hs rd ((reg_length hs rs).trans h.symm)⟩
    · exact ⟨_, hbad h, hs⟩
  | geth rd rs =>
    obtain ⟨-, -, hok, -⟩ := halvesAreReadByValue s rd rs hs hf
    exact ⟨_, hok, setSingle_regsSized hs rd (length_toBytes _ _)⟩
  | getl rd rs =>
    obtain ⟨-, -, -, hok⟩ := halvesAreReadByValue s rd rs hs hf
    exact ⟨_, hok, setSingle_regsSized hs rd (length_toBytes _ _)⟩
  | puth rd rs =>
    obtain ⟨-, -, hok, -⟩ := halvesAreWrittenInPlace s rd rs hs hf
    exact ⟨_, hok, setDouble_regsSized hs rd (length_toBytes _ _)⟩
  | putl rd rs =>
    obtain ⟨-, -, -, hok⟩ := halvesAreWrittenInPlace s rd rs hs hf
    exact ⟨_, hok, setDouble_regsSized hs rd (length_toBytes _ _)⟩
  | add rd rs =>
    obtain ⟨-, hbad, hok⟩ := addComputesSumAndCarry s rd rs hs hf
    rcases Nat.lt_or_ge (s.widthOf rd) (s.widthOf rs) with h | h
    · exact ⟨_, hbad h, hs⟩
    · exact ⟨_, hok h, setReg_regsSized hs rd (length_toBytes _ _)⟩
  | sub rd rs =>
    obtain ⟨-, hbad, hok⟩ := subComputesDifferenceAndBorrow s rd rs hs hf
    rcases Nat.lt_or_ge (s.widthOf rd) (s.widthOf rs) with h | h
    · exact ⟨_, hbad h, hs⟩
    · exact ⟨_, hok h, setReg_regsSized hs rd (length_toBytes _ _)⟩
  | addh rd rs trunc =>
    obtain ⟨-, hbad, hok⟩ := addhAddsIntoTheHighHalf s rd rs trunc hs hf
    by_cases h : 2 ^ s.nBits ≤ s.value rs ∧ trunc = false
    · exact ⟨_, hbad h, hs⟩
    · exact ⟨_, hok h, setDouble_regsSized hs rd (length_toBytes _ _)⟩
  | subh rd rs trunc =>
    obtain ⟨-, hbad, hok⟩ := subhSubtractsFromTheHighHalf s rd rs trunc hs hf
    by_cases h : 2 ^ s.nBits ≤ s.value rs ∧ trunc = false
    · exact ⟨_, hbad h, hs⟩
    · exact ⟨_, hok h, setDouble_regsSized hs rd (length_toBytes _ _)⟩
  | shl rd fill amt =>
    exact ⟨_, (exec_shl rd fill amt s).trans (runCommand_ok hf), setReg_regsSized hs rd (by simp [reg_length hs])⟩
  | shr rd fill amt =>
    exact ⟨_, (exec_shr rd fill amt s).trans (runCommand_ok hf), setReg_regsSized hs rd (by simp [reg_length hs])⟩
  | neg rd => exact ⟨_, (negComputesTheTwosComplement s rd hs hf).2, setReg_regsSized hs rd (length_toBytes _ _)⟩
  | not rd => exact ⟨_, (notComputesTheComplement s rd hs hf).2, setReg_regsSized hs rd (length_toBytes _ _)⟩
  | btst rd bi k =>
    obtain ⟨-, hbad, hok⟩ := btstCopiesTheBit s rd bi k hs hf
    by_cases h : bi.toNat < s.widthOf rd ∧ k.toNat ≤ 7
    · exact ⟨_, hok h, hs⟩
    · exact ⟨_, hbad (by omega), hs⟩
  | bset rd bi k =>
    obtain ⟨-, hbad, hok⟩ := bsetSetsTheBit s rd bi k hs hf
    by_cases h : bi.toNat < s.widthOf rd ∧ k.toNat ≤ 7
    · exact ⟨_, hok h, setReg_regsSized hs rd (length_toBytes _ _)⟩
    · exact ⟨_, hbad (by omega), hs⟩
  | bclr rd bi k =>
    obtain ⟨-, hbad, hok⟩ := bclrClearsTheBit s rd bi k hs hf
    by_cases h : bi.toNat < s.widthOf rd ∧ k.toNat ≤ 7
    · exact ⟨_, hok h, setReg_regsSized hs rd (length_toBytes _ _)⟩
    · exact ⟨_, hbad (by omega), hs⟩
  | mulc rd rs rt => exact ⟨_, exec_mulc_ok hf rd rs rt, setDouble_regsSized hs rd (length_snap2 _)⟩
  | mulb rd rs rt => exact ⟨_, exec_mulb_ok hf rd rs rt, setDouble_regsSized hs rd (length_snap2 _)⟩
  | mulf rd rs rt => exact ⟨_, exec_mulf_ok hf rd rs rt, setDouble_regsSized hs rd (length_snap2 _)⟩
  | div rd rs rt rem =>
    rcases exec_div_cases hf rd rs rt rem with ⟨x, hx⟩ | ⟨u, -, -, hx⟩
    · exact ⟨_, hx, hs⟩
    · exact ⟨_, hx, finishDiv_regsSized hs rd rem u⟩
  | setfmt h bu dw =>
    obtain ⟨-, hok, hbad⟩ := setfmtWritesALegalFormat s h bu dw hf
    by_cases hr : 1 ≤ dw.toNat ∧ dw.toNat ≤ bu.toNat ∧ bu.toNat ≤ s.nBits
    · exact ⟨_, hok hr, hs⟩
    · exact ⟨_, hbad hr, hs⟩
  | norm rd =>
    obtain ⟨cnt, -, hloop, -⟩ := normLoop_state hs hfmt rd
    refine ⟨_, (exec_norm rd s).trans (runCommand_ok hf), ?_⟩
    rw [hloop]
    exact setSingle_regsSized hs rd (length_toBytes _ _)
  | unhide rd =>
    obtain ⟨-, hon, hoff⟩ := unhideRestoresTheLeadingOne s rd hs hf
    cases h : s.mfmt.getLsbD 10 with
    | true => exact ⟨_, hon h, setSingle_regsSized hs rd (length_toBytes _ _)⟩
    | false => exact ⟨_, hoff h, hs⟩
  | hide rd =>
    obtain ⟨-, hon, hoff, -⟩ := hideDropsTheLeadingBit s rd hs hf
    cases h : s.mfmt.getLsbD 10 with
    | true => exact ⟨_, hon h, setSingle_regsSized hs rd (length_toBytes _ _)⟩
    | false => exact ⟨_, hoff h, hs⟩
  | gets sel => exact ⟨_, exec_gets sel s, hs⟩

theorem exec_regsSized (hfmt : s.FormatLegal) {i : Instr} {t : State} (h : exec i s = .next t) : t.RegsSized := by
  cases hf : s.f with
  | false =>
    obtain ⟨u, hx, hu⟩ := exec_sized hs hfmt hf i
    obtain rfl := Host.Outcome.next.inj (hx.symm.trans h)
    exact hu
  | true =>
    by_cases hi : ∃ sel, i = .gets sel
    · obtain ⟨sel, rfl⟩ := hi
      obtain rfl := Host.Outcome.next.inj ((exec_gets sel s).symm.trans h)
      exact hs
    · obtain rfl := Host.Outcome.next.inj ((exec_ignored hf (not_exists.mp hi)).symm.trans h)
      exact hs

end

/-! ### The format, the count and the fault record -/

/-- The format that SETFMT accepts is legal (44_mantissa.md R201). -/
theorem encFM_formatLegal {s : State} {h : Bool} {bu : BitVec 6} {dw : BitVec 4} (hm : s.mfmt = encFM 0#5 h bu dw)
    (hr : 1 ≤ dw.toNat ∧ dw.toNat ≤ bu.toNat ∧ bu.toNat ≤ s.nBits) : s.FormatLegal := by
  obtain ⟨htop, -, hbits, hdigits⟩ := fields_encFM 0#5 h bu dw
  simp only [State.FormatLegal, State.digitWidth, State.bitsUsed, hm]
  simp only [fieldOf] at htop hbits hdigits
  rw [htop, hbits, hdigits]
  exact ⟨rfl, hr⟩

theorem formatLegal_of_eq {s t : State} (hfmt : s.FormatLegal) (hp : t.params = s.params) (hm : t.mfmt = s.mfmt) :
    t.FormatLegal := by
  simpa only [State.FormatLegal, State.digitWidth, State.bitsUsed, State.nBits, hp, hm] using hfmt

section

variable {i : Instr} {s t : State} (h : exec i s = .next t)

include h

theorem exec_formatLegal (hfmt : s.FormatLegal) : t.FormatLegal := by
  rcases exec_completes_or_faults h with hc | ⟨-, x, rfl, -⟩
  · by_cases hset : Instr.setsFormat i = true
    · cases i with
      | setfmt b bu dw =>
        cases hf : s.f with
        | true =>
          obtain rfl := Host.Outcome.next.inj ((exec_ignored hf (by simp)).symm.trans h)
          exact hfmt
        | false =>
          obtain ⟨-, hok, hbad⟩ := setfmtWritesALegalFormat s b bu dw hf
          by_cases hr : 1 ≤ dw.toNat ∧ dw.toNat ≤ bu.toNat ∧ bu.toNat ≤ s.nBits
          · obtain rfl := Host.Outcome.next.inj ((hok hr).symm.trans h)
            exact encFM_formatLegal (encFM_format 21#5 b bu dw) hr
          · obtain rfl := Host.Outcome.next.inj ((hbad hr).symm.trans h)
            exact hfmt
      | _ => simp [Instr.setsFormat] at hset
    · exact formatLegal_of_eq hfmt hc.params (hc.mfmt (by simpa using hset))
  · exact hfmt

theorem exec_countInRange (hs : s.RegsSized) (hfmt : s.FormatLegal) (hcnt : s.CountInRange) : t.CountInRange := by
  rcases exec_completes_or_faults h with hc | ⟨-, x, rfl, -⟩
  · by_cases hcounts : Instr.counts i = true
    · cases i with
      | norm rd =>
        cases hf : s.f with
        | true =>
          obtain rfl := Host.Outcome.next.inj ((exec_ignored hf (by simp)).symm.trans h)
          exact hcnt
        | false =>
          obtain ⟨cnt, hle, hloop, -⟩ := normLoop_state hs hfmt rd
          rw [exec_norm, runCommand_ok hf, hloop] at h
          obtain rfl := Host.Outcome.next.inj h
          have h63 := digitCount_le_63 hfmt
          rw [State.CountInRange, setCnt_cnt, BitVec.toNat_ofNat]
          exact (Nat.mod_le _ _).trans (hle.trans h63)
      | _ => simp [Instr.counts] at hcounts
    · rw [State.CountInRange, hc.cnt (by simpa using hcounts)]
      exact hcnt
  · exact hcnt

end

theorem takeFault_faultRecord (x : Cause) (w : Word) (s : State) : (takeFault x w s).FaultRecord := by
  refine ⟨fun h => by simp at h, fun _ => ?_⟩
  rw [takeFault_cause]
  cases x <;> decide

theorem exec_faultRecord {i : Instr} {s t : State} (h : exec i s = .next t) (hrec : s.FaultRecord) : t.FaultRecord := by
  rcases exec_completes_or_faults h with hc | ⟨-, x, rfl, -⟩
  · simpa only [State.FaultRecord, hc.fault, hc.cause, hc.fcmd] using hrec
  · exact takeFault_faultRecord x _ s

theorem takeFault_wf {s : State} (hwf : s.WF) (x : Cause) (w : Word) : (takeFault x w s).WF := by
  obtain ⟨hs, hfmt, hcnt, -⟩ := hwf
  exact ⟨hs, hfmt, hcnt, takeFault_faultRecord x w s⟩

theorem exec_wf {i : Instr} {s t : State} (hwf : s.WF) (h : exec i s = .next t) : t.WF := by
  obtain ⟨hs, hfmt, hcnt, hrec⟩ := hwf
  exact ⟨exec_regsSized hs hfmt h, exec_formatLegal h hfmt, exec_countInRange h hs hfmt hcnt, exec_faultRecord h hrec⟩

/-! ### The shape of TRACE (R24) -/

/-- The records that a command appends while it is carried out are well shaped. -/
theorem exec_appends_shaped {i : Instr} {s t : State} (hf : s.f = false) (h : exec i s = .next t) :
    ∃ new, t.trace = s.trace ++ new ∧ ∀ r ∈ new, StepRecord.shaped s.params.width r = true := by
  by_cases htr : Instr.traces i = true
  · cases i with
    | mulc rd rs rt =>
      obtain rfl := Host.Outcome.next.inj ((exec_mulc_ok hf rd rs rt).symm.trans h)
      exact ⟨_, finishMul_trace .., (mulcRun_records _ _).1⟩
    | mulb rd rs rt =>
      obtain rfl := Host.Outcome.next.inj ((exec_mulb_ok hf rd rs rt).symm.trans h)
      exact ⟨_, finishMul_trace .., (mulbRun_records _ _).1⟩
    | mulf rd rs rt =>
      obtain rfl := Host.Outcome.next.inj ((exec_mulf_ok hf rd rs rt).symm.trans h)
      exact ⟨_, finishMul_trace .., (mulfRun_records _ _).1⟩
    | div rd rs rt rem =>
      rcases exec_div_cases hf rd rs rt rem with ⟨x, hx⟩ | ⟨u, -, hrun, hx⟩ <;>
        obtain rfl := Host.Outcome.next.inj (hx.symm.trans h)
      · exact ⟨[], by simp⟩
      · rcases divRun_cases s.params.divFixup (s.operand2 rs) (s.operand rt) with
          ⟨x, -, hfault⟩ | ⟨v, recs, -, -, hdone, -, hshaped, -⟩
        · simp [hrun] at hfault
        · obtain rfl := Except.ok.inj (hdone.symm.trans hrun)
          exact ⟨recs, finishDiv_trace .., hshaped⟩
    | _ => simp [Instr.traces] at htr
  · obtain ⟨-, -, -, hkept, -⟩ := logsOnlyGrow i s t h
    exact ⟨[], by simpa using hkept (by simpa using htr), by simp⟩

theorem exec_traceShaped {i : Instr} {s t : State} (hs : s.TraceShaped) (h : exec i s = .next t) : t.TraceShaped := by
  obtain ⟨hparams, -⟩ := exec_keeps_host h
  obtain ⟨-, -, -, -, hfault⟩ := logsOnlyGrow i s t h
  rw [State.TraceShaped, hparams]
  cases hf : s.f with
  | true =>
    rw [hfault (exec_keeps_fault hf h)]
    exact hs
  | false =>
    obtain ⟨new, htrace, hnew⟩ := exec_appends_shaped hf h
    rw [htrace]
    exact List.forall_mem_append.mpr ⟨hs, hnew⟩

end Sys2Proof.Machine
end

section

open Sys2Proof Sys2Proof.Machine

/-- Settles O9: the invariant of the reset state; its TRACE is empty. -/
theorem invariantHoldsAtReset : Obligations.InvariantHoldsAtReset :=
  fun p => ⟨resetWith_wf p, fun _ h => by simp at h⟩

/-- Settles O10: the host's list is no part of the invariant, reset establishes it, and commands and fault entries keep it. -/
theorem everyStepKeepsTheInvariant : Obligations.EveryStepKeepsTheInvariant := fun _ _ hwf h =>
  step_keeps (P := State.WF) (fun _ _ _ hs => hs) applyReset_wf exec_wf (fun _ w hs => takeFault_wf hs _ w) hwf h

/-- Settles O11: reset empties TRACE, and a command appends only well-shaped records. -/
theorem everyStepKeepsTheTraceShape : Obligations.EveryStepKeepsTheTraceShape := fun _ _ hs h =>
  step_keeps (P := State.TraceShaped) (fun _ _ _ hs => hs) (fun _ _ hr => by simp at hr) exec_traceShaped
    (fun _ _ hs => hs) hs h

end


section
/-! What a command does not read: a change of the state that leaves registers, format, F and the parameters a command reads,
and that commutes with the writes, commutes with every command other than GETS (10_state.md R16, R24, 40_byte_primitives.md
R95). -/

namespace Sys2Proof.Machine

open Sys2Proof

/-- The change `g` of a state is not seen by a command and commutes with its writes; once `C` is written the change left is
`g'`, which is none where `g` changes `C` only. -/
structure Unseen (g g' : State → State) : Prop where
  width : ∀ s, (g s).params.width = s.params.width
  ext : ∀ s, (g s).params.ext = s.params.ext
  divFixup : ∀ s, (g s).params.divFixup = s.params.divFixup
  fault : ∀ s, (g s).f = s.f
  mfmt : ∀ s, (g s).mfmt = s.mfmt
  reg : ∀ s r, (g s).reg r = s.reg r
  setReg : ∀ s r v, (g s).setReg r v = g (s.setReg r v)
  setCarry : ∀ s b, (g s).setCarry b = g' (s.setCarry b)
  emit : ∀ s bs, (g s).emit bs = g (s.emit bs)
  record : ∀ s recs, (g s).record recs = g (s.record recs)
  setCnt : ∀ s n, (g s).setCnt n = g (s.setCnt n)
  setMfmt : ∀ s h bu dw, (g s).setMfmt h bu dw = g (s.setMfmt h bu dw)
  takeFault : ∀ s x w, takeFault x w (g s) = g (takeFault x w s)

/-! ### The long operations as functions of register contents -/

/-- What a multiplication on register contents of `w` bytes writes and records. -/
def mulOutput (run : ∀ {w : Nat}, BitVec (8 * w) → BitVec (8 * w) → Work (8 * w) × List StepRecord) (w : Nat)
    (a b : Register) : Register × List StepRecord :=
  let r := run (w := w) (toVec _ a) (toVec _ b)
  (snap2 r.1.vec, r.2)

/-- What a division on register contents of `w` and `2w` bytes writes and records. -/
def divOutput (fixup : Bool) (w : Nat) (a d : Register) : Except Cause (Register × Register × List StepRecord) :=
  (divRun (w := w) fixup (toVec _ a) (toVec _ d)).map fun u =>
    (snap1 (BitVec.ofInt (8 * w) u.1.q), snap1 (BitVec.ofInt (8 * w) u.1.r), u.2)

theorem exec_mulc_output (rd : DReg) (rs rt : SReg) (s : State) :
    exec (.mulc rd rs rt) s = runCommand (encodeWord (.mulc rd rs rt)) s
      (.ok ((s.setReg (.double rd) (mulOutput mulcRun s.params.width.bytes (s.reg (.single rs)) (s.reg (.single rt))).1).record
        (mulOutput mulcRun s.params.width.bytes (s.reg (.single rs)) (s.reg (.single rt))).2)) := rfl

theorem exec_mulb_output (rd : DReg) (rs rt : SReg) (s : State) :
    exec (.mulb rd rs rt) s = runCommand (encodeWord (.mulb rd rs rt)) s
      (.ok ((s.setReg (.double rd) (mulOutput mulbRun s.params.width.bytes (s.reg (.single rs)) (s.reg (.single rt))).1).record
        (mulOutput mulbRun s.params.width.bytes (s.reg (.single rs)) (s.reg (.single rt))).2)) := rfl

theorem exec_mulf_output (rd : DReg) (rs rt : SReg) (s : State) :
    exec (.mulf rd rs rt) s = runCommand (encodeWord (.mulf rd rs rt)) s
      (.ok ((s.setReg (.double rd) (mulOutput mulfRun s.params.width.bytes (s.reg (.single rs)) (s.reg (.single rt))).1).record
        (mulOutput mulfRun s.params.width.bytes (s.reg (.single rs)) (s.reg (.single rt))).2)) := rfl

theorem exec_div_output (rd : SReg) (rs : DReg) (rt rem : SReg) (s : State) :
    exec (.div rd rs rt rem) s = runCommand (encodeWord (.div rd rs rt rem)) s
      (if rd = rem then .error .illegalCommand
       else divOutput s.params.divFixup s.params.width.bytes (s.reg (.double rs)) (s.reg (.single rt)) >>= fun o =>
        .ok (((s.setReg (.single rd) o.1).setReg (.single rem) o.2.1).record o.2.2)) := by
  have hexec : exec (.div rd rs rt rem) s = execDiv rd rs rt rem s := rfl
  have hoperand2 : (toVec _ (s.reg (.double rs)) : BitVec (8 * s.params.width.bytes + 8 * s.params.width.bytes)) =
    s.operand2 rs := rfl
  have hoperand : (toVec _ (s.reg (.single rt)) : BitVec (8 * s.params.width.bytes)) = s.operand rt := rfl
  rw [hexec, execDiv, divOutput, hoperand2, hoperand]
  cases divRun s.params.divFixup (s.operand2 rs) (s.operand rt) <;> rfl

theorem shiftLeftBy_carry (fill : Bool) {k : Nat} (hk : k ≠ 0) (c c' : Bool) (v : Register) :
    shiftLeftBy fill k c v = shiftLeftBy fill k c' v := by
  cases k with
  | zero => exact absurd rfl hk
  | succ k => rfl

theorem shiftRightBy_carry (fill : ShrFill) {k : Nat} (hk : k ≠ 0) (c c' : Bool) (v : Register) :
    shiftRightBy fill k c v = shiftRightBy fill k c' v := by
  cases k with
  | zero => exact absurd rfl hk
  | succ k => rfl

theorem bind_ok_map {ε α β γ : Type} (x : Except ε α) (f : α → β) (k : β → γ) :
    (x >>= fun a => Except.ok (f a)).map k = x >>= fun a => .ok (k (f a)) := by
  cases x <;> rfl

theorem setReg_setCarry_self (s : State) (r : Reg) (v : Register) : (s.setReg r v).setCarry s.c = s.setReg r v := by
  rcases r with r | r <;> cases r <;> rfl

/-- A shift by nothing writes the register's own content, and `C` its own value. -/
theorem exec_shl_zero (rd : Reg) (fill : Bool) (s : State) : exec (.shl rd fill 0#6) s =
    runCommand (encodeWord (.shl rd fill 0#6)) s (.ok (s.setReg rd (s.reg rd))) :=
  congrArg (fun t => runCommand (encodeWord (.shl rd fill 0#6)) s (.ok t)) (setReg_setCarry_self s rd _)

theorem exec_shr_zero (rd : Reg) (fill : ShrFill) (s : State) : exec (.shr rd fill 0#6) s =
    runCommand (encodeWord (.shr rd fill 0#6)) s (.ok (s.setReg rd (s.reg rd))) :=
  congrArg (fun t => runCommand (encodeWord (.shr rd fill 0#6)) s (.ok t)) (setReg_setCarry_self s rd _)

section

variable {g g' : State → State} (hU : Unseen g g') (s : State)

include hU

namespace Unseen

theorem widthOf (r : Reg) : (g s).widthOf r = s.widthOf r := by rw [State.widthOf, hU.width, State.widthOf]

theorem nBits : (g s).nBits = s.nBits := by rw [State.nBits, hU.width, State.nBits]

theorem hiddenOne : (g s).hiddenOne = s.hiddenOne := by rw [State.hiddenOne, hU.mfmt, State.hiddenOne]

theorem single (r : SReg) : (g s).single r = s.single r := hU.reg s (.single r)

theorem double (r : DReg) : (g s).double r = s.double r := hU.reg s (.double r)

theorem high (r : DReg) : (g s).high r = s.high r := by rw [State.high, hU.double, hU.width, State.high]

theorem low (r : DReg) : (g s).low r = s.low r := by rw [State.low, hU.double, hU.width, State.low]

theorem setSingle (r : SReg) (v : Register) : (g s).setSingle r v = g (s.setSingle r v) := hU.setReg s (.single r) v

theorem setDouble (r : DReg) (v : Register) : (g s).setDouble r v = g (s.setDouble r v) := hU.setReg s (.double r) v

theorem setHigh (r : DReg) (v : Register) : (g s).setHigh r v = g (s.setHigh r v) := by
  rw [State.setHigh, hU.low, hU.setDouble, State.setHigh]

theorem setLow (r : DReg) (v : Register) : (g s).setLow r v = g (s.setLow r v) := by
  rw [State.setLow, hU.high, hU.setDouble, State.setLow]

theorem addSub (op : Byte → Byte → Bool → Bool × Byte) (rd rs : Reg) :
    Machine.addSub op rd rs (g s) = (Machine.addSub op rd rs s).map g' := by
  rcases Nat.lt_or_ge (s.widthOf rd) (s.widthOf rs) with h | h
  · have h' : (g s).widthOf rd < (g s).widthOf rs := by rwa [hU.widthOf, hU.widthOf]
    rw [addSub_error op h, addSub_error op h']
    rfl
  · have h' : (g s).widthOf rs ≤ (g s).widthOf rd := by rwa [hU.widthOf, hU.widthOf]
    rw [addSub_ok op h, addSub_ok op h', hU.ext, hU.reg, hU.reg, hU.setReg, hU.setCarry]
    rfl

theorem highOperand (rs : Reg) (trunc : Bool) : Machine.highOperand (g s) rs trunc = Machine.highOperand s rs trunc := by
  cases rs with
  | single r => rw [Machine.highOperand, hU.single, Machine.highOperand]
  | double r => rw [Machine.highOperand, hU.high, hU.low, Machine.highOperand]

theorem addSubHigh (op : Byte → Byte → Bool → Bool × Byte) (rd : DReg) (rs : Reg) (trunc : Bool) :
    Machine.addSubHigh op rd rs trunc (g s) = (Machine.addSubHigh op rd rs trunc s).map g' := by
  simp only [Machine.addSubHigh, hU.highOperand, hU.ext, hU.high, hU.setHigh, hU.setCarry]
  cases Machine.highOperand s rs trunc <;> rfl

theorem requireByte (rd : Reg) (bi : Nat) : Machine.requireByte (g s) rd bi = Machine.requireByte s rd bi := by
  rw [Machine.requireByte, hU.widthOf, Machine.requireByte]

theorem putBit (rd : Reg) (bi k : Nat) (b : Bool) :
    Machine.putBit (g s) rd bi k b = (Machine.putBit s rd bi k b).map g := by
  simp only [Machine.putBit, hU.requireByte, hU.reg, hU.setReg]
  cases Machine.requireByte s rd bi with
  | error x => rfl
  | ok _ => cases bput (byteAt (s.reg rd) bi) k b <;> rfl

end Unseen

/-- The result of every command other than GETS, on the changed state, is the changed result. -/
theorem exec_map_unseen {i : Instr} (hi : ∀ sel, i ≠ .gets sel) : ∃ r, exec i s = runCommand (encodeWord i) s r ∧
    exec i (g s) = runCommand (encodeWord i) (g s) (r.map (cond (Instr.writesCarry s i) g' g)) := by
  cases i with
  | gets sel => exact absurd rfl (hi sel)
  | set rd lit =>
    refine ⟨_, exec_set rd lit s, ?_⟩
    rw [exec_set, hU.widthOf, hU.setReg]
    split <;> rfl
  | get rd =>
    refine ⟨_, exec_get rd s, ?_⟩
    rw [exec_get, hU.reg, hU.emit]
    rfl
  | copy rd rs =>
    refine ⟨_, exec_copy rd rs s, ?_⟩
    rw [exec_copy, bind_ok_map, requireSameWidth_eq, hU.widthOf, hU.widthOf, hU.reg, hU.setReg]
    rfl
  | geth rd rs =>
    refine ⟨_, exec_geth rd rs s, ?_⟩
    rw [exec_geth, hU.high, hU.setSingle]
    rfl
  | getl rd rs =>
    refine ⟨_, exec_getl rd rs s, ?_⟩
    rw [exec_getl, hU.low, hU.setSingle]
    rfl
  | puth rd rs =>
    refine ⟨_, exec_puth rd rs s, ?_⟩
    rw [exec_puth, hU.single, hU.setHigh]
    rfl
  | putl rd rs =>
    refine ⟨_, exec_putl rd rs s, ?_⟩
    rw [exec_putl, hU.single, hU.setLow]
    rfl
  | add rd rs => exact ⟨_, exec_add rd rs s, by rw [exec_add, hU.addSub]; rfl⟩
  | sub rd rs => exact ⟨_, exec_sub rd rs s, by rw [exec_sub, hU.addSub]; rfl⟩
  | addh rd rs trunc => exact ⟨_, exec_addh rd rs trunc s, by rw [exec_addh, hU.addSubHigh]; rfl⟩
  | subh rd rs trunc => exact ⟨_, exec_subh rd rs trunc s, by rw [exec_subh, hU.addSubHigh]; rfl⟩
  | shl rd fill amt =>
    by_cases hz : amt = 0#6
    · subst hz
      refine ⟨_, exec_shl_zero rd fill s, ?_⟩
      rw [exec_shl_zero, hU.reg, hU.setReg]
      rfl
    · have hk : amt.toNat ≠ 0 := fun h => hz (BitVec.eq_of_toNat_eq h)
      have hw : Instr.writesCarry s (.shl rd fill amt) = true := by simpa [Instr.writesCarry] using hz
      refine ⟨_, exec_shl rd fill amt s, ?_⟩
      rw [exec_shl, hw, hU.reg, hU.setReg, hU.setCarry, shiftLeftBy_carry fill hk (g s).c s.c]
      rfl
  | shr rd fill amt =>
    by_cases hz : amt = 0#6
    · subst hz
      refine ⟨_, exec_shr_zero rd fill s, ?_⟩
      rw [exec_shr_zero, hU.reg, hU.setReg]
      rfl
    · have hk : amt.toNat ≠ 0 := fun h => hz (BitVec.eq_of_toNat_eq h)
      have hw : Instr.writesCarry s (.shr rd fill amt) = true := by simpa [Instr.writesCarry] using hz
      refine ⟨_, exec_shr rd fill amt s, ?_⟩
      rw [exec_shr, hw, hU.reg, hU.setReg, hU.setCarry, shiftRightBy_carry fill hk (g s).c s.c]
      rfl
  | neg rd =>
    refine ⟨_, exec_neg rd s, ?_⟩
    rw [exec_neg, hU.ext, hU.reg, hU.widthOf, hU.setReg]
    rfl
  | not rd =>
    refine ⟨_, exec_not rd s, ?_⟩
    rw [exec_not, hU.reg, hU.setReg]
    rfl
  | btst rd bi k =>
    refine ⟨_, exec_btst rd bi k s, ?_⟩
    simp only [exec_btst, hU.requireByte, hU.reg, hU.setCarry]
    cases Machine.requireByte s rd bi.toNat with
    | error x => rfl
    | ok _ => cases bget (byteAt (s.reg rd) bi.toNat) k.toNat <;> rfl
  | bset rd bi k => exact ⟨_, exec_bset rd bi k s, by rw [exec_bset, hU.putBit]; rfl⟩
  | bclr rd bi k => exact ⟨_, exec_bclr rd bi k s, by rw [exec_bclr, hU.putBit]; rfl⟩
  | mulc rd rs rt =>
    refine ⟨_, exec_mulc_output rd rs rt s, ?_⟩
    rw [exec_mulc_output, hU.width, hU.reg, hU.reg, hU.setReg, hU.record]
    rfl
  | mulb rd rs rt =>
    refine ⟨_, exec_mulb_output rd rs rt s, ?_⟩
    rw [exec_mulb_output, hU.width, hU.reg, hU.reg, hU.setReg, hU.record]
    rfl
  | mulf rd rs rt =>
    refine ⟨_, exec_mulf_output rd rs rt s, ?_⟩
    rw [exec_mulf_output, hU.width, hU.reg, hU.reg, hU.setReg, hU.record]
    rfl
  | div rd rs rt rem =>
    refine ⟨_, exec_div_output rd rs rt rem s, ?_⟩
    simp only [exec_div_output, hU.divFixup, hU.width, hU.reg, hU.setReg, hU.record]
    split
    · rfl
    · rw [bind_ok_map]
      rfl
  | setfmt h bu dw =>
    refine ⟨_, exec_setfmt h bu dw s, ?_⟩
    rw [exec_setfmt, hU.nBits, hU.setMfmt]
    split <;> rfl
  | norm rd =>
    refine ⟨_, exec_norm rd s, ?_⟩
    simp only [exec_norm, State.digitWidth, State.bitsUsed, hU.mfmt, hU.nBits, hU.single, hU.setSingle, hU.setCnt]
    rfl
  | unhide rd =>
    have hw : Instr.writesCarry s (.unhide rd) = s.hiddenOne := rfl
    have hiff := hU.hiddenOne s
    cases hh : s.hiddenOne with
    | true =>
      refine ⟨_, (exec_unhide rd s).trans (by rw [if_pos hh]), ?_⟩
      rw [exec_unhide, if_pos (hiff.trans hh), hw, hh, hU.single, hU.setSingle, hU.setCarry]
      rfl
    | false =>
      refine ⟨_, (exec_unhide rd s).trans (by rw [if_neg (by simp [hh])]), ?_⟩
      rw [exec_unhide, if_neg (by simp [hiff, hh]), hw, hh]
      rfl
  | hide rd =>
    have hw : Instr.writesCarry s (.hide rd) = s.hiddenOne := rfl
    have hiff := hU.hiddenOne s
    cases hh : s.hiddenOne with
    | true =>
      refine ⟨_, (exec_hide rd s).trans (by rw [if_pos hh]), ?_⟩
      rw [exec_hide, if_pos (hiff.trans hh), hw, hh, hU.single, hU.setSingle, hU.setCarry]
      rfl
    | false =>
      refine ⟨_, (exec_hide rd s).trans (by rw [if_neg (by simp [hh])]), ?_⟩
      rw [exec_hide, if_neg (by simp [hiff, hh]), hw, hh]
      rfl

/-- On the changed state a command other than GETS answers the changed state, without the change of `C` where it has
written `C`. -/
theorem exec_unseen {i : Instr} (hi : ∀ sel, i ≠ .gets sel) {t : State} (h : exec i s = .next t) :
    (exec i (g s) = .next (g t) ∧ (Instr.writesCarry s i = false ∨ s.f = true ∨ t.f = true)) ∨
    exec i (g s) = .next (g' t) := by
  obtain ⟨r, hx, hx'⟩ := exec_map_unseen hU s hi
  rw [hx']
  rw [hx] at h
  rcases runCommand_cases (encodeWord i) s r with ⟨hf, hr⟩ | ⟨hf, u, rfl, hr⟩ | ⟨hf, x, rfl, hr⟩ <;>
    obtain rfl := Host.Outcome.next.inj (hr.symm.trans h)
  · exact .inl ⟨runCommand_ignored ((hU.fault s).trans hf), .inr (.inl hf)⟩
  · have hf' := (hU.fault s).trans hf
    cases Instr.writesCarry s i with
    | true => exact .inr (runCommand_ok hf')
    | false => exact .inl ⟨runCommand_ok hf', .inl rfl⟩
  · refine .inl ⟨?_, .inr (.inr rfl)⟩
    rw [← hU.takeFault]
    exact runCommand_error ((hU.fault s).trans hf)

end

/-! ### The three changes no command sees -/

theorem unseen_setCarry (b : Bool) : Unseen (fun s => s.setCarry b) id where
  width _ := rfl
  ext _ := rfl
  divFixup _ := rfl
  fault _ := rfl
  mfmt _ := rfl
  reg _ _ := setCarry_reg ..
  setReg _ r _ := by rcases r with r | r <;> cases r <;> rfl
  setCarry _ _ := rfl
  emit _ _ := rfl
  record _ _ := rfl
  setCnt _ _ := rfl
  setMfmt _ _ _ _ := rfl
  takeFault _ _ _ := rfl

/-- The same state with the records `log` before those in TRACE. -/
def State.logBefore (log : List StepRecord) (s : State) : State := { s with trace := log ++ s.trace }

theorem unseen_logBefore (log : List StepRecord) : Unseen (State.logBefore log) (State.logBefore log) where
  width _ := rfl
  ext _ := rfl
  divFixup _ := rfl
  fault _ := rfl
  mfmt _ := rfl
  reg _ r := by rcases r with r | r <;> cases r <;> rfl
  setReg _ r _ := by rcases r with r | r <;> cases r <;> rfl
  setCarry _ _ := rfl
  emit _ _ := rfl
  record s recs := by simp [State.logBefore, State.record]
  setCnt _ _ := rfl
  setMfmt _ _ _ _ := rfl
  takeFault _ _ _ := rfl

theorem unseen_withBsar (v : BsarVariant) : Unseen (State.withBsar v) (State.withBsar v) where
  width _ := rfl
  ext _ := rfl
  divFixup _ := rfl
  fault _ := rfl
  mfmt _ := rfl
  reg _ r := by rcases r with r | r <;> cases r <;> rfl
  setReg _ r _ := by rcases r with r | r <;> cases r <;> rfl
  setCarry _ _ := rfl
  emit _ _ := rfl
  record _ _ := rfl
  setCnt _ _ := rfl
  setMfmt _ _ _ _ := rfl
  takeFault _ _ _ := rfl

/-- A change that GETS does not read and that stays when `C` is written commutes with every command. -/
theorem exec_commutes {g : State → State} (hU : Unseen g g) (hcontrol : ∀ s sel, (g s).control sel = s.control sel)
    (i : Instr) (s : State) : ∃ t, exec i s = .next t ∧ exec i (g s) = .next (g t) := by
  obtain ⟨t, h⟩ := exec_answers i s
  refine ⟨t, h, ?_⟩
  by_cases hi : ∃ sel, i = .gets sel
  · obtain ⟨sel, rfl⟩ := hi
    obtain rfl := Host.Outcome.next.inj ((exec_gets sel s).symm.trans h)
    rw [exec_gets, hcontrol, hU.emit]
  · rcases exec_unseen hU s (not_exists.mp hi) h with ⟨hx, -⟩ | hx <;> exact hx

end Sys2Proof.Machine
end

section

open Sys2Proof Sys2Proof.Machine

/-- Settles O22: a change of C is not seen by a command, and gone once the command has written C; GETS reads C only in
STATUS. -/
theorem carryIsNoInput : Obligations.CarryIsNoInput := by
  intro i s b hstatus
  obtain ⟨t, h⟩ := exec_answers i s
  by_cases hi : ∃ sel, i = .gets sel
  · obtain ⟨sel, rfl⟩ := hi
    have hcontrol : (s.setCarry b).control sel = s.control sel := by
      cases sel with
      | status => exact absurd rfl hstatus
      | _ => rfl
    exact ⟨_, _, exec_gets sel s, exec_gets sel _, by rw [hcontrol]; rfl, fun hw => by simp [Instr.writesCarry] at hw⟩
  · rcases exec_unseen (unseen_setCarry b) s (not_exists.mp hi) h with ⟨hx, hkept⟩ | hx
    · refine ⟨t, _, h, hx, rfl, fun hw hf ht => ?_⟩
      simp [hw, hf, ht] at hkept
    · exact ⟨t, t, h, hx, rfl, fun _ _ _ => rfl⟩

/-- Settles O23: records before those in TRACE are not seen, so a command appends to any log what it appends to the empty
one. -/
theorem traceIsNeverRead : Obligations.TraceIsNeverRead := by
  intro i s log
  have hcontrol : ∀ before s sel, (State.logBefore before s).control sel = s.control sel := by
    intro _ _ sel
    cases sel <;> rfl
  have hlog : ∀ before, State.logBefore before { s with trace := [] } = { s with trace := before } := by
    intro before
    simp [State.logBefore]
  obtain ⟨t, h, hx⟩ := exec_commutes (unseen_logBefore s.trace) (hcontrol _) i { s with trace := [] }
  obtain ⟨t', h', hx'⟩ := exec_commutes (unseen_logBefore log) (hcontrol _) i { s with trace := [] }
  obtain rfl := Host.Outcome.next.inj (h.symm.trans h')
  rw [hlog] at hx hx'
  exact ⟨_, _, t.trace, hx, hx', rfl, rfl⟩

/-- Settles O24: the parameter is not seen by any command. -/
theorem bsarVariantChangesNoCommand : Obligations.BsarVariantChangesNoCommand := fun i s v =>
  exec_commutes (unseen_withBsar v) (fun _ sel => by cases sel <;> rfl) i s

end
